-- ==== Sys2Proof/Word.lean ====
section
/-! DEFINITION. The words of the BFC: bytes of the two memories and the 32- and 64-bit interface fields
(00_scope.md rules R12 and R13: every value is unsigned, bit 0 is the least significant). -/

namespace Sys2Proof

/-- One byte of `B` or `X` (20_memory.md rules R41, R42). -/
abbrev Byte := BitVec 8

/-- A 32-bit interface field: CMD, OFFSET, COUNT, XOFF, NEXT (10_state.md rules R22, R23). -/
abbrev Word32 := BitVec 32

/-- A 64-bit interface field: DATA, RESULT (10_state.md rules R22, R23). -/
abbrev Word64 := BitVec 64

end Sys2Proof
end

