-- ==== Sys2Proof/Syntax.lean ====
section
/-! DEFINITION. The twelve commands of the BFC (30_encoding.md rule R63), one constructor for each row of
spec/opcode_table.json, and the five request fields that carry a command (30_encoding.md rule R60). -/

namespace Sys2Proof

/-- A decoded command.  `nbits` is the field width `CMD[10:4]` as an unsigned number (30_encoding.md rule R62); every
other operand is read from the latched request when the command executes (rule R64).  A width outside the
command's range is still a command (rule R63): it decodes and then fails the contract check. -/
inductive Instr
  /-- Read a field of 1 to 8 bits (40_bit_packing.md rule R80). -/
  | rdbits (nbits : Nat)
  /-- Write a field of 0 to 8 bits (40_bit_packing.md rule R81). -/
  | wrbits (nbits : Nat)
  /-- Copy whole bytes from `B` to `X` (41_byte_run.md rule R90). -/
  | rdbytes
  /-- Copy whole bytes from `X` to `B` (41_byte_run.md rule R91). -/
  | wrbytes
  /-- Read a 16-bit integer field (42_wide_integer.md rule R101). -/
  | rdu16 (nbits : Nat)
  /-- Read a 32-bit integer field (42_wide_integer.md rule R102). -/
  | rdu32 (nbits : Nat)
  /-- Read a 64-bit integer field (42_wide_integer.md rule R103). -/
  | rdu64 (nbits : Nat)
  /-- Write a 16-bit integer field (42_wide_integer.md rule R105). -/
  | wru16 (nbits : Nat)
  /-- Write a 32-bit integer field (42_wide_integer.md rule R106). -/
  | wru32 (nbits : Nat)
  /-- Write a 64-bit integer field (42_wide_integer.md rule R107). -/
  | wru64 (nbits : Nat)
  /-- Encode a varint (43_varint.md rule R121). -/
  | wrvar
  /-- Decode a varint (43_varint.md rule R122). -/
  | rdvar
  deriving DecidableEq, Repr

/-- The five request fields, presented together at START (30_encoding.md rule R60, 10_state.md rule R22). -/
structure Request where
  cmd : Word32
  offset : Word32
  data : Word64
  count : Word32
  xoff : Word32
  deriving DecidableEq, Repr

end Sys2Proof
end

