-- ==== Sys2Proof/WellFormed.lean ====
section
/-! DEFINITION. What a command word can carry: the width field `CMD[10:4]` is "0 to 127, unsigned"
(30_encoding.md rule R61).  Well-formedness says nothing about the command's legal width range: an illegal width
decodes and reports CONTRACT_VIOLATION (30_encoding.md rule R63). -/

namespace Sys2Proof

/-- A width the 7-bit NBITS field can hold. -/
def nbitsFits (n : Nat) : Bool := decide (n < 128)

/-- Whether a command can be encoded (30_encoding.md rule R61). -/
def Instr.wellFormed : Instr → Bool
  | .rdbits n => nbitsFits n
  | .wrbits n => nbitsFits n
  | .rdbytes => true
  | .wrbytes => true
  | .rdu16 n => nbitsFits n
  | .rdu32 n => nbitsFits n
  | .rdu64 n => nbitsFits n
  | .wru16 n => nbitsFits n
  | .wru32 n => nbitsFits n
  | .wru64 n => nbitsFits n
  | .wrvar => true
  | .rdvar => true

end Sys2Proof
end

