-- ==== Sys2Proof/Decode.lean ====
section
/-! DEFINITION. Decode, "a total function of the 32-bit command word" (30_encoding.md rule R69), the encoder
written from the same tables (rules R61 and R63), and the host's table words. -/

namespace Sys2Proof

/-- `OP = CMD[3:0]` (30_encoding.md rule R61). -/
def cmdOp (cmd : Word32) : Nat := (cmd.extractLsb' 0 4).toNat

/-- `NBITS = CMD[10:4]` (30_encoding.md rule R61). -/
def cmdNbits (cmd : Word32) : Nat := (cmd.extractLsb' 4 7).toNat

/-- `RSVD = CMD[31:11]` (30_encoding.md rule R61). -/
def cmdRsvd (cmd : Word32) : Nat := (cmd.extractLsb' 11 21).toNat

/-- Why a command word is no command (60_exceptions.md rule R141). -/
inductive IllegalReason
  /-- `CMD[31:11]` is not zero (30_encoding.md rule R67). -/
  | reservedBitsSet
  /-- `OP` is 0x0, 0xD, 0xE or 0xF (30_encoding.md rule R66). -/
  | reservedOpcode
  /-- `NBITS` is not zero on a command without a width (30_encoding.md rule R65). -/
  | widthOnWidthless
  deriving DecidableEq, Repr

/-- What a command word is: "either one of the twelve commands of rule R63 or illegal" (30_encoding.md rule R68). -/
inductive Decoded
  | command (i : Instr)
  | illegal (why : IllegalReason)
  deriving DecidableEq, Repr

/-- A command without a width: legal only with `NBITS = 0` (30_encoding.md rule R65). -/
def widthless (nb : Nat) (i : Instr) : Decoded :=
  if nb = 0 then .command i else .illegal .widthOnWidthless

/-- The opcode map of 30_encoding.md rule R63, in the form of rule R69's `case op of`. -/
def decodeOp (op nb : Nat) : Decoded :=
  match op with
  | 0x1 => .command (.rdbits nb)
  | 0x2 => .command (.wrbits nb)
  | 0x3 => widthless nb .rdbytes
  | 0x4 => widthless nb .wrbytes
  | 0x5 => .command (.rdu16 nb)
  | 0x6 => .command (.rdu32 nb)
  | 0x7 => .command (.rdu64 nb)
  | 0x8 => .command (.wru16 nb)
  | 0x9 => .command (.wru32 nb)
  | 0xA => .command (.wru64 nb)
  | 0xB => widthless nb .wrvar
  | 0xC => widthless nb .rdvar
  | _ => .illegal .reservedOpcode

/-- `Decode(CMD)` of 30_encoding.md rule R69. -/
def decode (cmd : Word32) : Decoded :=
  if cmdRsvd cmd ≠ 0 then .illegal .reservedBitsSet else decodeOp (cmdOp cmd) (cmdNbits cmd)

/-- The opcode of a command (30_encoding.md rule R63). -/
def Instr.opcode : Instr → Nat
  | .rdbits _ => 0x1
  | .wrbits _ => 0x2
  | .rdbytes => 0x3
  | .wrbytes => 0x4
  | .rdu16 _ => 0x5
  | .rdu32 _ => 0x6
  | .rdu64 _ => 0x7
  | .wru16 _ => 0x8
  | .wru32 _ => 0x9
  | .wru64 _ => 0xA
  | .wrvar => 0xB
  | .rdvar => 0xC

/-- The NBITS field of a command: its width, and 0 for the commands without one (30_encoding.md rule R63). -/
def Instr.nbitsField : Instr → Nat
  | .rdbits n => n
  | .wrbits n => n
  | .rdbytes => 0
  | .wrbytes => 0
  | .rdu16 n => n
  | .rdu32 n => n
  | .rdu64 n => n
  | .wru16 n => n
  | .wru32 n => n
  | .wru64 n => n
  | .wrvar => 0
  | .rdvar => 0

/-- "The encoded command word is `CMD = (w << 4) OR OP` (w = 0 for the forms without it)" (30_encoding.md rule R70). -/
def encode (i : Instr) : Word32 :=
  BitVec.ofNat 32 ((i.nbitsField <<< 4) ||| i.opcode)

/-- The command the decoder reads from a table word of `nbits` bits.  The table gives the CMD field alone, a 32-bit
word with no byte order of its own (30_encoding.md rule R60); the four operand fields have no part in decoding (log entry 17). -/
def decodeTableWord (nbits w : Nat) : Option Instr :=
  match decode (BitVec.ofNat 32 (w % 2 ^ nbits)) with
  | .command i => some i
  | .illegal _ => none

end Sys2Proof
end

