-- ==== Sys2Proof/Config.lean ====
section
/-! DEFINITION. The build-time configuration of one BFC instance and the values the spec leaves free. The
configuration is plain data and stands in `State.cfg`, so that statements range over every instance; no step
writes it (10_state.md rule R29, 70_reset_and_hazards.md rule R162). -/

namespace Sys2Proof

/-- `ENDIAN` (00_scope.md rule R9): `LE` or `BE`, no other value exists (10_state.md rule R29). -/
inductive Endian
  | little
  | big
  deriving DecidableEq, Repr

/-- `VARINT_TOP_BITS` (00_scope.md rule R10). -/
inductive TopBits
  | truncate
  | reject
  deriving DecidableEq, Repr

/-- The parameters of one instance.  `sharedStorage` is the platform's claim that `B` and `X` share storage,
which 20_memory.md rule R43 has a model refuse. -/
structure Config where
  /-- `BUF_LEN`, the bytes of `B` (00_scope.md rule R7). -/
  bufLen : Nat
  /-- `XFER_LEN`, the bytes of `X` (00_scope.md rule R8). -/
  xferLen : Nat
  /-- `ENDIAN` (00_scope.md rule R9). -/
  endian : Endian
  /-- `VARINT_TOP_BITS` (00_scope.md rule R10). -/
  topBits : TopBits
  /-- Whether the platform claims that `B` and `X` share storage (20_memory.md rule R43). -/
  sharedStorage : Bool
  deriving DecidableEq, Repr

/-- The sizes are inside the bounds of 00_scope.md rules R7 and R8. -/
def Config.sizesOk (c : Config) : Bool :=
  decide (c.bufLen ≤ 2 ^ 28) && decide (c.xferLen ≤ 2 ^ 32 - 1)

/-- A configuration the spec gives a meaning: sizes in bounds, `B` and `X` distinct. -/
def Config.ok (c : Config) : Bool :=
  c.sizesOk && !c.sharedStorage

/-- The instance of `State.reset`: the spec's defaults `LE` and `TRUNCATE` (rules R9, R10), and both memories at
the largest size rules R7 and R8 allow.  DESIGN CHOICE (log entry 1, unsafe): the spec gives the sizes no default. -/
def Config.initial : Config where
  bufLen := 2 ^ 28
  xferLen := 2 ^ 32 - 1
  endian := .little
  topBits := .truncate
  sharedStorage := false

/-- FREE VALUE (log entry 4). Whether the `n`-th reset finds a BUSY command already committed: "`B` and `X` after such a
reset are either exactly as before the command or exactly as after it; which one is not specified"
(70_reset_and_hazards.md rule R161). -/
opaque Config.freeCommitted : Nat → Bool

/-- FREE VALUE (log entry 5). `REQ.CMD` after the `n`-th reset: "the latched `REQ` is unspecified" (10_state.md rule R32). -/
opaque Config.freeCmd : Nat → Word32

/-- FREE VALUE (log entry 5). `REQ.OFFSET` after the `n`-th reset. -/
opaque Config.freeOffset : Nat → Word32

/-- FREE VALUE (log entry 5). `REQ.DATA` after the `n`-th reset. -/
opaque Config.freeData : Nat → Word64

/-- FREE VALUE (log entry 5). `REQ.COUNT` after the `n`-th reset. -/
opaque Config.freeCount : Nat → Word32

/-- FREE VALUE (log entry 5). `REQ.XOFF` after the `n`-th reset. -/
opaque Config.freeXoff : Nat → Word32

end Sys2Proof
end

