-- ==== Sys2Proof/Machine/State.lean ====
section
/-! DEFINITION. The state of one BFC instance and its surroundings, as plain data: everything the summary of
10_state.md lists (phase, REQ, RESP, `B`, `X`, the configuration), the host's pending steps, and three fields of the
model's own (`runFault`, `draws`, `schedule`; INVENTORY.md marks them). -/

namespace Sys2Proof.Machine

/-- A byte-addressed store in canonical form: addresses strictly rising, no entry of value 0; an unlisted address
reads as 0.  It is used twice for each memory of the BFC, see `BitMemory`. -/
abbrev Memory := List Host.Cell

/-- The canonical form of a `Memory`. -/
def Memory.wf : Memory → Bool
  | [] => true
  | (a, v) :: rest => decide (v ≠ 0) && rest.all (fun c => decide (a < c.1)) && Memory.wf rest

/-- One memory of the host (`B` or `X`) with the record of which bits have a value: "a model tracks which bits of `B`
and `X` have a value" (70_reset_and_hazards.md rule R163).  An unlisted address of `known` has no bit with a value;
a bit without a value is stored as 0 in `value`, and no result may depend on it (log entry 2). -/
structure BitMemory where
  /-- The bits' values. -/
  value : Memory
  /-- Bit set: that bit has a value. -/
  known : Memory
  deriving DecidableEq, Repr

/-- The engine's only internal state (10_state.md rule R25). -/
inductive Phase
  | idle
  | busy
  deriving DecidableEq, Repr

/-- The status codes 0 to 4 (60_exceptions.md rule R140). -/
inductive Status
  | ok
  | illegalCommand
  | contractViolation
  | boundsViolation
  | malformedVarint
  deriving DecidableEq, Repr

/-- The response register `RESP` (10_state.md rule R23). -/
structure Response where
  valid : Bool
  status : BitVec 4
  result : Word64
  next : Word32
  deriving DecidableEq, Repr

/-- The reset value of `RESP`: all fields 0 (10_state.md rule R32). -/
def Response.reset : Response where
  valid := false
  status := 0
  result := 0
  next := 0

/-- One pending step of the outside world, or one turn of the engine.  Accesses to `B` and `X` stand for the host and
for any other agent that shares the memory (70_reset_and_hazards.md rule R171; log entry 13). -/
inductive Event
  /-- The host drives the five request fields (10_state.md rule R22). -/
  | present (r : Request)
  /-- START (10_state.md rule R25). -/
  | start
  /-- The engine's turn: COMPLETE when BUSY (10_state.md rule R26), nothing when IDLE (60_exceptions.md rule R155). -/
  | engine
  /-- The host writes byte `a` of `B`. -/
  | writeB (a : Nat) (v : Byte)
  /-- The host writes byte `a` of `X`. -/
  | writeX (a : Nat) (v : Byte)
  /-- The host reads byte `a` of `B`. -/
  | readB (a : Nat)
  /-- The host reads byte `a` of `X`. -/
  | readX (a : Nat)
  /-- The host reads `RESP`, "at any time without side effects" (10_state.md rule R23). -/
  | readResp
  /-- Reset, "an input event of the BFC" (70_reset_and_hazards.md rule R160). -/
  | reset
  deriving DecidableEq, Repr

/-- The machine. -/
structure State where
  /-- The instance's configuration, constant for its whole life (10_state.md rule R29). -/
  cfg : Config
  /-- `phase` (10_state.md rule R25). -/
  phase : Phase
  /-- The request fields as the host drives them, before START latches them (10_state.md rule R22; log entry 9). -/
  presented : Request
  /-- The latched request `REQ` (10_state.md rule R22). -/
  req : Request
  /-- The response register `RESP` (10_state.md rule R23). -/
  resp : Response
  /-- The buffer memory `B` (20_memory.md rule R41). -/
  b : BitMemory
  /-- The partner memory `X` (20_memory.md rule R42). -/
  x : BitMemory
  /-- The model's own: the first programming-error status of the run, "kept for the whole run" (60_exceptions.md rule
  R147; log entry 8).  No step reads it. -/
  runFault : Option Status
  /-- The model's own: how many draws of free values the run has made (log entries 4 and 5). -/
  draws : Nat
  /-- The model's own: the outside world's pending steps and the engine's turns, in order (log entry 6). -/
  schedule : List Event
  deriving DecidableEq, Repr

/-- A step that stops the run with a fault. -/
inductive Fault
  /-- Raised by RDBITS, RDU16, RDU32, RDU64 and RDVAR when the response would depend on a bit of `B` without a value
  (70_reset_and_hazards.md rule R163).  Safe: the hardware goes on with whatever the bit holds. -/
  | readWithoutValue
  /-- Raised by RDBYTES and WRBYTES when the run would copy a bit of `B` or `X` without a value (rule R163).  Safe. -/
  | copyWithoutValue
  /-- Raised by a host access to a byte at or past the end of `B` or `X`, which does not exist (20_memory.md rules R41
  and R42).  Safe. -/
  | noSuchByte
  deriving DecidableEq, Repr

/-- A step outside the model. -/
inductive Refusal
  /-- An instruction without a meaning; no arm of `exec` raises it any more.  Safe. -/
  | notModelled (mnemonic : String)
  /-- Raised by START while BUSY: "not a step the host may take" (10_state.md rule R25, 70_reset_and_hazards.md rule
  R166).  Safe. -/
  | startWhileBusy
  /-- Raised by a host access, while BUSY, to a byte the command may touch: "a model refuses (marks as unmodelled)
  any run in which the host makes such an access" (70_reset_and_hazards.md rule R165).  Safe. -/
  | race
  /-- Raised by every step of an instance whose `BUF_LEN` or `XFER_LEN` is out of bounds (00_scope.md rules R7 and
  R8; "larger buffers are not modelled", 92_eei_decisions.md D15).  Safe. -/
  | sizesOutOfBounds
  /-- Raised by every step of an instance whose platform claims that `B` and `X` share storage: "a model refuses any
  configuration in which the two are claimed to share storage" (20_memory.md rule R43).  Safe. -/
  | sharedStorage
  deriving DecidableEq, Repr

/-- A memory no bit of which has a value (70_reset_and_hazards.md rule R163). -/
def BitMemory.blank : BitMemory where
  value := []
  known := []

/-- The value the model names for a request register at reset, the spec giving none (10_state.md rule R32: "the latched
`REQ` is unspecified and cannot be observed").  DESIGN CHOICE (log entry 3, unsafe). -/
def Request.zero : Request where
  cmd := 0
  offset := 0
  data := 0
  count := 0
  xoff := 0

/-- The instance of configuration `c` right after reset: `phase = IDLE` and `RESP` all zero (10_state.md rule R32), no
bit of `B` or `X` with a value yet (70_reset_and_hazards.md rule R163), nothing pending. -/
def State.resetOf (c : Config) : State where
  cfg := c
  phase := .idle
  presented := Request.zero
  req := Request.zero
  resp := Response.reset
  b := BitMemory.blank
  x := BitMemory.blank
  runFault := none
  draws := 0
  schedule := []

/-- The machine right after reset, in the configuration `Config.initial`. -/
def State.reset : State := State.resetOf Config.initial

end Sys2Proof.Machine
end

