-- ==== Sys2Proof/Machine/Flags.lean ====
section
/-! DEFINITION. The BFC's only status indication is `RESP.STATUS` (10_state.md rule R28): the codes of 60_exceptions.md
rule R140, their classes, and the model's record of programming errors (rule R147).  There are no condition codes. -/

namespace Sys2Proof.Machine

/-- The 4-bit code of a status (60_exceptions.md rule R140). -/
def Status.code : Status → BitVec 4
  | .ok => 0
  | .illegalCommand => 1
  | .contractViolation => 2
  | .boundsViolation => 3
  | .malformedVarint => 4

/-- The class "programming error", codes 1 to 3 (60_exceptions.md rule R140). -/
def Status.isProgrammingError : Status → Bool
  | .ok => false
  | .illegalCommand => true
  | .contractViolation => true
  | .boundsViolation => true
  | .malformedVarint => false

/-- The run's record after a command completes with `st`: the first programming error stays "for the whole run"
(60_exceptions.md rule R147). -/
def recordFault (st : Status) (old : Option Status) : Option Status :=
  match old with
  | some f => some f
  | none => if st.isProgrammingError then some st else none

end Sys2Proof.Machine
end

