-- ==== Sys2Proof/Machine/Ops.lean ====
section
/-! DEFINITION. The named operations the commands share: bytes and bits of the two memories (00_scope.md rules R16 and
R17), byte reversal (rule R18), the response a completing command writes (10_state.md rule R26), and reporting a failure
(`raise`, 00_scope.md rule R19 and 60_exceptions.md rule R146).  The BFC takes no traps and returns from none
(60_exceptions.md rule R149): `raise` is all it has in their place. -/

namespace Sys2Proof.Machine

/-- The byte stored at address `a`; 0 where nothing is listed. -/
def Memory.read : Memory → Nat → Byte
  | [], _ => 0
  | (a, v) :: rest, k => if k = a then v else Memory.read rest k

/-- The store without any entry for address `k`. -/
def Memory.erase (m : Memory) (k : Nat) : Memory := m.filter (fun c => decide (c.1 ≠ k))

/-- The store with the entry `(k, v)` before the first entry of a higher address. -/
def Memory.place : Memory → Nat → Byte → Memory
  | [], k, v => [(k, v)]
  | (a, w) :: rest, k, v => if k < a then (k, v) :: (a, w) :: rest else (a, w) :: Memory.place rest k v

/-- Store `v` at address `k`, keeping the canonical form: what an unlisted address reads as is not listed. -/
def Memory.write (m : Memory) (k : Nat) (v : Byte) : Memory :=
  if v = 0 then m.erase k else (m.erase k).place k v

/-- Bit `j` of a byte (00_scope.md rule R13). -/
def byteBit (v : Byte) (j : Nat) : Bool := v.getLsbD j

/-- A byte with bit `j` set to `b`: `(v AND NOT_8 2^j) OR (b << j)` (00_scope.md rule R17). -/
def putBit (v : Byte) (j : Nat) (b : Bool) : Byte :=
  (v &&& ~~~(BitVec.ofNat 8 (2 ^ j))) ||| BitVec.ofNat 8 (b.toNat <<< j)

/-- What one byte of a memory is: its stored bits and which of them have a value. -/
def BitMemory.byte (m : BitMemory) (a : Nat) : Byte × Byte := (m.value.read a, m.known.read a)

/-- The canonical form of a `BitMemory` of `len` bytes: both stores canonical, no bit at or past the end has a value
(20_memory.md rules R41, R42), and 0 stored for every bit without a value. -/
def BitMemory.wf (len : Nat) (m : BitMemory) : Bool :=
  Memory.wf m.value && Memory.wf m.known && m.known.all (fun c => decide (c.1 < len)) &&
    m.value.all (fun c => decide (c.2 &&& ~~~(m.known.read c.1) = 0))

/-- `Bit(i)`: bit `i mod 8` of byte `i div 8` (00_scope.md rule R17, 20_memory.md rule R41). -/
def BitMemory.bit (m : BitMemory) (i : Nat) : Bool := byteBit (m.value.read (i / 8)) (i % 8)

/-- Whether bit `i` has a value (70_reset_and_hazards.md rule R163). -/
def BitMemory.hasValue (m : BitMemory) (i : Nat) : Bool := byteBit (m.known.read (i / 8)) (i % 8)

/-- `Bit(i) <- b` (00_scope.md rule R17); the bit has a value afterwards. -/
def BitMemory.setBit (m : BitMemory) (i : Nat) (b : Bool) : BitMemory where
  value := m.value.write (i / 8) (putBit (m.value.read (i / 8)) (i % 8) b)
  known := m.known.write (i / 8) (putBit (m.known.read (i / 8)) (i % 8) true)

/-- `MemWrite(a, 1, v)`, `XWrite(a, 1, v)` (00_scope.md rule R16); all eight bits have a value afterwards. -/
def BitMemory.setByte (m : BitMemory) (a : Nat) (v : Byte) : BitMemory where
  value := m.value.write a v
  known := m.known.write a 0xFF

/-- `GetBits(off, w)`: the sum over `k < w` of `Bit(off + k) * 2^k` (00_scope.md rule R17). -/
def BitMemory.getBits (m : BitMemory) (off : Nat) : Nat → Nat
  | 0 => 0
  | k + 1 => m.getBits off k + (m.bit (off + k)).toNat * 2 ^ k

/-- Whether every bit of a field has a value (70_reset_and_hazards.md rule R163). -/
def BitMemory.allValued (m : BitMemory) (off : Nat) : Nat → Bool
  | 0 => true
  | k + 1 => m.allValued off k && m.hasValue (off + k)

/-- `SetBits(off, w, v)`: bit `off + k` gets bit `k` of `v`, every other bit is unchanged (00_scope.md rule R17). -/
def BitMemory.setBits (m : BitMemory) (off : Nat) : Nat → Nat → BitMemory
  | 0, _ => m
  | k + 1, v => (m.setBits off k v).setBit (off + k) (v.testBit k)

/-- `mask(w) = 2^w - 1` (00_scope.md rule R14). -/
def mask (w : Nat) : Nat := 2 ^ w - 1

/-- Reverse the order of the low `n` bytes of `v`. -/
def reverseBytes : Nat → Nat → Nat
  | 0, _ => 0
  | n + 1, v => v % 256 * 256 ^ n + reverseBytes n (v / 256)

/-- `bswap_N(v)` (00_scope.md rule R18; log entry 16): the order of the `N/8` bytes of `v` reversed. -/
def bswap (bits v : Nat) : Nat := reverseBytes (bits / 8) v

/-- `bswap_N` in `BE` mode, nothing in `LE` mode (20_memory.md rule R46). -/
def reorder (e : Endian) (bits v : Nat) : Nat :=
  match e with
  | .little => v
  | .big => bswap bits v

/-- The response fields and the phase COMPLETE writes (10_state.md rule R26), and the run's record of programming errors
(60_exceptions.md rule R147).  `result` and `next` are zero-extended or cut to their fields' widths. -/
def State.respond (s : State) (st : Status) (result next : Nat) : State :=
  { s with
    phase := .idle
    resp :=
      { valid := true, status := st.code, result := BitVec.ofNat 64 result, next := BitVec.ofNat 32 next }
    runFault := recordFault st s.runFault }

/-- The state with another buffer memory. -/
def State.withB (s : State) (m : BitMemory) : State := { s with b := m }

/-- The state with another partner memory. -/
def State.withX (s : State) (m : BitMemory) : State := { s with x := m }

/-- `raise <Status>` (00_scope.md rule R19): the command ends with that status, RESULT and NEXT 0, and no memory change
(60_exceptions.md rule R146). -/
def raise (st : Status) (s : State) : Host.Outcome State Fault Refusal :=
  .next (s.respond st 0 0)

/-- START's effect: the presented fields are latched, `RESP.VALID` is cleared, the other response fields keep their
values, and the engine is BUSY (10_state.md rule R25). -/
def State.latch (s : State) (r : Request) : State :=
  { s with req := r, resp := { s.resp with valid := false }, phase := .busy }

/-- The request register after a reset, "unspecified" (10_state.md rule R32): a free value (log entry 5). -/
def freeRequest (n : Nat) : Request where
  cmd := Config.freeCmd n
  offset := Config.freeOffset n
  data := Config.freeData n
  count := Config.freeCount n
  xoff := Config.freeXoff n

/-- Reset's effect on the interface (70_reset_and_hazards.md rule R160): `phase` IDLE, `RESP` all zero, the latched `REQ`
unspecified.  The memories are the caller's business (rules R160 and R161). -/
def State.resetInterface (s : State) : State :=
  { s with phase := .idle, resp := Response.reset, req := freeRequest s.draws, draws := s.draws + 1 }

end Sys2Proof.Machine
end

