-- ==== Sys2Proof/Machine/Operands.lean ====
section
/-! DEFINITION. The operands of a command, read from the latched request: unsigned numbers, never sign-extended, scaled or
shifted (30_encoding.md rule R62), and the bounds conditions over them (60_exceptions.md rule R143). -/

namespace Sys2Proof.Machine

/-- `o = REQ.OFFSET`: a bit offset into `B`, for the varint commands a byte offset (30_encoding.md rule R64). -/
def State.offset (s : State) : Nat := s.req.offset.toNat

/-- `n = REQ.COUNT`: the bytes of a byte run (30_encoding.md rule R64). -/
def State.count (s : State) : Nat := s.req.count.toNat

/-- `x = REQ.XOFF`: a byte offset into `X` (30_encoding.md rule R64). -/
def State.xoff (s : State) : Nat := s.req.xoff.toNat

/-- `REQ.DATA[bits-1:0]`; the other bits of DATA are ignored (30_encoding.md rule R62). -/
def State.data (s : State) (bits : Nat) : Nat := s.req.data.toNat % 2 ^ bits

/-- `o + w > 8 * BUF_LEN`: the field passes the end of `B` (60_exceptions.md rule R143; exact arithmetic, 00_scope.md rule
R12). -/
def State.fieldPastEnd (s : State) (w : Nat) : Bool := decide (8 * s.cfg.bufLen < s.offset + w)

/-- `o + 8*n > 8 * BUF_LEN or x + n > XFER_LEN`: the run passes the end of `B` or of `X` (60_exceptions.md rule R143). -/
def State.runPastEnd (s : State) : Bool :=
  decide (8 * s.cfg.bufLen < s.offset + 8 * s.count) || decide (s.cfg.xferLen < s.xoff + s.count)

end Sys2Proof.Machine
end

