-- ==== Sys2Proof/Machine/BitPacking.lean ====
section
/-! DEFINITION. Group 1, byte-level bit packing: RDBITS and WRBITS (40_bit_packing.md). -/

namespace Sys2Proof.Machine

/-- RDBITS (40_bit_packing.md rule R80).  The value check of 70_reset_and_hazards.md rule R163 comes last: no check before
it reads a bit of `B`. -/
def execRdbits (w : Nat) (s : State) : Host.Outcome State Fault Refusal :=
  if w < 1 ∨ 8 < w then raise .contractViolation s
  else if s.fieldPastEnd w then raise .boundsViolation s
  else if s.b.allValued s.offset w then .next (s.respond .ok (s.b.getBits s.offset w) 0)
  else .fault .readWithoutValue

/-- WRBITS (40_bit_packing.md rule R81).  A width of 0 is a no-op without a bounds check. -/
def execWrbits (w : Nat) (s : State) : Host.Outcome State Fault Refusal :=
  if 8 < w then raise .contractViolation s
  else if w = 0 then .next (s.respond .ok 0 0)
  else if s.fieldPastEnd w then raise .boundsViolation s
  else .next ((s.withB (s.b.setBits s.offset w (s.data 8 &&& mask w))).respond .ok 0 0)

end Sys2Proof.Machine
end

