-- ==== Sys2Proof/Machine/ByteRun.lean ====
section
/-! DEFINITION. Group 2, byte-run transfer: RDBYTES and WRBYTES (41_byte_run.md). -/

namespace Sys2Proof.Machine

/-- The first `n` bytes of a run out of `b`: `X[x + i]` gets `GetBits(o + 8*i, 8)` (41_byte_run.md rule R90). -/
def copyOut (b : BitMemory) (o x : Nat) : Nat → BitMemory → BitMemory
  | 0, dst => dst
  | i + 1, dst => (copyOut b o x i dst).setByte (x + i) (BitVec.ofNat 8 (b.getBits (o + 8 * i) 8))

/-- The first `n` bytes of a run into the buffer: bits `o + 8*i` up get `X[x + i]` (41_byte_run.md rule R91). -/
def copyIn (src : BitMemory) (o x : Nat) : Nat → BitMemory → BitMemory
  | 0, dst => dst
  | i + 1, dst => (copyIn src o x i dst).setBits (o + 8 * i) 8 (src.value.read (x + i)).toNat

/-- RDBYTES (41_byte_run.md rule R90). -/
def execRdbytes (s : State) : Host.Outcome State Fault Refusal :=
  if s.count = 0 then .next (s.respond .ok 0 0)
  else if s.runPastEnd then raise .boundsViolation s
  else if s.b.allValued s.offset (8 * s.count) then
    .next ((s.withX (copyOut s.b s.offset s.xoff s.count s.x)).respond .ok 0 0)
  else .fault .copyWithoutValue

/-- WRBYTES (41_byte_run.md rule R91).  The bits copied are those of `X[x]` to `X[x + n - 1]`, bit addresses `8*x` up. -/
def execWrbytes (s : State) : Host.Outcome State Fault Refusal :=
  if s.count = 0 then .next (s.respond .ok 0 0)
  else if s.runPastEnd then raise .boundsViolation s
  else if s.x.allValued (8 * s.xoff) (8 * s.count) then
    .next ((s.withB (copyIn s.x s.offset s.xoff s.count s.b)).respond .ok 0 0)
  else .fault .copyWithoutValue

end Sys2Proof.Machine
end

