-- ==== Sys2Proof/Machine/Varint.lean ====
section
/-! DEFINITION. Group 4, the variable-length integer codec: WRVAR and RDVAR (43_varint.md).  Both address `B` by byte and
ignore `ENDIAN` (20_memory.md rules R46, R47, R50). -/

namespace Sys2Proof.Machine

/-- `VarLen(v)` for a 32-bit `v` (43_varint.md rule R123). -/
def varLen (v : Nat) : Nat :=
  if v < 2 ^ 7 then 1 else if v < 2 ^ 14 then 2 else if v < 2 ^ 21 then 3 else if v < 2 ^ 28 then 4 else 5

/-- The bytes WRVAR's loop writes, lowest address first (43_varint.md rule R121), with at most `fuel + 1` bytes: a 32-bit
value needs no more than 5 (rule R120). -/
def varBytes : Nat → Nat → List Byte
  | 0, v => [BitVec.ofNat 8 v]
  | fuel + 1, v =>
    if 0x80 ≤ v then BitVec.ofNat 8 ((v &&& 0x7F) ||| 0x80) :: varBytes fuel (v >>> 7) else [BitVec.ofNat 8 v]

/-- Write a list of bytes at consecutive byte addresses from `o` upward. -/
def writeBytes (m : BitMemory) (o : Nat) : List Byte → BitMemory
  | [] => m
  | v :: rest => writeBytes (m.setByte o v) (o + 1) rest

/-- WRVAR (43_varint.md rule R121): the bound is checked before any byte is written; NEXT is the byte count. -/
def execWrvar (s : State) : Host.Outcome State Fault Refusal :=
  if s.cfg.bufLen < s.offset + varLen (s.data 32) then raise .boundsViolation s
  else
    .next
      ((s.withB (writeBytes s.b s.offset (varBytes 4 (s.data 32)))).respond .ok 0 (varBytes 4 (s.data 32)).length)

/-- What decoding a varint comes to. -/
inductive VarResult
  | done (v : Nat) (consumed : Nat)
  | malformed
  | bounds
  /-- The result depends on a bit without a value (70_reset_and_hazards.md rule R163). -/
  | noValue
  deriving DecidableEq, Repr

/-- The payload bits of byte `i` that reach the value: all seven, and of the fifth byte only those below value bit 32
(43_varint.md rule R122: "bits of g above value bit 31 are dropped"). -/
def payloadBits (i : Nat) : Byte := if i = 4 then 0x0F else 0x7F

/-- The loop of 43_varint.md rule R122 from byte `i` on, with `fuel` bytes left of the five (`shift = 7 * i`, and
`shift >= 35` is `fuel = 0`), the value `v` so far, and whether every payload bit that reached it has a value.  A bit without
a value matters only where the outcome depends on it: bit 7 decides whether the stream goes on; under REJECT bits 4 to 6
of the fifth byte decide MALFORMED_VARINT unless another bit has already decided it; payload bits matter only to a result
that is delivered (log entry 10). -/
def readVarint (c : Config) (m : BitMemory) (o : Nat) : (fuel i v : Nat) → (valued : Bool) → VarResult
  | 0, _, _, _ => .malformed
  | fuel + 1, i, v, valued =>
    if c.bufLen ≤ o + i then .bounds
    else if i = 4 ∧ c.topBits = .reject ∧ (m.value.read (o + i) &&& m.known.read (o + i)) &&& 0x70 ≠ 0 then .malformed
    else if ¬ byteBit (m.known.read (o + i)) 7 then .noValue
    else if byteBit (m.value.read (o + i)) 7 then
      readVarint c m o fuel (i + 1) ((v ||| ((m.value.read (o + i) &&& 0x7F).toNat <<< (7 * i))) % 2 ^ 32)
        (valued && decide (m.known.read (o + i) &&& payloadBits i = payloadBits i))
    else if i = 4 ∧ c.topBits = .reject ∧ m.known.read (o + i) &&& 0x70 ≠ 0x70 then .noValue
    else if valued && decide (m.known.read (o + i) &&& payloadBits i = payloadBits i) then
      .done ((v ||| ((m.value.read (o + i) &&& 0x7F).toNat <<< (7 * i))) % 2 ^ 32) (i + 1)
    else .noValue

/-- RDVAR (43_varint.md rule R122). -/
def execRdvar (s : State) : Host.Outcome State Fault Refusal :=
  match readVarint s.cfg s.b s.offset 5 0 0 true with
  | .done v consumed => .next (s.respond .ok v (s.offset + consumed))
  | .malformed => raise .malformedVarint s
  | .bounds => raise .boundsViolation s
  | .noValue => .fault .readWithoutValue

end Sys2Proof.Machine
end

