-- ==== Sys2Proof/Machine/WideInt.lean ====
section
/-! DEFINITION. Group 3, wide fixed-width integers: RDU16, RDU32, RDU64, WRU16, WRU32, WRU64 (42_wide_integer.md). -/

namespace Sys2Proof.Machine

/-- The first `j` chunks of a wide read: 8 bits each, the last may be shorter, assembled low chunk first
(42_wide_integer.md rule R100). -/
def readChunks (m : BitMemory) (o w : Nat) : Nat → Nat
  | 0 => 0
  | j + 1 => readChunks m o w j ||| (m.getBits (o + 8 * j) (min 8 (w - 8 * j)) <<< (8 * j))

/-- The first `j` chunks of a wide write, "increasing significance" (42_wide_integer.md rule R104). -/
def writeChunks (m : BitMemory) (o w v : Nat) : Nat → BitMemory
  | 0 => m
  | j + 1 =>
    (writeChunks m o w v j).setBits (o + 8 * j) (min 8 (w - 8 * j)) ((v >>> (8 * j)) &&& mask (min 8 (w - 8 * j)))

/-- `WideRead(N)` (42_wide_integer.md rule R100). -/
def wideRead (bits w : Nat) (s : State) : Host.Outcome State Fault Refusal :=
  if w < 1 ∨ bits < w then raise .contractViolation s
  else if s.fieldPastEnd w then raise .boundsViolation s
  else if s.b.allValued s.offset w then
    .next (s.respond .ok (reorder s.cfg.endian bits (readChunks s.b s.offset w ((w + 7) / 8))) 0)
  else .fault .readWithoutValue

/-- `WideWrite(N)` (42_wide_integer.md rule R104).  A width of 0 is a no-op without a bounds check that returns
`NEXT = OFFSET`. -/
def wideWrite (bits w : Nat) (s : State) : Host.Outcome State Fault Refusal :=
  if bits < w then raise .contractViolation s
  else if w = 0 then .next (s.respond .ok 0 s.offset)
  else if s.fieldPastEnd w then raise .boundsViolation s
  else
    .next
      ((s.withB (writeChunks s.b s.offset w (reorder s.cfg.endian bits (s.data bits)) ((w + 7) / 8))).respond .ok 0
        (s.offset + w))

/-- RDU16 (42_wide_integer.md rule R101). -/
def execRdu16 (w : Nat) (s : State) : Host.Outcome State Fault Refusal := wideRead 16 w s

/-- RDU32 (42_wide_integer.md rule R102). -/
def execRdu32 (w : Nat) (s : State) : Host.Outcome State Fault Refusal := wideRead 32 w s

/-- RDU64 (42_wide_integer.md rule R103). -/
def execRdu64 (w : Nat) (s : State) : Host.Outcome State Fault Refusal := wideRead 64 w s

/-- WRU16 (42_wide_integer.md rule R105). -/
def execWru16 (w : Nat) (s : State) : Host.Outcome State Fault Refusal := wideWrite 16 w s

/-- WRU32 (42_wide_integer.md rule R106). -/
def execWru32 (w : Nat) (s : State) : Host.Outcome State Fault Refusal := wideWrite 32 w s

/-- WRU64 (42_wide_integer.md rule R107). -/
def execWru64 (w : Nat) (s : State) : Host.Outcome State Fault Refusal := wideWrite 64 w s

end Sys2Proof.Machine
end

