-- ==== Sys2Proof/Machine/Dispatch.lean ====
section
/-! DEFINITION. One arm for each command: COMPLETE of a decoded command (10_state.md rules R26 and R27). -/

namespace Sys2Proof.Machine

def exec (i : Instr) (s : State) : Host.Outcome State Fault Refusal :=
  match i with
  | .rdbits w => Sys2Proof.Machine.execRdbits w s
  | .wrbits w => Sys2Proof.Machine.execWrbits w s
  | .rdbytes => Sys2Proof.Machine.execRdbytes s
  | .wrbytes => Sys2Proof.Machine.execWrbytes s
  | .rdu16 w => Sys2Proof.Machine.execRdu16 w s
  | .rdu32 w => Sys2Proof.Machine.execRdu32 w s
  | .rdu64 w => Sys2Proof.Machine.execRdu64 w s
  | .wru16 w => Sys2Proof.Machine.execWru16 w s
  | .wru32 w => Sys2Proof.Machine.execWru32 w s
  | .wru64 w => Sys2Proof.Machine.execWru64 w s
  | .wrvar => Sys2Proof.Machine.execWrvar s
  | .rdvar => Sys2Proof.Machine.execRdvar s

end Sys2Proof.Machine
end

