-- ==== Sys2Proof/Machine/Engine.lean ====
section
/-! DEFINITION. The engine: COMPLETE (10_state.md rule R26) and what the engine does with a turn. -/

namespace Sys2Proof.Machine

/-- COMPLETE (10_state.md rules R26 and R27): decode the latched command word and execute the command it selects; a word
that is no command completes with ILLEGAL_COMMAND (30_encoding.md rule R69, 60_exceptions.md rule R141). -/
def complete (s : State) : Host.Outcome State Fault Refusal :=
  match decode s.req.cmd with
  | .command i => exec i s
  | .illegal _ => raise .illegalCommand s

/-- The engine's turn: COMPLETE when BUSY; "an IDLE BFC performs no step and holds its response" (60_exceptions.md rule
R155). -/
def engineTurn (s : State) : Host.Outcome State Fault Refusal :=
  match s.phase with
  | .idle => .next s
  | .busy => complete s

end Sys2Proof.Machine
end

