-- ==== Sys2Proof/Machine/Footprint.lean ====
section
/-! DEFINITION. The bytes a command may read and write, "computed from the request alone" (20_memory.md rule R51,
70_reset_and_hazards.md rule R165), for the race rule and for the statements about what a command leaves unchanged. -/

namespace Sys2Proof.Machine

/-- `len` consecutive byte addresses from `lo` up. -/
structure Span where
  lo : Nat
  len : Nat
  deriving DecidableEq, Repr

/-- No byte at all. -/
def Span.empty : Span where
  lo := 0
  len := 0

/-- Whether a byte address lies in the span. -/
def Span.has (p : Span) (a : Nat) : Bool := decide (p.lo ≤ a) && decide (a < p.lo + p.len)

/-- The bytes of `B` and `X` a command may read and write. -/
structure Touch where
  readB : Span
  writeB : Span
  readX : Span
  writeX : Span
  deriving DecidableEq, Repr

/-- A command that touches no byte. -/
def Touch.nothing : Touch where
  readB := Span.empty
  writeB := Span.empty
  readX := Span.empty
  writeX := Span.empty

/-- `Footprint(off, w)`: the bytes `off div 8` to `(off + w - 1) div 8`, none if `w = 0` (00_scope.md rule R17). -/
def fieldSpan (off w : Nat) : Span where
  lo := off / 8
  len := if w = 0 then 0 else (off + w - 1) / 8 + 1 - off / 8

/-- The footprint of a fixed-width read of 1 to `limit` bits; nothing where a check fails before any byte is read
(60_exceptions.md rule R146; log entry 11). -/
def readTouch (limit w : Nat) (s : State) : Touch :=
  if w < 1 ∨ limit < w ∨ s.fieldPastEnd w then Touch.nothing
  else { Touch.nothing with readB := fieldSpan s.offset w }

/-- The footprint of a fixed-width write of 0 to `limit` bits. -/
def writeTouch (limit w : Nat) (s : State) : Touch :=
  if limit < w ∨ s.fieldPastEnd w then Touch.nothing
  else { Touch.nothing with readB := fieldSpan s.offset w, writeB := fieldSpan s.offset w }

/-- The footprint table of 20_memory.md rule R51, with rule R165's bytes `o` to `min(o + 4, BUF_LEN - 1)` for RDVAR. -/
def touch (i : Instr) (s : State) : Touch :=
  match i with
  | .rdbits w => readTouch 8 w s
  | .rdu16 w => readTouch 16 w s
  | .rdu32 w => readTouch 32 w s
  | .rdu64 w => readTouch 64 w s
  | .wrbits w => writeTouch 8 w s
  | .wru16 w => writeTouch 16 w s
  | .wru32 w => writeTouch 32 w s
  | .wru64 w => writeTouch 64 w s
  | .rdbytes =>
    if s.runPastEnd then Touch.nothing
    else
      { Touch.nothing with
        readB := fieldSpan s.offset (8 * s.count), writeX := { lo := s.xoff, len := s.count } }
  | .wrbytes =>
    if s.runPastEnd then Touch.nothing
    else
      { Touch.nothing with
        readX := { lo := s.xoff, len := s.count }
        readB := fieldSpan s.offset (8 * s.count)
        writeB := fieldSpan s.offset (8 * s.count) }
  | .wrvar =>
    if s.cfg.bufLen < s.offset + varLen (s.data 32) then Touch.nothing
    else { Touch.nothing with writeB := { lo := s.offset, len := varLen (s.data 32) } }
  | .rdvar => { Touch.nothing with readB := { lo := s.offset, len := min 5 (s.cfg.bufLen - s.offset) } }

/-- What the latched command may touch; an illegal word touches nothing (60_exceptions.md rule R146). -/
def latchedTouch (s : State) : Touch :=
  match decode s.req.cmd with
  | .command i => touch i s
  | .illegal _ => Touch.nothing

/-- While BUSY, the host must not write byte `a` of `B` (70_reset_and_hazards.md rule R165). -/
def racesWriteB (s : State) (a : Nat) : Bool :=
  decide (s.phase = .busy) && ((latchedTouch s).readB.has a || (latchedTouch s).writeB.has a)

/-- While BUSY, the host must not write byte `a` of `X` (rule R165). -/
def racesWriteX (s : State) (a : Nat) : Bool :=
  decide (s.phase = .busy) && ((latchedTouch s).readX.has a || (latchedTouch s).writeX.has a)

/-- While BUSY, the host must not read byte `a` of `B` (rule R165). -/
def racesReadB (s : State) (a : Nat) : Bool :=
  decide (s.phase = .busy) && (latchedTouch s).writeB.has a

/-- While BUSY, the host must not read byte `a` of `X` (rule R165). -/
def racesReadX (s : State) (a : Nat) : Bool :=
  decide (s.phase = .busy) && (latchedTouch s).writeX.has a

end Sys2Proof.Machine
end

