-- ==== Sys2Proof/Machine/Events.lean ====
section
/-! DEFINITION. The steps of the outside world: driving the request fields, START, accesses to `B` and `X`, and reset. -/

namespace Sys2Proof.Machine

/-- START, "enabled only when `phase = IDLE`" (10_state.md rule R25); while BUSY it is not a step the host may take
(70_reset_and_hazards.md rule R166). -/
def startEvent (s : State) : Host.Outcome State Fault Refusal :=
  match s.phase with
  | .idle => .next (s.latch s.presented)
  | .busy => .refused .startWhileBusy

/-- A host access to byte `a` of a memory of `len` bytes, which `races` or leads to `t` (log entry 12). -/
def accessEvent (len a : Nat) (races : Bool) (t : State) : Host.Outcome State Fault Refusal :=
  if len ≤ a then .fault .noSuchByte else if races then .refused .race else .next t

/-- Reset of a BUSY engine that finds the command committed with outcome `o`: the memories are those after the command, the
response is the reset response.  A command that faults because a result depends on a bit without a value has the same
memories before and after; one that would copy such a bit has no memory "after" that the model can give, and the fault
stays (log entry 4).  The spec does not say whether a command found committed with a programming-error status is recorded as a
fault of the run; the model does not record it, since its response was never given (DESIGN CHOICE, log entry 18, unsafe). -/
def resetCommitted (s : State) (o : Host.Outcome State Fault Refusal) : Host.Outcome State Fault Refusal :=
  match o with
  | .next t => .next ((s.withB t.b).withX t.x).resetInterface
  | .fault .copyWithoutValue => .fault .copyWithoutValue
  | .fault .readWithoutValue => .next s.resetInterface
  | .fault .noSuchByte => .fault .noSuchByte
  | .refused r => .refused r

/-- Reset (70_reset_and_hazards.md rules R160 and R161).  While BUSY the command is abandoned, and a draw decides whether
`B` and `X` are as before it or as after it (log entry 4). -/
def resetEvent (s : State) : Host.Outcome State Fault Refusal :=
  match s.phase with
  | .idle => .next s.resetInterface
  | .busy =>
    if Config.freeCommitted s.draws then resetCommitted s (complete s) else .next s.resetInterface

/-- One event (10_state.md rules R22 to R26, 70_reset_and_hazards.md rules R160, R165, R166). -/
def perform (e : Event) (s : State) : Host.Outcome State Fault Refusal :=
  match e with
  | .present r => .next { s with presented := r }
  | .start => startEvent s
  | .engine => engineTurn s
  | .writeB a v => accessEvent s.cfg.bufLen a (racesWriteB s a) (s.withB (s.b.setByte a v))
  | .writeX a v => accessEvent s.cfg.xferLen a (racesWriteX s a) (s.withX (s.x.setByte a v))
  | .readB a => accessEvent s.cfg.bufLen a (racesReadB s a) s
  | .readX a => accessEvent s.cfg.xferLen a (racesReadX s a) s
  | .readResp => .next s
  | .reset => resetEvent s

/-- Who moves next: the first pending event, and the engine when nothing is pending ("weak fairness of the engine's
COMPLETE step", 70_reset_and_hazards.md rule R170; log entries 6 and 14). -/
def turn (s : State) : Host.Outcome State Fault Refusal :=
  match s.schedule with
  | [] => engineTurn s
  | e :: rest => perform e { s with schedule := rest }

/-- The request a table word of `nbits` bits stands for: the word in CMD, every other field 0. -/
def tableRequest (nbits w : Nat) : Request := { Request.zero with cmd := BitVec.ofNat 32 (w % 2 ^ nbits) }

end Sys2Proof.Machine
end

