-- ==== Sys2Proof/Machine/Step.lean ====
section
/-! DEFINITION. One step of the machine.  An instance outside the spec's parameters takes no step. -/

namespace Sys2Proof.Machine

/-- One step: the configuration is checked (00_scope.md rules R7 and R8, 20_memory.md rule R43), then the next event or
the engine moves (log entry 15). -/
def step (s : State) : Host.Outcome State Fault Refusal :=
  if ¬ s.cfg.sizesOk then .refused .sizesOutOfBounds
  else if s.cfg.sharedStorage then .refused .sharedStorage
  else turn s

/-- The BFC fetches nothing (10_state.md rule R21): a command arrives through START.  This is the state right after a
START of the table word, with the engine's turn next, so that the very next step completes exactly that command (log entry 7). -/
def State.withFetchWord (s : State) (nbits w : Nat) : State :=
  { s.latch (tableRequest nbits w) with schedule := .engine :: s.schedule }

end Sys2Proof.Machine
end

