-- ==== Sys2Proof/Machine/Assembler.lean ====
section
/-! DEFINITION. The assembler forms of 30_encoding.md rule R70 and the pseudo-commands of rule R71, each one request. -/

namespace Sys2Proof.Machine

/-- A request of a command: its word in CMD, the other fields as named (30_encoding.md rule R70). -/
def request (i : Instr) (off d n x : Nat) : Request where
  cmd := encode i
  offset := BitVec.ofNat 32 off
  data := BitVec.ofNat 64 d
  count := BitVec.ofNat 32 n
  xoff := BitVec.ofNat 32 x

/-- `RDBITS w, off` -/
def asmRdbits (w off : Nat) : Request := request (.rdbits w) off 0 0 0
/-- `WRBITS w, off, d` -/
def asmWrbits (w off d : Nat) : Request := request (.wrbits w) off d 0 0
/-- `RDBYTES off, n, x` -/
def asmRdbytes (off n x : Nat) : Request := request .rdbytes off 0 n x
/-- `WRBYTES off, n, x` -/
def asmWrbytes (off n x : Nat) : Request := request .wrbytes off 0 n x
/-- `RDU16 w, off` -/
def asmRdu16 (w off : Nat) : Request := request (.rdu16 w) off 0 0 0
/-- `RDU32 w, off` -/
def asmRdu32 (w off : Nat) : Request := request (.rdu32 w) off 0 0 0
/-- `RDU64 w, off` -/
def asmRdu64 (w off : Nat) : Request := request (.rdu64 w) off 0 0 0
/-- `WRU16 w, off, d` -/
def asmWru16 (w off d : Nat) : Request := request (.wru16 w) off d 0 0
/-- `WRU32 w, off, d` -/
def asmWru32 (w off d : Nat) : Request := request (.wru32 w) off d 0 0
/-- `WRU64 w, off, d` -/
def asmWru64 (w off d : Nat) : Request := request (.wru64 w) off d 0 0
/-- `WRVAR off, d` -/
def asmWrvar (off d : Nat) : Request := request .wrvar off d 0 0
/-- `RDVAR off` -/
def asmRdvar (off : Nat) : Request := request .rdvar off 0 0 0

/-- `WRBOOL off, b` is `WRBITS 1, off, (1 if b is true else 0)` (30_encoding.md rule R71, 00_scope.md rule R6). -/
def asmWrbool (off : Nat) (b : Bool) : Request := asmWrbits 1 off (if b then 1 else 0)
/-- `RDBOOL off` is `RDBITS 1, off` (30_encoding.md rule R71). -/
def asmRdbool (off : Nat) : Request := asmRdbits 1 off
/-- `WRBYTE off, d` is `WRBITS 8, off, d` (30_encoding.md rule R71). -/
def asmWrbyte (off d : Nat) : Request := asmWrbits 8 off d
/-- `RDBYTE off` is `RDBITS 8, off` (30_encoding.md rule R71). -/
def asmRdbyte (off : Nat) : Request := asmRdbits 8 off

end Sys2Proof.Machine
end

