-- ==== Sys2Proof/Machine/Datapath.lean ====
section
/-! DEFINITION. The datapaths the spec gives beside the commands' definitions: one shift and at most two masked byte merges
(40_bit_packing.md rule R82), the bulk and per-byte paths of a byte run (41_byte_run.md rule R92), and the closed form of
a varint byte (43_varint.md rule R120).  No command calls them: "the result must equal" the commands' own rules, and the
statements say that it does. -/

namespace Sys2Proof.Machine

/-- The low `w` bits set, as a byte. -/
def byteMask (w : Nat) : Byte := BitVec.ofNat 8 (mask w)

/-- "Read (1 <= w <= 8)" of 40_bit_packing.md rule R82. -/
def datapathRead (m : Memory) (o w : Nat) : Byte :=
  if o % 8 + w ≤ 8 then (m.read (o / 8) >>> (o % 8)) &&& byteMask w
  else
    (m.read (o / 8) >>> (o % 8)) |||
      ((m.read (o / 8 + 1) &&& byteMask (w - (8 - o % 8))) <<< (8 - o % 8))

/-- "Write (1 <= w <= 8)" of 40_bit_packing.md rule R82, with `v = s AND mask(w)`. -/
def datapathWrite (m : Memory) (o w : Nat) (v : Byte) : Memory :=
  if o % 8 + w ≤ 8 then
    m.write (o / 8)
      ((m.read (o / 8) &&& (byteMask (o % 8) ||| (0xFF &&& ~~~byteMask (o % 8 + w)))) ||| (v <<< (o % 8)))
  else
    (m.write (o / 8) ((m.read (o / 8) &&& byteMask (o % 8)) ||| ((v <<< (o % 8)) &&& 0xFF))).write (o / 8 + 1)
      ((m.read (o / 8 + 1) &&& (0xFF &&& ~~~byteMask (w - (8 - o % 8)))) ||| (v >>> (8 - o % 8)))

/-- Byte `i` of an RDBYTES run: the bulk path when `o mod 8 = 0`, else the fixed shift (41_byte_run.md rule R92). -/
def datapathRunByte (m : Memory) (o i : Nat) : Byte :=
  if o % 8 = 0 then m.read (o / 8 + i)
  else
    (m.read (o / 8 + i) >>> (o % 8)) ||| ((m.read (o / 8 + i + 1) &&& byteMask (o % 8)) <<< (8 - o % 8))

/-- The first `n` bytes of a WRBYTES run from offset `x` of `src` (41_byte_run.md rule R92). -/
def datapathRunWrite (src : Memory) (o x : Nat) : Nat → Memory → Memory
  | 0, m => m
  | i + 1, m =>
    let d := datapathRunWrite src o x i m
    if o % 8 = 0 then d.write (o / 8 + i) (src.read (x + i))
    else
      (d.write (o / 8 + i)
          ((d.read (o / 8 + i) &&& byteMask (o % 8)) ||| ((src.read (x + i) <<< (o % 8)) &&& 0xFF))).write
        (o / 8 + i + 1)
        ((d.read (o / 8 + i + 1) &&& (0xFF &&& ~~~byteMask (o % 8))) ||| (src.read (x + i) >>> (8 - o % 8)))

/-- `E(v)[i]` for a varint of `len` bytes (43_varint.md rule R120). -/
def varByte (len v i : Nat) : Byte :=
  BitVec.ofNat 8 ((if i < len - 1 then 0x80 else 0x00) ||| ((v >>> (7 * i)) &&& 0x7F))

end Sys2Proof.Machine
end

