-- ==== Sys2Proof/Safety.lean ====
section
/-! DEFINITION. What statements about the machine are made of: the invariant every step keeps, a run without a recorded
fault, and the spec's tables of width ranges and bounds written out for all commands. -/

namespace Sys2Proof.Machine

/-- What every step keeps.  Each field cites its rule. -/
structure State.Inv (s : State) : Prop where
  /-- The configuration is one the spec gives a meaning (00_scope.md rules R7 and R8, 20_memory.md rule R43). -/
  config : s.cfg.ok = true
  /-- `B` is in canonical form and has `BUF_LEN` bytes (20_memory.md rule R41). -/
  buffer : s.b.wf s.cfg.bufLen = true
  /-- `X` is in canonical form and has `XFER_LEN` bytes (20_memory.md rule R42). -/
  partner : s.x.wf s.cfg.xferLen = true
  /-- Status codes "5 to 15 are reserved and never written" (60_exceptions.md rule R140). -/
  statusKnown : s.resp.status.toNat ≤ 4
  /-- A status other than OK comes with RESULT 0 and NEXT 0 (60_exceptions.md rule R146). -/
  failureBlank : s.resp.status ≠ 0 → s.resp.result = 0 ∧ s.resp.next = 0
  /-- No response is valid while a command runs (10_state.md rules R25 and R26). -/
  busyNotValid : s.phase = .busy → s.resp.valid = false
  /-- An IDLE engine without a valid response was reset and has had no command since (10_state.md rule R32). -/
  idleNotValid : s.phase = .idle → s.resp.valid = false → s.resp = Response.reset
  /-- Only codes 1 to 3 are recorded as faults of the run (60_exceptions.md rule R147). -/
  runFaultKind : ∀ f, s.runFault = some f → f.isProgrammingError = true

/-- A run whose commands have reported no programming error so far (60_exceptions.md rule R147). -/
def State.FaultFree (s : State) : Prop := s.runFault = none

/-- The legal widths of the commands that have one (60_exceptions.md rule R142). -/
def widthRange : Instr → Option (Nat × Nat)
  | .rdbits _ => some (1, 8)
  | .wrbits _ => some (0, 8)
  | .rdu16 _ => some (1, 16)
  | .rdu32 _ => some (1, 32)
  | .rdu64 _ => some (1, 64)
  | .wru16 _ => some (0, 16)
  | .wru32 _ => some (0, 32)
  | .wru64 _ => some (0, 64)
  | .rdbytes => none
  | .wrbytes => none
  | .wrvar => none
  | .rdvar => none

/-- The width of a command is outside its range (60_exceptions.md rule R142). -/
def widthIllegal (i : Instr) : Prop :=
  ∃ lo hi, widthRange i = some (lo, hi) ∧ (i.nbitsField < lo ∨ hi < i.nbitsField)

/-- "violation when" of 60_exceptions.md rule R143, for every command but RDVAR, whose check is byte by byte. -/
def boundsIllegal (i : Instr) (s : State) : Prop :=
  match i with
  | .rdbits w => 8 * s.cfg.bufLen < s.offset + w
  | .rdu16 w => 8 * s.cfg.bufLen < s.offset + w
  | .rdu32 w => 8 * s.cfg.bufLen < s.offset + w
  | .rdu64 w => 8 * s.cfg.bufLen < s.offset + w
  | .wrbits w => 1 ≤ w ∧ 8 * s.cfg.bufLen < s.offset + w
  | .wru16 w => 1 ≤ w ∧ 8 * s.cfg.bufLen < s.offset + w
  | .wru32 w => 1 ≤ w ∧ 8 * s.cfg.bufLen < s.offset + w
  | .wru64 w => 1 ≤ w ∧ 8 * s.cfg.bufLen < s.offset + w
  | .rdbytes => 1 ≤ s.count ∧ (8 * s.cfg.bufLen < s.offset + 8 * s.count ∨ s.cfg.xferLen < s.xoff + s.count)
  | .wrbytes => 1 ≤ s.count ∧ (8 * s.cfg.bufLen < s.offset + 8 * s.count ∨ s.cfg.xferLen < s.xoff + s.count)
  | .wrvar => s.cfg.bufLen < s.offset + varLen (s.data 32)
  | .rdvar => False

/-- The wide-integer commands of one width: the type width `N`, RDU`N` and WRU`N` (30_encoding.md rule R63). -/
def wideCommands (w : Nat) : List (Nat × Instr × Instr) :=
  [(16, .rdu16 w, .wru16 w), (32, .rdu32 w, .wru32 w), (64, .rdu64 w, .wru64 w)]

/-- Whether a command is one of the six that `ENDIAN` changes (20_memory.md rule R46). -/
def isWide : Instr → Bool
  | .rdu16 _ => true
  | .rdu32 _ => true
  | .rdu64 _ => true
  | .wru16 _ => true
  | .wru32 _ => true
  | .wru64 _ => true
  | .rdbits _ => false
  | .wrbits _ => false
  | .rdbytes => false
  | .wrbytes => false
  | .wrvar => false
  | .rdvar => false

/-- The state a command that reports `st` leaves: only the response, the phase and the run's record change
(60_exceptions.md rules R146 and R147). -/
def State.failed (s : State) (st : Status) : State :=
  { s with
    phase := .idle
    resp := { valid := true, status := st.code, result := 0, next := 0 }
    runFault := recordFault st s.runFault }

/-- The state after a command that succeeds with the given RESULT and NEXT and changes no memory: only the response and
the phase change (10_state.md rule R26). -/
def State.finished (s : State) (result : Word64) (next : Word32) : State :=
  { s with phase := .idle, resp := { valid := true, status := 0, result := result, next := next } }

/-- `t` is `s` after a reset event with the given memories: the reset response, `REQ` and the draws' counter left open, everything
else as it was (70_reset_and_hazards.md rules R160 to R162). -/
def State.ResetTo (s t : State) (rest : List Event) (b x : BitMemory) : Prop :=
  t = { s with
        phase := .idle
        resp := { valid := false, status := 0, result := 0, next := 0 }
        req := t.req
        draws := t.draws
        b := b
        x := x
        schedule := rest }

/-- Which of a footprint's four spans hold byte address `a`. -/
def Touch.Covers (t : Touch) (a : Nat) (readB writeB readX writeX : Prop) : Prop :=
  (t.readB.has a = true ↔ readB) ∧ (t.writeB.has a = true ↔ writeB) ∧ (t.readX.has a = true ↔ readX) ∧
    (t.writeX.has a = true ↔ writeX)

/-- Byte `a` holds a bit of the field of `w` bits at bit offset `off`: `Footprint(off, w)` of 00_scope.md rule R17. -/
def inField (off w a : Nat) : Prop := ∃ k, k < w ∧ (off + k) / 8 = a

/-- Two memories with the same valued bits, which hold the same values (70_reset_and_hazards.md rule R163). -/
def BitMemory.SameWhereValued (m n : BitMemory) : Prop :=
  ∀ i, m.hasValue i = n.hasValue i ∧ (m.hasValue i = true → m.bit i = n.bit i)

/-- `n` gives every bit of the first `len` bytes a value and keeps the values `m` has. -/
def BitMemory.FilledBy (len : Nat) (m n : BitMemory) : Prop :=
  (∀ i, i < 8 * len → n.hasValue i = true) ∧ ∀ i, m.hasValue i = true → n.bit i = m.bit i

/-- One wide field of a message: its commands, one of `wideCommands width`, its width and its value. -/
structure WideField where
  commands : Nat × Instr × Instr
  width : Nat
  value : Word64

/-- The host writes fields one after the other, each at the `RESP.NEXT` of the one before (70_reset_and_hazards.md rule
R168), the first at `off`. -/
def writeFields : List WideField → Word32 → State → Host.Outcome State Fault Refusal
  | [], _, s => .next s
  | f :: rest, off, s =>
    match exec f.commands.2.2 { s with req := { s.req with offset := off, data := f.value } } with
    | .next t => writeFields rest t.resp.next t
    | .fault r => .fault r
    | .refused r => .refused r

/-- The host reads the same fields back in order, "adding each read's width to its offset" (42_wide_integer.md rule R111), and
notes the results. -/
def readFields : List WideField → Nat → State → Option (List Word64)
  | [], _, _ => some []
  | f :: rest, off, s =>
    match exec f.commands.2.1 { s with req := { s.req with offset := BitVec.ofNat 32 off } } with
    | .next t => (readFields rest (off + f.width) t).map (fun l => t.resp.result :: l)
    | .fault _ => none
    | .refused _ => none

/-- Whether a command reads a fixed-width field (20_memory.md rule R51). -/
def isFieldRead : Instr → Bool
  | .rdbits _ => true
  | .rdu16 _ => true
  | .rdu32 _ => true
  | .rdu64 _ => true
  | .wrbits _ => false
  | .wru16 _ => false
  | .wru32 _ => false
  | .wru64 _ => false
  | .rdbytes => false
  | .wrbytes => false
  | .wrvar => false
  | .rdvar => false

/-- The host reads fields one after the other, the first at bit offset `off`, each at the end of the one before (20_memory.md
rule R48), and notes the results. -/
def readParts : List Instr → Nat → State → Option (List Word64)
  | [], _, _ => some []
  | i :: rest, off, s =>
    match exec i { s with req := { s.req with offset := BitVec.ofNat 32 off } } with
    | .next t => (readParts rest (off + i.nbitsField) t).map (fun l => t.resp.result :: l)
    | .fault _ => none
    | .refused _ => none

/-- The bits a list of fields takes. -/
def totalWidth (l : List WideField) : Nat := (l.map (fun f => f.width)).sum

end Sys2Proof.Machine
end

