-- ==== Sys2Proof/Certificates/Slice0/Obligations.lean ====
section
/-! DEFINITION. The statements for the provers, one for each listed in OBLIGATIONS.json: the spec's numbered rules over
`exec`, `step` and the decoder.  Offsets are written out from the latched request, `s.offset = s.req.offset.toNat`; `finished`
and `failed` are the whole next state, so each of them also says what is unchanged. -/

open Sys2Proof Sys2Proof.Machine

/-! ### Encoding -/

/-- No bit of an encoding is dropped: every command comes back from its word with its width (30_encoding.md rules R61, R63,
R69, R70). -/
def Obligations.DecodeOfEncode : Prop :=
  ∀ i : Instr, i.wellFormed = true → decode (encode i) = .command i

/-- Each command word has one meaning: a word that decodes is the encoding of what it decodes to. -/
def Obligations.EncodeOfDecode : Prop :=
  ∀ (cmd : Word32) (i : Instr), decode cmd = .command i → i.wellFormed = true ∧ encode i = cmd

/-- 60_exceptions.md rule R141, over the word read as a number: `OP` is `cmd mod 16`, `NBITS` is `cmd div 16 mod 128`, `RSVD` is
`cmd div 2^11`.  Exactly the words of rule R141 decode as illegal; a completing command reports ILLEGAL_COMMAND for each of
them and for no other word.
That RESULT, NEXT and the memories are as `failed` says is rule R146; the run's record in it is the model's (log entry 8). -/
def Obligations.IllegalWordsAreTheReservedOnes : Prop :=
  ∀ cmd : Word32,
    ((∃ why, decode cmd = .illegal why) ↔
      cmd.toNat / 2 ^ 11 ≠ 0 ∨ cmd.toNat % 16 ∈ [0x0, 0xD, 0xE, 0xF] ∨
        (cmd.toNat % 16 ∈ [0x3, 0x4, 0xB, 0xC] ∧ cmd.toNat / 16 % 128 ≠ 0)) ∧
    ∀ s : State, s.req.cmd = cmd →
      ((∃ why, decode cmd = .illegal why) → complete s = .next (s.failed .illegalCommand)) ∧
      ∀ t, complete s = .next t → t.resp.status = 1 → ∃ why, decode cmd = .illegal why

/-- Words of 95_test_vectors.md, one for each command, and four illegal ones. -/
def Obligations.VectorWordsDecode : Prop :=
  decode 0x00000051 = .command (.rdbits 5) ∧ decode 0x00000032 = .command (.wrbits 3) ∧
    decode 0x00000003 = .command .rdbytes ∧ decode 0x00000004 = .command .wrbytes ∧
    decode 0x00000095 = .command (.rdu16 9) ∧ decode 0x00000206 = .command (.rdu32 32) ∧
    decode 0x00000407 = .command (.rdu64 64) ∧ decode 0x000000C8 = .command (.wru16 12) ∧
    decode 0x00000209 = .command (.wru32 32) ∧ decode 0x0000040A = .command (.wru64 64) ∧
    decode 0x0000000B = .command .wrvar ∧ decode 0x0000000C = .command .rdvar ∧
    decode 0x00000000 = .illegal .reservedOpcode ∧ decode 0x0000000D = .illegal .reservedOpcode ∧
    decode 0x00000881 = .illegal .reservedBitsSet ∧ decode 0x0000001B = .illegal .widthOnWidthless

/-! ### The step -/

/-- When the engine has its turn while BUSY and the latched word is a command, the step is that command's execution (10_state.md
rules R26 and R27).  The schedule is the model's own (log entry 6). -/
def Obligations.StepExecutesTheLatchedCommand : Prop :=
  ∀ (s : State) (i : Instr), s.cfg.ok = true → s.phase = .busy →
    (s.schedule = [] ∨ ∃ rest, s.schedule = .engine :: rest) → decode s.req.cmd = .command i →
    step s = exec i { s with schedule := s.schedule.tail }

/-- An illegal word completes with ILLEGAL_COMMAND, RESULT 0, NEXT 0 and no memory change (30_encoding.md rules R66, R67; the
record of the run's fault is 60_exceptions.md rule R147).
The record is log entry 8. -/
def Obligations.IllegalWordCompletesWithItsStatus : Prop :=
  ∀ (s : State) (why : IllegalReason), s.cfg.ok = true → s.phase = .busy →
    (s.schedule = [] ∨ ∃ rest, s.schedule = .engine :: rest) → decode s.req.cmd = .illegal why →
    step s = .next
      { s with
        phase := .idle
        resp := { valid := true, status := 1, result := 0, next := 0 }
        runFault := s.runFault.or (some .illegalCommand)
        schedule := s.schedule.tail }

/-- The state `withFetchWord` makes runs the table word's command in its very next step (log entry 7). -/
def Obligations.TableWordRunsNext : Prop :=
  ∀ (s : State) (nbits w : Nat) (i : Instr), s.cfg.ok = true → decodeTableWord nbits w = some i →
    step (s.withFetchWord nbits w) = exec i (s.latch (tableRequest nbits w))

/-- START in IDLE latches the presented fields, clears VALID only, and makes the engine BUSY (10_state.md rule R25). -/
def Obligations.StartLatchesTheRequest : Prop :=
  ∀ (s : State) (rest : List Event), s.cfg.ok = true → s.schedule = .start :: rest → s.phase = .idle →
    step s = .next
      { s with
        req := s.presented
        resp := { valid := false, status := s.resp.status, result := s.resp.result, next := s.resp.next }
        phase := .busy
        schedule := rest }

/-- A START while BUSY is refused (70_reset_and_hazards.md rule R166). -/
def Obligations.StartWhileBusyIsRefused : Prop :=
  ∀ (s : State) (rest : List Event), s.cfg.ok = true → s.schedule = .start :: rest → s.phase = .busy →
    step s = .refused .startWhileBusy

/-- Host writes to the request fields while BUSY leave the latched request, and so the command, as they were (10_state.md rule
R22). -/
def Obligations.HostFieldsDoNotReachALatchedRequest : Prop :=
  ∀ (s : State) (r : Request) (rest : List Event), s.cfg.ok = true → s.schedule = .present r :: rest →
    step s = .next { s with presented := r, schedule := rest }

/-- An IDLE engine performs no step and holds its response (60_exceptions.md rule R155). -/
def Obligations.IdleEngineHoldsItsResponse : Prop :=
  ∀ s : State, s.cfg.ok = true → s.phase = .idle →
    (s.schedule = [] ∨ ∃ rest, s.schedule = .engine :: rest) →
    step s = .next { s with schedule := s.schedule.tail }

/-- A host access, while BUSY, to a byte of `B` or `X` the command may touch is refused (70_reset_and_hazards.md rule R165); to
any other byte of the memory it has its effect, and so has every access while IDLE.
That a failing command touches nothing is the model's reading (log entry 11).
`FootprintsAreTheTable` writes the bytes out; `RespReadsAndAccessesPastTheEnd` states the accesses past the end. -/
def Obligations.RacingAccessesAreRefused : Prop :=
  ∀ (s : State) (rest : List Event) (a : Nat) (v : Byte), s.cfg.ok = true →
    (s.schedule = .writeB a v :: rest → a < s.cfg.bufLen →
      step s =
        if s.phase = .busy ∧ ((latchedTouch s).readB.has a = true ∨ (latchedTouch s).writeB.has a = true) then
          .refused .race
        else .next { s with b := s.b.setByte a v, schedule := rest }) ∧
    (s.schedule = .writeX a v :: rest → a < s.cfg.xferLen →
      step s =
        if s.phase = .busy ∧ ((latchedTouch s).readX.has a = true ∨ (latchedTouch s).writeX.has a = true) then
          .refused .race
        else .next { s with x := s.x.setByte a v, schedule := rest }) ∧
    (s.schedule = .readB a :: rest → a < s.cfg.bufLen →
      step s =
        if s.phase = .busy ∧ (latchedTouch s).writeB.has a = true then .refused .race
        else .next { s with schedule := rest }) ∧
    (s.schedule = .readX a :: rest → a < s.cfg.xferLen →
      step s =
        if s.phase = .busy ∧ (latchedTouch s).writeX.has a = true then .refused .race
        else .next { s with schedule := rest })

/-- Reset in IDLE: `phase` IDLE, `RESP` all zero, memories and configuration unchanged (70_reset_and_hazards.md rules R160 and
R162).  `REQ` is a free value (log entry 5) and nothing is said of it.
That the presented fields and the run's record stay is the model's reading (log entries 9 and 8). -/
def Obligations.ResetInIdle : Prop :=
  ∀ (s : State) (rest : List Event), s.cfg.ok = true → s.schedule = .reset :: rest → s.phase = .idle →
    ∃ t, step s = .next t ∧ t.phase = .idle ∧ t.resp = { valid := false, status := 0, result := 0, next := 0 } ∧
      t.b = s.b ∧ t.x = s.x ∧ t.cfg = s.cfg ∧ t.presented = s.presented ∧ t.runFault = s.runFault ∧
      t.schedule = rest

/-- Reset while BUSY: the response is the reset response, and the memories are those after the command when the free value of the
draw (`Config.freeCommitted`) is true, and those before it when it is false (70_reset_and_hazards.md rule R161).  What is said of a
command that faults for want of a value, the stop among it, is the model's (log entry 4), and so are the presented fields (log
entry 9) and the run's record (log entries 8 and 18) staying as they were. -/
def Obligations.ResetWhileBusy : Prop :=
  ∀ (s : State) (rest : List Event), s.cfg.ok = true → s.schedule = .reset :: rest → s.phase = .busy →
    (∀ u, complete s = .next u → ∃ t, step s = .next t ∧
      s.ResetTo t rest (if Config.freeCommitted s.draws then u.b else s.b) (if Config.freeCommitted s.draws then u.x else s.x)) ∧
    (complete s = .fault .readWithoutValue → ∃ t, step s = .next t ∧ s.ResetTo t rest s.b s.x) ∧
    (complete s = .fault .copyWithoutValue →
      if Config.freeCommitted s.draws then step s = .fault .copyWithoutValue
      else ∃ t, step s = .next t ∧ s.ResetTo t rest s.b s.x) ∧
    ((∃ u, complete s = .next u) ∨ complete s = .fault .readWithoutValue ∨ complete s = .fault .copyWithoutValue)

/-- The reset state holds the values of 10_state.md rule R32: `phase` IDLE and `RESP` all zero, whatever the configuration. -/
def Obligations.ResetStateIsIdleWithBlankResponse : Prop :=
  ∀ c : Config, (State.resetOf c).phase = .idle ∧ (State.resetOf c).resp.valid = false ∧
    (State.resetOf c).resp.status = 0 ∧ (State.resetOf c).resp.result = 0 ∧ (State.resetOf c).resp.next = 0 ∧
    (State.resetOf c).cfg = c

/-- A configuration outside the spec's parameters, or one that claims `B` and `X` share storage, takes no step (20_memory.md rule
R43; 00_scope.md rules R7 and R8).
That every step refuses it is the model's choice (log entry 15). -/
def Obligations.BadConfigurationsAreRefused : Prop :=
  ∀ s : State,
    (2 ^ 28 < s.cfg.bufLen ∨ 2 ^ 32 - 1 < s.cfg.xferLen → step s = .refused .sizesOutOfBounds) ∧
    (s.cfg.bufLen ≤ 2 ^ 28 → s.cfg.xferLen ≤ 2 ^ 32 - 1 → s.cfg.sharedStorage = true →
      step s = .refused .sharedStorage)

/-! ### Results of the commands, each with everything it leaves unchanged -/

/-- RDBITS (40_bit_packing.md rule R80): RESULT is the field, bit by bit, NEXT is 0, and nothing but the response and the phase
changes; a field with a bit that has no value faults (70_reset_and_hazards.md rule R163). -/
def Obligations.RdbitsReturnsTheField : Prop :=
  ∀ (w : Nat) (s : State), 1 ≤ w → w ≤ 8 → s.offset + w ≤ 8 * s.cfg.bufLen →
    ((∀ k, k < w → s.b.hasValue (s.offset + k) = true) →
      ∃ r : Word64, exec (.rdbits w) s = .next (s.finished r 0) ∧
        ∀ k, r.getLsbD k = (decide (k < w) && s.b.bit (s.offset + k))) ∧
    ((∃ k, k < w ∧ s.b.hasValue (s.offset + k) = false) → exec (.rdbits w) s = .fault .readWithoutValue)

/-- RDU16, RDU32, RDU64 (42_wide_integer.md rule R100): the width check, then the bounds check, then RESULT.  In LE mode RESULT
bit `k` is field bit `k`; in BE mode the bytes of the N-bit value are reversed.  Nothing but the response and the phase changes.
A field with a bit that has no value faults (70_reset_and_hazards.md rule R163).
For 32 and 64 bits that reversal is one 00_scope.md rule R18 supplies from general knowledge (log entry 16), and the run's record
after a failure is the model's (log entry 8). -/
def Obligations.WideReadsReturnTheField : Prop :=
  ∀ (w : Nat) (s : State) (c : Nat × Instr × Instr), c ∈ wideCommands w →
    (w < 1 ∨ c.1 < w → exec c.2.1 s = .next (s.failed .contractViolation)) ∧
    (1 ≤ w → w ≤ c.1 → 8 * s.cfg.bufLen < s.offset + w → exec c.2.1 s = .next (s.failed .boundsViolation)) ∧
    (1 ≤ w → w ≤ c.1 → s.offset + w ≤ 8 * s.cfg.bufLen → (∀ k, k < w → s.b.hasValue (s.offset + k) = true) →
      ∃ r : Word64, exec c.2.1 s = .next (s.finished r 0) ∧
        (s.cfg.endian = .little → ∀ k, r.getLsbD k = (decide (k < w) && s.b.bit (s.offset + k))) ∧
        (s.cfg.endian = .big → ∀ k, r.getLsbD k =
          (decide (k < c.1) && decide (8 * (c.1 / 8 - 1 - k / 8) + k % 8 < w) &&
            s.b.bit (s.offset + (8 * (c.1 / 8 - 1 - k / 8) + k % 8))))) ∧
    (1 ≤ w → w ≤ c.1 → s.offset + w ≤ 8 * s.cfg.bufLen → (∃ k, k < w ∧ s.b.hasValue (s.offset + k) = false) →
      exec c.2.1 s = .fault .readWithoutValue)

/-- WRBITS (40_bit_packing.md rule R81): the field holds the low `w` bits of `DATA[7:0]` and has a value, and every other bit of
`B` is as it was, with or without one. -/
def Obligations.WrbitsSetsTheField : Prop :=
  ∀ (w : Nat) (s : State), 1 ≤ w → w ≤ 8 → s.offset + w ≤ 8 * s.cfg.bufLen →
    ∃ m : BitMemory, exec (.wrbits w) s = .next ({ s with b := m }.finished 0 0) ∧
      ∀ j, (m.bit j = if s.offset ≤ j ∧ j < s.offset + w then s.req.data.getLsbD (j - s.offset) else s.b.bit j) ∧
        (m.hasValue j = if s.offset ≤ j ∧ j < s.offset + w then true else s.b.hasValue j)

/-- WRU16, WRU32, WRU64 (42_wide_integer.md rule R104): the width check, then the zero width, then the bounds check, then the field:
it holds the low `w` bits of the N-bit source, whose bytes BE mode reverses first, and has a value; every other bit of `B` is
as it was, with or without one.  NEXT is the offset after the field, exactly where the sizes are in bounds.
For 32 and 64 bits that reversal is one 00_scope.md rule R18 supplies from general knowledge (log entry 16), which bits have a
value is 70_reset_and_hazards.md rule R163 (log entry 2), and the run's record after a failure is the model's (log entry 8). -/
def Obligations.WideWritesSetTheField : Prop :=
  ∀ (w : Nat) (s : State) (c : Nat × Instr × Instr), c ∈ wideCommands w →
    (c.1 < w → exec c.2.2 s = .next (s.failed .contractViolation)) ∧
    (w = 0 → exec c.2.2 s = .next (s.finished 0 s.req.offset)) ∧
    (1 ≤ w → w ≤ c.1 → 8 * s.cfg.bufLen < s.offset + w → exec c.2.2 s = .next (s.failed .boundsViolation)) ∧
    (1 ≤ w → w ≤ c.1 → s.offset + w ≤ 8 * s.cfg.bufLen → s.cfg.ok = true →
      ∃ (m : BitMemory) (next : Word32), exec c.2.2 s = .next ({ s with b := m }.finished 0 next) ∧
        next.toNat = s.offset + w ∧
        ∀ j, (s.cfg.endian = .little →
            m.bit j = if s.offset ≤ j ∧ j < s.offset + w then s.req.data.getLsbD (j - s.offset) else s.b.bit j) ∧
          (s.cfg.endian = .big →
            m.bit j =
              if s.offset ≤ j ∧ j < s.offset + w then
                s.req.data.getLsbD (8 * (c.1 / 8 - 1 - (j - s.offset) / 8) + (j - s.offset) % 8)
              else s.b.bit j) ∧
          (m.hasValue j = if s.offset ≤ j ∧ j < s.offset + w then true else s.b.hasValue j))

/-- RDBYTES (41_byte_run.md rule R90), any `n ≥ 1`: bit `j` of byte `i` of the run comes from buffer bit `o + 8i + j`; `B` and every
other byte of `X` are unchanged.  A run with a bit that has no value faults (70_reset_and_hazards.md rule R163). -/
def Obligations.RdbytesCopiesTheRun : Prop :=
  ∀ s : State, 1 ≤ s.count → s.offset + 8 * s.count ≤ 8 * s.cfg.bufLen → s.xoff + s.count ≤ s.cfg.xferLen →
    ((∀ k, k < 8 * s.count → s.b.hasValue (s.offset + k) = true) →
      ∃ m : BitMemory, exec .rdbytes s = .next ({ s with x := m }.finished 0 0) ∧
        (∀ i, i < s.count → ∀ j, j < 8 → m.bit (8 * (s.xoff + i) + j) = s.b.bit (s.offset + 8 * i + j) ∧
          m.hasValue (8 * (s.xoff + i) + j) = true) ∧
        ∀ a, ¬ (s.xoff ≤ a ∧ a < s.xoff + s.count) → m.byte a = s.x.byte a) ∧
    ((∃ k, k < 8 * s.count ∧ s.b.hasValue (s.offset + k) = false) → exec .rdbytes s = .fault .copyWithoutValue)

/-- WRBYTES (41_byte_run.md rule R91), any `n ≥ 1`: buffer bit `o + 8i + j` comes from bit `j` of `X[x + i]`; `X` and every bit of
`B` outside the run are unchanged.  A run with a bit of `X` that has no value faults (70_reset_and_hazards.md rule R163). -/
def Obligations.WrbytesCopiesTheRun : Prop :=
  ∀ s : State, 1 ≤ s.count → s.offset + 8 * s.count ≤ 8 * s.cfg.bufLen → s.xoff + s.count ≤ s.cfg.xferLen →
    ((∀ k, k < 8 * s.count → s.x.hasValue (8 * s.xoff + k) = true) →
      ∃ m : BitMemory, exec .wrbytes s = .next ({ s with b := m }.finished 0 0) ∧
        (∀ i, i < s.count → ∀ j, j < 8 → m.bit (s.offset + 8 * i + j) = s.x.bit (8 * (s.xoff + i) + j) ∧
          m.hasValue (s.offset + 8 * i + j) = true) ∧
        ∀ j, ¬ (s.offset ≤ j ∧ j < s.offset + 8 * s.count) → m.bit j = s.b.bit j ∧ m.hasValue j = s.b.hasValue j) ∧
    ((∃ k, k < 8 * s.count ∧ s.x.hasValue (8 * s.xoff + k) = false) → exec .wrbytes s = .fault .copyWithoutValue)

/-- WRVAR (43_varint.md rule R121): bytes `o` to `o + L - 1` hold the encoding of rule R120, every other byte is unchanged, and NEXT
is the byte count. -/
def Obligations.WrvarWritesTheEncoding : Prop :=
  ∀ s : State, s.offset + varLen (s.req.data.toNat % 2 ^ 32) ≤ s.cfg.bufLen →
    ∃ m : BitMemory,
      exec .wrvar s =
        .next ({ s with b := m }.finished 0 (BitVec.ofNat 32 (varLen (s.req.data.toNat % 2 ^ 32)))) ∧
      ∀ a, m.byte a =
        if s.offset ≤ a ∧ a < s.offset + varLen (s.req.data.toNat % 2 ^ 32) then
          (varByte (varLen (s.req.data.toNat % 2 ^ 32)) (s.req.data.toNat % 2 ^ 32) (a - s.offset), 0xFF)
        else s.b.byte a

/-- RDVAR (43_varint.md rule R122) on a stream of `n < 5` continuation bytes and a last byte, all inside `B`: RESULT bit `k < 32` is
payload bit `k mod 7` of byte `k div 7`, NEXT is the offset after the last byte, `B` is unchanged.  The fifth byte's bits 4 to 6
need no value under TRUNCATE (they are dropped) and must be 0 under REJECT.  After `n` continuation bytes, a next byte whose bit 7
has no value, or a last byte with a bit that matters without one, faults (70_reset_and_hazards.md rule R163), unless the fifth byte
is already certain to be rejected.  Which bits matter is the model's reading of that rule (log entry 10). -/
def Obligations.RdvarReturnsTheValue : Prop :=
  ∀ (n : Nat) (s : State), n < 5 → s.offset + n < s.cfg.bufLen →
    (∀ i, i < n → s.b.bit (8 * (s.offset + i) + 7) = true) →
    (s.b.bit (8 * (s.offset + n) + 7) = false →
      (∀ k, k < 8 * (n + 1) → (k < 36 ∨ k = 39 ∨ s.cfg.topBits = .reject) → s.b.hasValue (8 * s.offset + k) = true) →
      (n = 4 → s.cfg.topBits = .reject → ∀ k, 36 ≤ k → k < 39 → s.b.bit (8 * s.offset + k) = false) →
      ∃ r : Word64, exec .rdvar s = .next (s.finished r (BitVec.ofNat 32 (s.offset + (n + 1)))) ∧
        ∀ k, r.getLsbD k =
          (decide (k < 32) && decide (k < 7 * (n + 1)) && s.b.bit (8 * (s.offset + k / 7) + k % 7))) ∧
    ((∀ i, i < n → s.b.hasValue (8 * (s.offset + i) + 7) = true) →
      (n = 4 → s.cfg.topBits = .reject → ∀ k, 36 ≤ k → k < 39 → s.b.hasValue (8 * s.offset + k) = true →
        s.b.bit (8 * s.offset + k) = false) →
      (s.b.hasValue (8 * (s.offset + n) + 7) = false ∨
        (s.b.bit (8 * (s.offset + n) + 7) = false ∧
          ∃ k, k < 8 * (n + 1) ∧ (k < 36 ∨ k = 39 ∨ s.cfg.topBits = .reject) ∧ s.b.hasValue (8 * s.offset + k) = false)) →
      exec .rdvar s = .fault .readWithoutValue)

/-- A zero-size write or run completes OK at any offset and changes no memory (60_exceptions.md rule R145 item 3; 42_wide_integer.md
rule R104: NEXT is OFFSET). -/
def Obligations.ZeroSizesCompleteOk : Prop :=
  ∀ s : State,
    exec (.wrbits 0) s = .next (s.finished 0 0) ∧
    (∀ c, c ∈ wideCommands 0 → exec c.2.2 s = .next (s.finished 0 s.req.offset)) ∧
    (s.count = 0 → exec .rdbytes s = .next (s.finished 0 0) ∧ exec .wrbytes s = .next (s.finished 0 0))

/-! ### Failures -/

/-- CONTRACT_VIOLATION is reported exactly when the width is outside the command's range, whatever else is wrong (60_exceptions.md
rules R142 and R145); RDBYTES, WRBYTES, WRVAR and RDVAR never report it.
RESULT, NEXT and the memories are rule R146; the run's record also changes, as the model reads rule R147 (log entry 8). -/
def Obligations.ContractViolationExactly : Prop :=
  ∀ (i : Instr) (s : State),
    (widthIllegal i → exec i s = .next (s.failed .contractViolation)) ∧
    ∀ t, exec i s = .next t → t.resp.status = 2 → widthIllegal i

/-- BOUNDS_VIOLATION is reported exactly when the command's footprint passes the end of `B` or `X` and its width is legal
(60_exceptions.md rules R143 and R145), for every command but RDVAR.
RESULT, NEXT and the memories are rule R146; the run's record also changes, as the model reads rule R147 (log entry 8). -/
def Obligations.BoundsViolationExactly : Prop :=
  ∀ (i : Instr) (s : State), i ≠ .rdvar →
    (¬ widthIllegal i → boundsIllegal i s → exec i s = .next (s.failed .boundsViolation)) ∧
    ∀ t, exec i s = .next t → t.resp.status = 3 → boundsIllegal i s ∧ ¬ widthIllegal i

/-- RDVAR reports MALFORMED_VARINT when the fifth byte has bit 7 set, and under REJECT when the fifth byte's payload exceeds 0x0F
(60_exceptions.md rule R144); no other command reports it (rule R140).
That the other bits need no value is the model's reading of 70_reset_and_hazards.md rule R163 (log entry 10). -/
def Obligations.MalformedVarintsAreReported : Prop :=
  (∀ s : State, s.offset + 5 ≤ s.cfg.bufLen →
    (∀ i, i < 5 → s.b.hasValue (8 * (s.offset + i) + 7) = true ∧ s.b.bit (8 * (s.offset + i) + 7) = true) →
    exec .rdvar s = .next (s.failed .malformedVarint)) ∧
  (∀ s : State, s.offset + 5 ≤ s.cfg.bufLen → s.cfg.topBits = .reject →
    (∀ i, i < 4 → s.b.hasValue (8 * (s.offset + i) + 7) = true ∧ s.b.bit (8 * (s.offset + i) + 7) = true) →
    (∃ k, 36 ≤ k ∧ k < 39 ∧ s.b.hasValue (8 * s.offset + k) = true ∧ s.b.bit (8 * s.offset + k) = true) →
    exec .rdvar s = .next (s.failed .malformedVarint)) ∧
  ∀ (i : Instr) (s t : State), exec i s = .next t → t.resp.status = 4 → i = .rdvar

/-- RDVAR reports BOUNDS_VIOLATION when its encoding runs past the end of `B` before its last byte (60_exceptions.md rules R143 and
R145).
The run's record also changes, as the model reads rule R147 (log entry 8), and that the payload bits need no value is its reading
of 70_reset_and_hazards.md rule R163 (log entry 10). -/
def Obligations.RdvarStopsAtTheEnd : Prop :=
  ∀ (n : Nat) (s : State), n < 5 → (n = 0 ∨ s.offset + n ≤ s.cfg.bufLen) → s.cfg.bufLen ≤ s.offset + n →
    (∀ i, i < n → s.b.hasValue (8 * (s.offset + i) + 7) = true ∧ s.b.bit (8 * (s.offset + i) + 7) = true) →
    exec .rdvar s = .next (s.failed .boundsViolation)

/-- A command that reports a status other than OK has no effect but its response, with RESULT and NEXT 0 (60_exceptions.md rule
R146; 10_state.md rule R24). -/
def Obligations.FailuresChangeNothing : Prop :=
  ∀ (s t : State), complete s = .next t → t.resp.status ≠ 0 →
    t = { s with
          phase := .idle
          resp := { valid := true, status := t.resp.status, result := 0, next := 0 }
          runFault := t.runFault }

/-- The run's record is the first status of class programming error, codes 1 to 3, and MALFORMED_VARINT is not recorded
(60_exceptions.md rule R147).
The record is log entry 8. -/
def Obligations.ProgrammingErrorsAreRecorded : Prop :=
  ∀ (s t : State), complete s = .next t →
    (∀ f, s.runFault = some f → t.runFault = some f) ∧
    (s.runFault = none →
      (∀ f, t.runFault = some f → t.resp.status = f.code) ∧
      (t.runFault ≠ none ↔ t.resp.status = 1 ∨ t.resp.status = 2 ∨ t.resp.status = 3))

/-- "the command after a failed one executes as if the failed one had never been issued" (60_exceptions.md rule R147), whatever the
request of the command after it. -/
def Obligations.FailuresAreNotSticky : Prop :=
  ∀ (s t : State) (r : Request), complete s = .next t → t.resp.status ≠ 0 →
    (∀ u, complete { s with req := r } = .next u →
      ∃ v, complete { t with req := r } = .next v ∧ v.resp = u.resp ∧ v.b = u.b ∧ v.x = u.x) ∧
    ∀ f, complete { s with req := r } = .fault f → complete { t with req := r } = .fault f

/-! ### What a command may depend on and change -/

/-- `Exec` reads the configuration, the request and the two memories, and no other state (10_state.md rules R27 and R28). -/
def Obligations.OutcomeDependsOnRequestAndMemoriesOnly : Prop :=
  ∀ (s s' : State), s'.cfg = s.cfg → s'.req = s.req → s'.b = s.b → s'.x = s.x →
    (∀ t, complete s = .next t →
      ∃ t', complete s' = .next t' ∧ t'.resp = t.resp ∧ t'.b = t.b ∧ t'.x = t.x ∧ t'.cfg = t.cfg ∧ t'.req = t.req) ∧
    ∀ f, complete s = .fault f → complete s' = .fault f

/-- With a value in every bit of `B` and `X`, every request completes: the engine's turn ends IDLE with a valid response whose
status is one of the five codes (10_state.md rule R27, "Every command ends"; 60_exceptions.md rule R140). -/
def Obligations.EveryCommandEnds : Prop :=
  ∀ s : State, s.cfg.ok = true → s.phase = .busy → s.schedule = [] →
    (∀ j, j < 8 * s.cfg.bufLen → s.b.hasValue j = true) → (∀ j, j < 8 * s.cfg.xferLen → s.x.hasValue j = true) →
    ∃ t, step s = .next t ∧ t.phase = .idle ∧ t.resp.valid = true ∧ t.resp.status.toNat ≤ 4

/-- A command that completes changes no byte of `B` or `X` outside its write footprint, and only the response, the phase, the
memories and the run's record at all (20_memory.md rule R51, 10_state.md rule R26). -/
def Obligations.WritesStayInTheFootprint : Prop :=
  ∀ (i : Instr) (s t : State), exec i s = .next t →
    (∀ a, (touch i s).writeB.has a = false → t.b.byte a = s.b.byte a) ∧
    (∀ a, (touch i s).writeX.has a = false → t.x.byte a = s.x.byte a) ∧
    t = { s with phase := .idle, resp := t.resp, b := t.b, x := t.x, runFault := t.runFault } ∧ t.resp.valid = true

/-- A command's response, its faults and the bytes it may write depend on no byte outside its read footprint (20_memory.md rule
R51). -/
def Obligations.ReadsStayInTheFootprint : Prop :=
  ∀ (i : Instr) (s s' : State), s'.cfg = s.cfg → s'.req = s.req →
    (∀ a, (touch i s).readB.has a = true → s'.b.byte a = s.b.byte a) →
    (∀ a, (touch i s).readX.has a = true → s'.x.byte a = s.x.byte a) →
    (∀ t, exec i s = .next t →
      ∃ t', exec i s' = .next t' ∧ t'.resp = t.resp ∧
        (∀ a, (touch i s).writeB.has a = true → t'.b.byte a = t.b.byte a) ∧
        ∀ a, (touch i s).writeX.has a = true → t'.x.byte a = t.x.byte a) ∧
    ∀ f, exec i s = .fault f → exec i s' = .fault f

/-- No outcome depends on what a bit without a value holds (70_reset_and_hazards.md rule R163): memories with the same valued bits
give the same response and the same faults, and stay alike. -/
def Obligations.BitsWithoutValueNeverMatter : Prop :=
  ∀ (i : Instr) (s s' : State), s'.cfg = s.cfg → s'.req = s.req → s.b.SameWhereValued s'.b → s.x.SameWhereValued s'.x →
    (∀ t, exec i s = .next t →
      ∃ t', exec i s' = .next t' ∧ t'.resp = t.resp ∧ t.b.SameWhereValued t'.b ∧ t.x.SameWhereValued t'.x) ∧
    ∀ f, exec i s = .fault f → exec i s' = .fault f

/-- The faults of 70_reset_and_hazards.md rule R163 are raised only where something depends on a bit without a value: two ways of
giving every bit of `B` a value lead to different responses (reads) or to different bytes of `X` (RDBYTES), and two ways of giving
every bit of `X` one lead to different bits of `B` (WRBYTES).
The other direction, when each command faults, stands with its result: `RdbitsReturnsTheField`, `WideReadsReturnTheField`,
`RdbytesCopiesTheRun`, `WrbytesCopiesTheRun`, `RdvarReturnsTheValue`.
That RDVAR faults only where its response depends on the bit is the model's reading of that rule (log entry 10). -/
def Obligations.FaultsOnlyWhereAValueIsMissing : Prop :=
  ∀ (i : Instr) (s : State),
    (exec i s = .fault .readWithoutValue →
      ∃ (m n : BitMemory) (t u : State), s.b.FilledBy s.cfg.bufLen m ∧ s.b.FilledBy s.cfg.bufLen n ∧
        exec i { s with b := m } = .next t ∧ exec i { s with b := n } = .next u ∧ t.resp ≠ u.resp) ∧
    (exec i s = .fault .copyWithoutValue →
      (i = .rdbytes ∧ ∃ (m n : BitMemory) (t u : State), s.b.FilledBy s.cfg.bufLen m ∧ s.b.FilledBy s.cfg.bufLen n ∧
        exec i { s with b := m } = .next t ∧ exec i { s with b := n } = .next u ∧ ∃ j, t.x.bit j ≠ u.x.bit j) ∨
      (i = .wrbytes ∧ ∃ (m n : BitMemory) (t u : State), s.x.FilledBy s.cfg.xferLen m ∧ s.x.FilledBy s.cfg.xferLen n ∧
        exec i { s with x := m } = .next t ∧ exec i { s with x := n } = .next u ∧ ∃ j, t.b.bit j ≠ u.b.bit j))

/-- `ENDIAN` changes the six wide-integer commands only (20_memory.md rule R46). -/
def Obligations.EndianChangesWideCommandsOnly : Prop :=
  ∀ (i : Instr) (s : State) (e : Endian), isWide i = false →
    (∀ t, exec i s = .next t →
      exec i { s with cfg := { s.cfg with endian := e } } = .next { t with cfg := { s.cfg with endian := e } }) ∧
    ∀ f, exec i s = .fault f → exec i { s with cfg := { s.cfg with endian := e } } = .fault f

/-- No step changes the configuration (00_scope.md rule R9, 10_state.md rule R29, 70_reset_and_hazards.md rule R162). -/
def Obligations.ConfigurationNeverChanges : Prop :=
  ∀ (s t : State), step s = .next t → t.cfg = s.cfg

/-- `B`, `X` and the response change only where the spec says so: the engine's COMPLETE and reset; host writes change their memory;
START clears VALID and nothing else of the response (10_state.md rules R25, R26, R30). -/
def Obligations.NothingChangesOutsideComplete : Prop :=
  ∀ (s t : State) (e : Event) (rest : List Event), s.schedule = e :: rest → step s = .next t →
    ¬ (e = .engine ∧ s.phase = .busy) → e ≠ .reset →
    (t.b = s.b ∨ ∃ a v, e = .writeB a v ∧ t.b = s.b.setByte a v) ∧
    (t.x = s.x ∨ ∃ a v, e = .writeX a v ∧ t.x = s.x.setByte a v) ∧
    (t.resp = s.resp ∨ (e = .start ∧ t.resp = { s.resp with valid := false }))

/-! ### The invariant -/

/-- The invariant holds right after reset, in every configuration the spec gives a meaning. -/
def Obligations.ResetMeetsTheInvariant : Prop :=
  ∀ c : Config, c.ok = true → (State.resetOf c).Inv

/-- Every step keeps the invariant: memories in canonical form and inside their sizes with 0 stored for a bit without a value, a
known status code, a blank response after a failure or a reset, no valid response while BUSY.
The 0 stored and the run's record are the model's (log entries 2 and 8). -/
def Obligations.EveryStepKeepsTheInvariant : Prop :=
  ∀ (s t : State), s.Inv → step s = .next t → t.Inv

/-! ### Laws of the families -/

/-- 40_bit_packing.md rule R83: WRBITS then RDBITS of the same field returns `s AND mask(w)`, and every bit outside the field keeps
its value. -/
def Obligations.ByteRoundTrip : Prop :=
  ∀ (w : Nat) (s : State), 1 ≤ w → w ≤ 8 → s.offset + w ≤ 8 * s.cfg.bufLen →
    ∃ t u, exec (.wrbits w) s = .next t ∧ exec (.rdbits w) t = .next u ∧
      u.resp = { valid := true, status := 0, result := s.req.data &&& BitVec.ofNat 64 (mask w), next := 0 } ∧
      ∀ j, ¬ (s.offset ≤ j ∧ j < s.offset + w) → u.b.bit j = s.b.bit j ∧ u.b.hasValue j = s.b.hasValue j

/-- 41_byte_run.md rule R93: WRBYTES then RDBYTES of the same run into any place of `X` reproduces the bytes exactly. -/
def Obligations.ByteRunFidelity : Prop :=
  ∀ (s : State) (x2 : Word32), s.offset + 8 * s.count ≤ 8 * s.cfg.bufLen → s.xoff + s.count ≤ s.cfg.xferLen →
    x2.toNat + s.count ≤ s.cfg.xferLen → (∀ k, k < 8 * s.count → s.x.hasValue (8 * s.xoff + k) = true) →
    ∃ t u, exec .wrbytes s = .next t ∧ exec .rdbytes { t with req := { t.req with xoff := x2 } } = .next u ∧
      u.resp.status = 0 ∧ ∀ i, i < s.count → u.x.byte (x2.toNat + i) = s.x.byte (s.xoff + i)

/-- 42_wide_integer.md rule R108: WRU`N` then RDU`N` of the same field returns `d AND mask(w)` in LE mode for every width and in BE
mode at full width; bits outside the field keep their values. -/
def Obligations.WideRoundTrip : Prop :=
  ∀ (w : Nat) (s : State) (c : Nat × Instr × Instr), c ∈ wideCommands w → 1 ≤ w → w ≤ c.1 →
    s.offset + w ≤ 8 * s.cfg.bufLen → (s.cfg.endian = .little ∨ w = c.1) →
    ∃ t u, exec c.2.2 s = .next t ∧ exec c.2.1 t = .next u ∧
      u.resp = { valid := true, status := 0, result := s.req.data &&& BitVec.ofNat 64 (mask w), next := 0 } ∧
      ∀ j, ¬ (s.offset ≤ j ∧ j < s.offset + w) → u.b.bit j = s.b.bit j ∧ u.b.hasValue j = s.b.hasValue j

/-- 42_wide_integer.md rule R109: in BE mode below full width the read returns `bswap_N(bswap_N(d) AND mask(w))`.
The reversal, over the whole type width and for 32 and 64 bits, is one the spec supplies from general knowledge (00_scope.md rule
R18, 92_eei_decisions.md D8; log entry 16). -/
def Obligations.BigEndianPartialWidth : Prop :=
  ∀ (w : Nat) (s : State) (c : Nat × Instr × Instr), c ∈ wideCommands w → 1 ≤ w → w < c.1 →
    s.offset + w ≤ 8 * s.cfg.bufLen → s.cfg.endian = .big →
    ∃ t u, exec c.2.2 s = .next t ∧ exec c.2.1 t = .next u ∧ u.resp.status = 0 ∧
      u.resp.result.toNat = bswap c.1 (bswap c.1 (s.req.data.toNat % 2 ^ c.1) &&& mask w)

/-- 42_wide_integer.md rule R110, at any bit offset: the bytes a BE write of full width lays down are those of the LE write in reverse
order.
For 32 and 64 bits the full reversal is one 00_scope.md rule R18 supplies from general knowledge (log entry 16). -/
def Obligations.BigEndianReversesTheBytes : Prop :=
  ∀ (s : State) (w : Nat) (c : Nat × Instr × Instr), c ∈ wideCommands w → w = c.1 →
    s.offset + w ≤ 8 * s.cfg.bufLen →
    ∃ l g, exec c.2.2 { s with cfg := { s.cfg with endian := .little } } = .next l ∧
      exec c.2.2 { s with cfg := { s.cfg with endian := .big } } = .next g ∧
      ∀ j k, j < c.1 / 8 → k < 8 →
        g.b.bit (s.offset + 8 * j + k) = l.b.bit (s.offset + 8 * (c.1 / 8 - 1 - j) + k)

/-- 42_wide_integer.md rule R111: wide writes chained through `RESP.NEXT` lay their fields end to end, and reading them back in order,
adding each read's width to its offset, returns each value masked to its width: in LE mode every value, in BE mode the value of
every field written at its full type width, whatever the widths of the others.
Writes of width 0 are `ZeroSizesCompleteOk`'s. -/
def Obligations.ChainedWritesReadBack : Prop :=
  ∀ (fields : List WideField) (off : Word32) (s : State), s.cfg.ok = true →
    (∀ f, f ∈ fields → f.commands ∈ wideCommands f.width ∧ 1 ≤ f.width ∧ f.width ≤ f.commands.1) →
    off.toNat + totalWidth fields ≤ 8 * s.cfg.bufLen →
    ∃ t l, writeFields fields off s = .next t ∧ readFields fields off.toNat t = some l ∧ l.length = fields.length ∧
      ∀ (i : Nat) (f : WideField), fields[i]? = some f → (s.cfg.endian = .little ∨ f.width = f.commands.1) →
        l[i]? = some (f.value &&& BitVec.ofNat 64 (mask f.width))

/-- 20_memory.md rule R48: any sequence of narrower reads that partition a field, RDBITS, RDU16, RDU32 or RDU64 each of any legal
width, returns the field's value slice by slice, lowest bits first, in LE mode or where the field and its parts are all read by
RDBITS, which ENDIAN does not affect. -/
def Obligations.NarrowReadsPartitionAField : Prop :=
  ∀ (whole : Instr) (parts : List Instr) (s : State), s.cfg.ok = true →
    (∀ i, i ∈ whole :: parts → isFieldRead i = true ∧ ¬ widthIllegal i ∧ (s.cfg.endian = .little ∨ isWide i = false)) →
    (parts.map Instr.nbitsField).sum = whole.nbitsField → s.offset + whole.nbitsField ≤ 8 * s.cfg.bufLen →
    (∀ k, k < whole.nbitsField → s.b.hasValue (s.offset + k) = true) →
    ∃ t l, exec whole s = .next t ∧ t.resp.result.toNat < 2 ^ whole.nbitsField ∧
      readParts parts s.offset s = some l ∧ l.length = parts.length ∧
      ∀ (j : Nat) (i : Instr), parts[j]? = some i →
        l[j]? = some (BitVec.ofNat 64
          (t.resp.result.toNat / 2 ^ ((parts.take j).map Instr.nbitsField).sum % 2 ^ i.nbitsField))

/-- 43_varint.md rule R124: WRVAR then RDVAR returns the value and the offset after it, in every configuration. -/
def Obligations.VarintRoundTrip : Prop :=
  ∀ s : State, s.offset + varLen (s.req.data.toNat % 2 ^ 32) ≤ s.cfg.bufLen →
    ∃ t u, exec .wrvar s = .next t ∧ exec .rdvar t = .next u ∧
      u.resp =
        { valid := true, status := 0, result := BitVec.ofNat 64 (s.req.data.toNat % 2 ^ 32),
          next := BitVec.ofNat 32 (s.offset + varLen (s.req.data.toNat % 2 ^ 32)) }

/-- 43_varint.md rule R123: `VarLen(v) = max(1, ceil(bitlength(v) / 7))`, and the bytes WRVAR's loop makes are `E(v)` of rule R120. -/
def Obligations.VarintLengthAndBytes : Prop :=
  ∀ v : Nat, v < 2 ^ 32 →
    varLen v = max 1 ((Nat.size v + 6) / 7) ∧ (varBytes 4 v).length = varLen v ∧
      ∀ i, i < varLen v → (varBytes 4 v)[i]? = some (varByte (varLen v) v i)

/-- 00_scope.md rule R18: byte `j` of `bswap_N(v)` is byte `N/8 - 1 - j` of `v`.
For 32 and 64 bits the spec supplies it from general knowledge (log entry 16). -/
def Obligations.ByteReversal : Prop :=
  ∀ (n v : Nat), n = 16 ∨ n = 32 ∨ n = 64 → v < 2 ^ n →
    bswap n v < 2 ^ n ∧
      ∀ j, j < n / 8 → bswap n v / 2 ^ (8 * j) % 256 = v / 2 ^ (8 * (n / 8 - 1 - j)) % 256

/-- 40_bit_packing.md rule R82: the one-shift, two-merge datapath gives what RDBITS reads and WRBITS writes, at every offset. -/
def Obligations.BitDatapathEqualsTheFieldOperations : Prop :=
  ∀ (m : BitMemory) (o w v : Nat), 1 ≤ w → w ≤ 8 →
    datapathRead m.value o w = BitVec.ofNat 8 (m.getBits o w) ∧
      ∀ a, (datapathWrite m.value o w (BitVec.ofNat 8 (v &&& mask w))).read a = (m.setBits o w v).value.read a

/-- 41_byte_run.md rule R92: the bulk path and the per-byte shift path give what RDBYTES and WRBYTES copy. -/
def Obligations.RunDatapathEqualsTheCopies : Prop :=
  ∀ (src dst : BitMemory) (o x n : Nat),
    (∀ i, datapathRunByte src.value o i = BitVec.ofNat 8 (src.getBits (o + 8 * i) 8)) ∧
      ∀ a, (datapathRunWrite src.value o x n dst.value).read a = (copyIn src o x n dst).value.read a

/-- 30_encoding.md rule R71 and 00_scope.md rule R6: what WRBOOL writes, RDBOOL reads back as 1 for true and 0 for false. -/
def Obligations.BooleansRoundTrip : Prop :=
  ∀ (s : State) (off : Nat) (b : Bool), s.cfg.ok = true → off < 8 * s.cfg.bufLen →
    ∃ t u, complete { s with req := asmWrbool off b } = .next t ∧
      complete { t with req := asmRdbool off } = .next u ∧
      u.resp = { valid := true, status := 0, result := if b then 1 else 0, next := 0 }

/-! ### Rules of the whole machine -/

/-- The table of 20_memory.md rule R51, with rule R165's bytes `o` to `min(o + 4, BUF_LEN - 1)` for RDVAR, written out byte by byte:
the bytes the race rule and the statements about footprints speak of.  That a failing command and an illegal word have none is
the model's reading of 60_exceptions.md rule R146 (log entry 11). -/
def Obligations.FootprintsAreTheTable : Prop :=
  ∀ (s : State) (a : Nat),
    (∀ i, widthIllegal i ∨ boundsIllegal i s → (touch i s).Covers a False False False False) ∧
    (∀ w, 1 ≤ w → w ≤ 8 → s.offset + w ≤ 8 * s.cfg.bufLen →
      (touch (.rdbits w) s).Covers a (inField s.offset w a) False False False) ∧
    (∀ w c, c ∈ wideCommands w → 1 ≤ w → w ≤ c.1 → s.offset + w ≤ 8 * s.cfg.bufLen →
      (touch c.2.1 s).Covers a (inField s.offset w a) False False False) ∧
    (∀ w, w ≤ 8 → (w = 0 ∨ s.offset + w ≤ 8 * s.cfg.bufLen) →
      (touch (.wrbits w) s).Covers a (inField s.offset w a) (inField s.offset w a) False False) ∧
    (∀ w c, c ∈ wideCommands w → w ≤ c.1 → (w = 0 ∨ s.offset + w ≤ 8 * s.cfg.bufLen) →
      (touch c.2.2 s).Covers a (inField s.offset w a) (inField s.offset w a) False False) ∧
    (s.count = 0 ∨ (s.offset + 8 * s.count ≤ 8 * s.cfg.bufLen ∧ s.xoff + s.count ≤ s.cfg.xferLen) →
      (touch .rdbytes s).Covers a (inField s.offset (8 * s.count) a) False False (s.xoff ≤ a ∧ a < s.xoff + s.count) ∧
      (touch .wrbytes s).Covers a (inField s.offset (8 * s.count) a) (inField s.offset (8 * s.count) a)
        (s.xoff ≤ a ∧ a < s.xoff + s.count) False) ∧
    (s.offset + varLen (s.data 32) ≤ s.cfg.bufLen →
      (touch .wrvar s).Covers a False (s.offset ≤ a ∧ a < s.offset + varLen (s.data 32)) False False) ∧
    (touch .rdvar s).Covers a (s.offset ≤ a ∧ a ≤ s.offset + 4 ∧ a < s.cfg.bufLen) False False False ∧
    (∀ i, decode s.req.cmd = .command i → latchedTouch s = touch i s) ∧
    (∀ why, decode s.req.cmd = .illegal why → (latchedTouch s).Covers a False False False False)

/-- A host read of `RESP` changes nothing but the model's schedule (10_state.md rule R23, "without side effects"), and a host access
to a byte past the end of `B` or `X` stops, whatever the phase.  The stop is the model's (log entry 12), the schedule log entry 6. -/
def Obligations.RespReadsAndAccessesPastTheEnd : Prop :=
  ∀ (s : State) (rest : List Event), s.cfg.ok = true →
    (s.schedule = .readResp :: rest → step s = .next { s with schedule := rest }) ∧
    (∀ a v, s.schedule = .writeB a v :: rest → s.cfg.bufLen ≤ a → step s = .fault .noSuchByte) ∧
    (∀ a v, s.schedule = .writeX a v :: rest → s.cfg.xferLen ≤ a → step s = .fault .noSuchByte) ∧
    (∀ a, s.schedule = .readB a :: rest → s.cfg.bufLen ≤ a → step s = .fault .noSuchByte) ∧
    (∀ a, s.schedule = .readX a :: rest → s.cfg.xferLen ≤ a → step s = .fault .noSuchByte)

/-- 10_state.md rule R24: the response fields a command does not produce are 0, and both are 0 after a status other than OK, an
illegal word among them. -/
def Obligations.UnproducedResponseFieldsAreZero : Prop :=
  ∀ s t : State,
    (∀ (i : Instr) (w : Nat), i ∈ [.rdbits w, .wrbits w, .rdbytes, .wrbytes, .rdu16 w, .rdu32 w, .rdu64 w] →
      exec i s = .next t → t.resp.next = 0) ∧
    (∀ (i : Instr) (w : Nat), i ∈ [.wrbits w, .rdbytes, .wrbytes, .wru16 w, .wru32 w, .wru64 w, .wrvar] →
      exec i s = .next t → t.resp.result = 0) ∧
    (complete s = .next t → t.resp.status ≠ 0 → t.resp.result = 0 ∧ t.resp.next = 0)

/-- 10_state.md rule R22: START latches the fields the host has written, and the latched request is then held until the command
completes, whatever the host writes: no step other than reset changes it while BUSY, and none but START and reset while IDLE; driving the request fields writes those. -/
def Obligations.LatchedRequestIsHeld : Prop :=
  ∀ s t : State, step s = .next t → (∀ rest, s.schedule ≠ .reset :: rest) →
    (s.phase = .busy → t.req = s.req) ∧
    (s.phase = .idle → (∀ rest, s.schedule ≠ .start :: rest) → t.req = s.req) ∧
    (∀ rest, s.schedule = .start :: rest → t.req = s.presented) ∧
    ∀ r rest, s.schedule = .present r :: rest → t.presented = r ∧ t.req = s.req
end

