-- ==== Sys2Proof/Laws/State.lean ====
section
/-! SUPPORT. One lemma for each field under each update of the state, true by rfl, so that no later proof unfolds a record
update; and how the updates relate. -/

namespace Sys2Proof.Machine

/-! ### COMPLETE's response -/

@[simp] theorem State.respond_cfg (s : State) (st : Status) (r n : Nat) :
    (s.respond st r n).cfg = s.cfg := rfl
@[simp] theorem State.respond_phase (s : State) (st : Status) (r n : Nat) :
    (s.respond st r n).phase = .idle := rfl
@[simp] theorem State.respond_presented (s : State) (st : Status) (r n : Nat) :
    (s.respond st r n).presented = s.presented := rfl
@[simp] theorem State.respond_req (s : State) (st : Status) (r n : Nat) :
    (s.respond st r n).req = s.req := rfl
@[simp] theorem State.respond_resp (s : State) (st : Status) (r n : Nat) :
    (s.respond st r n).resp = { valid := true, status := st.code, result := BitVec.ofNat 64 r, next := BitVec.ofNat 32 n } := rfl
@[simp] theorem State.respond_b (s : State) (st : Status) (r n : Nat) :
    (s.respond st r n).b = s.b := rfl
@[simp] theorem State.respond_x (s : State) (st : Status) (r n : Nat) :
    (s.respond st r n).x = s.x := rfl
@[simp] theorem State.respond_runFault (s : State) (st : Status) (r n : Nat) :
    (s.respond st r n).runFault = recordFault st s.runFault := rfl
@[simp] theorem State.respond_draws (s : State) (st : Status) (r n : Nat) :
    (s.respond st r n).draws = s.draws := rfl
@[simp] theorem State.respond_schedule (s : State) (st : Status) (r n : Nat) :
    (s.respond st r n).schedule = s.schedule := rfl

/-! ### a new buffer memory -/

@[simp] theorem State.withB_cfg (s : State) (m : BitMemory) :
    (s.withB m).cfg = s.cfg := rfl
@[simp] theorem State.withB_phase (s : State) (m : BitMemory) :
    (s.withB m).phase = s.phase := rfl
@[simp] theorem State.withB_presented (s : State) (m : BitMemory) :
    (s.withB m).presented = s.presented := rfl
@[simp] theorem State.withB_req (s : State) (m : BitMemory) :
    (s.withB m).req = s.req := rfl
@[simp] theorem State.withB_resp (s : State) (m : BitMemory) :
    (s.withB m).resp = s.resp := rfl
@[simp] theorem State.withB_b (s : State) (m : BitMemory) :
    (s.withB m).b = m := rfl
@[simp] theorem State.withB_x (s : State) (m : BitMemory) :
    (s.withB m).x = s.x := rfl
@[simp] theorem State.withB_runFault (s : State) (m : BitMemory) :
    (s.withB m).runFault = s.runFault := rfl
@[simp] theorem State.withB_draws (s : State) (m : BitMemory) :
    (s.withB m).draws = s.draws := rfl
@[simp] theorem State.withB_schedule (s : State) (m : BitMemory) :
    (s.withB m).schedule = s.schedule := rfl

/-! ### a new partner memory -/

@[simp] theorem State.withX_cfg (s : State) (m : BitMemory) :
    (s.withX m).cfg = s.cfg := rfl
@[simp] theorem State.withX_phase (s : State) (m : BitMemory) :
    (s.withX m).phase = s.phase := rfl
@[simp] theorem State.withX_presented (s : State) (m : BitMemory) :
    (s.withX m).presented = s.presented := rfl
@[simp] theorem State.withX_req (s : State) (m : BitMemory) :
    (s.withX m).req = s.req := rfl
@[simp] theorem State.withX_resp (s : State) (m : BitMemory) :
    (s.withX m).resp = s.resp := rfl
@[simp] theorem State.withX_b (s : State) (m : BitMemory) :
    (s.withX m).b = s.b := rfl
@[simp] theorem State.withX_x (s : State) (m : BitMemory) :
    (s.withX m).x = m := rfl
@[simp] theorem State.withX_runFault (s : State) (m : BitMemory) :
    (s.withX m).runFault = s.runFault := rfl
@[simp] theorem State.withX_draws (s : State) (m : BitMemory) :
    (s.withX m).draws = s.draws := rfl
@[simp] theorem State.withX_schedule (s : State) (m : BitMemory) :
    (s.withX m).schedule = s.schedule := rfl

/-! ### START -/

@[simp] theorem State.latch_cfg (s : State) (r : Request) :
    (s.latch r).cfg = s.cfg := rfl
@[simp] theorem State.latch_phase (s : State) (r : Request) :
    (s.latch r).phase = .busy := rfl
@[simp] theorem State.latch_presented (s : State) (r : Request) :
    (s.latch r).presented = s.presented := rfl
@[simp] theorem State.latch_req (s : State) (r : Request) :
    (s.latch r).req = r := rfl
@[simp] theorem State.latch_resp (s : State) (r : Request) :
    (s.latch r).resp = { s.resp with valid := false } := rfl
@[simp] theorem State.latch_b (s : State) (r : Request) :
    (s.latch r).b = s.b := rfl
@[simp] theorem State.latch_x (s : State) (r : Request) :
    (s.latch r).x = s.x := rfl
@[simp] theorem State.latch_runFault (s : State) (r : Request) :
    (s.latch r).runFault = s.runFault := rfl
@[simp] theorem State.latch_draws (s : State) (r : Request) :
    (s.latch r).draws = s.draws := rfl
@[simp] theorem State.latch_schedule (s : State) (r : Request) :
    (s.latch r).schedule = s.schedule := rfl

/-! ### reset -/

@[simp] theorem State.resetInterface_cfg (s : State) :
    s.resetInterface.cfg = s.cfg := rfl
@[simp] theorem State.resetInterface_phase (s : State) :
    s.resetInterface.phase = .idle := rfl
@[simp] theorem State.resetInterface_presented (s : State) :
    s.resetInterface.presented = s.presented := rfl
@[simp] theorem State.resetInterface_req (s : State) :
    s.resetInterface.req = freeRequest s.draws := rfl
@[simp] theorem State.resetInterface_resp (s : State) :
    s.resetInterface.resp = Response.reset := rfl
@[simp] theorem State.resetInterface_b (s : State) :
    s.resetInterface.b = s.b := rfl
@[simp] theorem State.resetInterface_x (s : State) :
    s.resetInterface.x = s.x := rfl
@[simp] theorem State.resetInterface_runFault (s : State) :
    s.resetInterface.runFault = s.runFault := rfl
@[simp] theorem State.resetInterface_draws (s : State) :
    s.resetInterface.draws = s.draws + 1 := rfl
@[simp] theorem State.resetInterface_schedule (s : State) :
    s.resetInterface.schedule = s.schedule := rfl

/-! ### a failure -/

@[simp] theorem State.failed_cfg (s : State) (st : Status) :
    (s.failed st).cfg = s.cfg := rfl
@[simp] theorem State.failed_phase (s : State) (st : Status) :
    (s.failed st).phase = .idle := rfl
@[simp] theorem State.failed_presented (s : State) (st : Status) :
    (s.failed st).presented = s.presented := rfl
@[simp] theorem State.failed_req (s : State) (st : Status) :
    (s.failed st).req = s.req := rfl
@[simp] theorem State.failed_resp (s : State) (st : Status) :
    (s.failed st).resp = { valid := true, status := st.code, result := 0, next := 0 } := rfl
@[simp] theorem State.failed_b (s : State) (st : Status) :
    (s.failed st).b = s.b := rfl
@[simp] theorem State.failed_x (s : State) (st : Status) :
    (s.failed st).x = s.x := rfl
@[simp] theorem State.failed_runFault (s : State) (st : Status) :
    (s.failed st).runFault = recordFault st s.runFault := rfl
@[simp] theorem State.failed_draws (s : State) (st : Status) :
    (s.failed st).draws = s.draws := rfl
@[simp] theorem State.failed_schedule (s : State) (st : Status) :
    (s.failed st).schedule = s.schedule := rfl

/-! ### a success without a memory change -/

@[simp] theorem State.finished_cfg (s : State) (r : Word64) (n : Word32) :
    (s.finished r n).cfg = s.cfg := rfl
@[simp] theorem State.finished_phase (s : State) (r : Word64) (n : Word32) :
    (s.finished r n).phase = .idle := rfl
@[simp] theorem State.finished_presented (s : State) (r : Word64) (n : Word32) :
    (s.finished r n).presented = s.presented := rfl
@[simp] theorem State.finished_req (s : State) (r : Word64) (n : Word32) :
    (s.finished r n).req = s.req := rfl
@[simp] theorem State.finished_resp (s : State) (r : Word64) (n : Word32) :
    (s.finished r n).resp = { valid := true, status := 0, result := r, next := n } := rfl
@[simp] theorem State.finished_b (s : State) (r : Word64) (n : Word32) :
    (s.finished r n).b = s.b := rfl
@[simp] theorem State.finished_x (s : State) (r : Word64) (n : Word32) :
    (s.finished r n).x = s.x := rfl
@[simp] theorem State.finished_runFault (s : State) (r : Word64) (n : Word32) :
    (s.finished r n).runFault = s.runFault := rfl
@[simp] theorem State.finished_draws (s : State) (r : Word64) (n : Word32) :
    (s.finished r n).draws = s.draws := rfl
@[simp] theorem State.finished_schedule (s : State) (r : Word64) (n : Word32) :
    (s.finished r n).schedule = s.schedule := rfl

/-! ### Relations between the updates -/

/-- The operands read only the request. -/
@[simp] theorem State.withB_offset (s : State) (m : BitMemory) : (s.withB m).offset = s.offset := rfl
@[simp] theorem State.withX_offset (s : State) (m : BitMemory) : (s.withX m).offset = s.offset := rfl
@[simp] theorem State.respond_offset (s : State) (st : Status) (r n : Nat) : (s.respond st r n).offset = s.offset := rfl
@[simp] theorem State.finished_offset (s : State) (r : Word64) (n : Word32) : (s.finished r n).offset = s.offset := rfl

/-- A success records nothing. -/
@[simp] theorem recordFault_ok (old : Option Status) : recordFault .ok old = old := by
  cases old <;> rfl

/-- A malformed varint records nothing (60_exceptions.md rule R147). -/
@[simp] theorem recordFault_malformed (old : Option Status) : recordFault .malformedVarint old = old := by
  cases old <;> rfl

/-- `respond` with OK is `finished`. -/
theorem State.respond_ok (s : State) (r n : Nat) :
    s.respond .ok r n = s.finished (BitVec.ofNat 64 r) (BitVec.ofNat 32 n) := by
  simp only [State.respond, State.finished, recordFault_ok]; rfl

/-- `raise` leads to `failed`. -/
theorem raise_eq (st : Status) (s : State) : raise st s = .next (s.failed st) := rfl

/-- A recorded fault is a programming error if the old record was one. -/
theorem recordFault_kind (st : Status) (old : Option Status)
    (h : ∀ f, old = some f → f.isProgrammingError = true) :
    ∀ f, recordFault st old = some f → f.isProgrammingError = true := by
  intro f hf
  cases old with
  | some g => exact h f (by simpa [recordFault] using hf)
  | none =>
    by_cases hs : st.isProgrammingError = true
    · rw [recordFault, if_pos hs] at hf; cases hf; exact hs
    · rw [recordFault, if_neg hs] at hf; cases hf

/-- Every status code is at most 4 (60_exceptions.md rule R140). -/
theorem Status.code_le (st : Status) : st.code.toNat ≤ 4 := by cases st <;> decide

/-- Different statuses have different codes. -/
theorem Status.code_inj {a b : Status} (h : a.code = b.code) : a = b := by
  revert h; cases a <;> cases b <;> decide

end Sys2Proof.Machine
end

