-- ==== Sys2Proof/Laws/Memory.lean ====
section
/-! SUPPORT. The laws of a `Memory` (read after write, canonical form) and of a `BitMemory` seen as bytes. -/

namespace Sys2Proof.Machine

/-! ### Read after write -/

@[simp] theorem Memory.read_nil (k : Nat) : Memory.read [] k = 0 := rfl

theorem Memory.read_cons (a : Nat) (v : Byte) (rest : Memory) (k : Nat) :
    Memory.read ((a, v) :: rest) k = if k = a then v else Memory.read rest k := rfl

theorem Memory.erase_cons (a : Nat) (v : Byte) (rest : Memory) (k : Nat) :
    Memory.erase ((a, v) :: rest) k = if a = k then Memory.erase rest k else (a, v) :: Memory.erase rest k := by
  by_cases h : a = k <;> simp [Memory.erase, h]

theorem Memory.read_erase (m : Memory) (k j : Nat) : (m.erase k).read j = if j = k then 0 else m.read j := by
  induction m with
  | nil => simp [Memory.erase]
  | cons c rest ih =>
    obtain ⟨a, v⟩ := c
    rw [Memory.erase_cons]
    by_cases hak : a = k
    · rw [if_pos hak, ih, Memory.read_cons]
      by_cases hj : j = k
      · simp [hj]
      · simp [hj, hak]
    · rw [if_neg hak, Memory.read_cons, Memory.read_cons, ih]
      by_cases hj : j = a
      · simp [hj, hak]
      · simp [hj]

theorem Memory.erase_keys (m : Memory) (k : Nat) : ∀ c ∈ m.erase k, c.1 ≠ k := by
  intro c hc
  have := (List.mem_filter.1 hc).2
  simpa using this

theorem Memory.read_place (m : Memory) (k : Nat) (v : Byte) (j : Nat) (h : ∀ c ∈ m, c.1 ≠ k) :
    (m.place k v).read j = if j = k then v else m.read j := by
  induction m with
  | nil => rfl
  | cons c rest ih =>
    obtain ⟨a, w⟩ := c
    have hak : a ≠ k := h (a, w) (by simp)
    have ih := ih (fun c hc => h c (by simp [hc]))
    by_cases hlt : k < a
    · simp only [Memory.place, if_pos hlt]; rfl
    · simp only [Memory.place, if_neg hlt, Memory.read_cons, ih]
      by_cases hj : j = a
      · simp [hj, hak]
      · simp [hj]

/-- A read after a write: the value written at the address, everything else as before. -/
theorem Memory.read_write (m : Memory) (k : Nat) (v : Byte) (j : Nat) :
    (m.write k v).read j = if j = k then v else m.read j := by
  unfold Memory.write
  by_cases hv : v = 0
  · rw [if_pos hv, Memory.read_erase, hv]
  · rw [if_neg hv, Memory.read_place _ _ _ _ (Memory.erase_keys m k), Memory.read_erase]
    by_cases hj : j = k <;> simp [hj]

@[simp] theorem Memory.read_write_same (m : Memory) (k : Nat) (v : Byte) : (m.write k v).read k = v := by
  rw [Memory.read_write, if_pos rfl]

theorem Memory.read_write_ne (m : Memory) (k : Nat) (v : Byte) (j : Nat) (h : j ≠ k) :
    (m.write k v).read j = m.read j := by
  rw [Memory.read_write, if_neg h]

/-! ### Canonical form -/

theorem Memory.wf_cons (a : Nat) (v : Byte) (rest : Memory) :
    Memory.wf ((a, v) :: rest) = true ↔ v ≠ 0 ∧ (∀ c ∈ rest, a < c.1) ∧ Memory.wf rest = true := by
  simp [Memory.wf, and_assoc]

theorem Memory.wf_erase (m : Memory) (k : Nat) (h : m.wf = true) : (m.erase k).wf = true := by
  induction m with
  | nil => rfl
  | cons c rest ih =>
    obtain ⟨a, v⟩ := c
    obtain ⟨hv, hlt, hr⟩ := (Memory.wf_cons a v rest).1 h
    rw [Memory.erase_cons]
    by_cases hak : a = k
    · rw [if_pos hak]; exact ih hr
    · rw [if_neg hak, Memory.wf_cons]
      exact ⟨hv, fun c hc => hlt c (List.mem_filter.1 hc).1, ih hr⟩

theorem Memory.mem_place (m : Memory) (k : Nat) (v : Byte) (c : Host.Cell) :
    c ∈ m.place k v ↔ c = (k, v) ∨ c ∈ m := by
  induction m with
  | nil => simp [Memory.place]
  | cons d rest ih =>
    obtain ⟨a, w⟩ := d
    by_cases hlt : k < a
    · simp [Memory.place, hlt]
    · simp only [Memory.place, hlt, if_false, List.mem_cons, ih]
      constructor <;> rintro (h | h | h) <;> simp [h]

theorem Memory.wf_place (m : Memory) (k : Nat) (v : Byte) (hv : v ≠ 0) (hk : ∀ c ∈ m, c.1 ≠ k)
    (h : m.wf = true) : (m.place k v).wf = true := by
  induction m with
  | nil => exact (Memory.wf_cons k v []).2 ⟨hv, by simp, rfl⟩
  | cons d rest ih =>
    obtain ⟨a, w⟩ := d
    obtain ⟨hw, hlt, hr⟩ := (Memory.wf_cons a w rest).1 h
    have hak : a ≠ k := hk (a, w) (by simp)
    by_cases hka : k < a
    · simp only [Memory.place, if_pos hka]
      refine (Memory.wf_cons _ _ _).2 ⟨hv, ?_, h⟩
      intro c hc
      rcases List.mem_cons.1 hc with rfl | hc
      · exact hka
      · exact Nat.lt_trans hka (hlt c hc)
    · simp only [Memory.place, if_neg hka]
      refine (Memory.wf_cons _ _ _).2 ⟨hw, ?_, ih (fun c hc => hk c (by simp [hc])) hr⟩
      intro c hc
      rcases (Memory.mem_place rest k v c).1 hc with rfl | hc
      · exact Nat.lt_of_le_of_ne (Nat.le_of_not_lt hka) hak
      · exact hlt c hc

/-- A write keeps the canonical form. -/
theorem Memory.wf_write (m : Memory) (k : Nat) (v : Byte) (h : m.wf = true) : (m.write k v).wf = true := by
  unfold Memory.write
  by_cases hv : v = 0
  · rw [if_pos hv]; exact Memory.wf_erase m k h
  · rw [if_neg hv]
    exact Memory.wf_place _ _ _ hv (Memory.erase_keys m k) (Memory.wf_erase m k h)

/-- In a canonical memory an entry is what its address reads as. -/
theorem Memory.read_of_mem (m : Memory) (h : m.wf = true) (a : Nat) (v : Byte) (hm : (a, v) ∈ m) : m.read a = v := by
  induction m with
  | nil => cases hm
  | cons d rest ih =>
    obtain ⟨b, w⟩ := d
    obtain ⟨_, hlt, hr⟩ := (Memory.wf_cons b w rest).1 h
    rcases List.mem_cons.1 hm with he | hm
    · cases he; simp [Memory.read_cons]
    · have hb := hlt _ hm
      simp only at hb
      rw [Memory.read_cons, if_neg (by omega)]
      exact ih hr hm

/-- An address that reads as other than 0 is listed. -/
theorem Memory.mem_of_read (m : Memory) (a : Nat) (h : m.read a ≠ 0) : (a, m.read a) ∈ m := by
  induction m with
  | nil => exact absurd rfl h
  | cons d rest ih =>
    obtain ⟨b, w⟩ := d
    rw [Memory.read_cons] at h ⊢
    by_cases hab : a = b
    · simp [hab]
    · rw [if_neg hab] at h ⊢
      exact List.mem_cons_of_mem _ (ih h)

/-- Entries of a canonical memory are not 0. -/
theorem Memory.ne_zero_of_mem (m : Memory) (h : m.wf = true) : ∀ c ∈ m, c.2 ≠ 0 := by
  induction m with
  | nil => simp
  | cons d rest ih =>
    obtain ⟨b, w⟩ := d
    obtain ⟨hw, _, hr⟩ := (Memory.wf_cons b w rest).1 h
    intro c hc
    rcases List.mem_cons.1 hc with rfl | hc
    · exact hw
    · exact ih hr c hc

/-- Canonical memories that read alike at every address are equal data. -/
theorem Memory.ext_of_read (m n : Memory) (hm : m.wf = true) (hn : n.wf = true)
    (h : ∀ a, m.read a = n.read a) : m = n := by
  have perm : ∀ c, c ∈ m ↔ c ∈ n := by
    have one : ∀ p q : Memory, p.wf = true → q.wf = true → (∀ a, p.read a = q.read a) → ∀ c, c ∈ p → c ∈ q := by
      intro p q hp _ hpq c hc
      obtain ⟨a, v⟩ := c
      have hv := Memory.read_of_mem p hp a v hc
      have hne := Memory.ne_zero_of_mem p hp (a, v) hc
      have hq := Memory.mem_of_read q a (by rw [← hpq, hv]; exact hne)
      rwa [← hpq, hv] at hq
    exact fun c => ⟨one m n hm hn h c, one n m hn hm (fun a => (h a).symm) c⟩
  have sorted : ∀ p : Memory, p.wf = true → p.Pairwise (fun c d => c.1 < d.1) := by
    intro p hp
    induction p with
    | nil => exact List.Pairwise.nil
    | cons d rest ih =>
      obtain ⟨b, w⟩ := d
      obtain ⟨_, hlt, hr⟩ := (Memory.wf_cons b w rest).1 hp
      exact List.pairwise_cons.2 ⟨hlt, ih hr⟩
  have sm := sorted m hm
  have sn := sorted n hn
  have nm : m.Nodup := sm.imp (fun hcd he => by subst he; omega)
  have nn : n.Nodup := sn.imp (fun hcd he => by subst he; omega)
  exact List.Perm.eq_of_pairwise (le := fun c d => c.1 < d.1)
    (fun a b _ _ hab hba => by omega) sm sn ((List.perm_ext_iff_of_nodup nm nn).2 perm)

/-- What the canonical form of a `BitMemory` says, byte by byte. -/
theorem BitMemory.wf_iff (len : Nat) (m : BitMemory) :
    m.wf len = true ↔
      m.value.wf = true ∧ m.known.wf = true ∧ (∀ a, len ≤ a → m.known.read a = 0) ∧
        ∀ a, m.value.read a &&& ~~~(m.known.read a) = 0 := by
  simp only [BitMemory.wf, Bool.and_eq_true, List.all_eq_true, decide_eq_true_eq]
  constructor
  · rintro ⟨⟨⟨hv, hk⟩, hlen⟩, hsub⟩
    refine ⟨hv, hk, fun a ha => ?_, fun a => ?_⟩
    · by_contra hne
      have := hlen _ (Memory.mem_of_read _ _ hne)
      simp only at this
      omega
    · by_cases h0 : m.value.read a = 0
      · simp [h0]
      · exact hsub _ (Memory.mem_of_read _ _ h0)
  · rintro ⟨hv, hk, hlen, hsub⟩
    refine ⟨⟨⟨hv, hk⟩, fun c hc => ?_⟩, fun c hc => ?_⟩
    · by_contra hge
      have h1 := hlen c.1 (by omega)
      have h2 := Memory.read_of_mem _ hk c.1 c.2 hc
      exact Memory.ne_zero_of_mem _ hk c hc (by rw [← h2, h1])
    · have h2 := Memory.read_of_mem _ hv c.1 c.2 hc
      rw [← h2]; exact hsub c.1

/-! ### Bytes of a `BitMemory` -/

/-- Writing a byte: that byte has the value, all of it; every other byte is unchanged. -/
theorem BitMemory.byte_setByte (m : BitMemory) (a : Nat) (v : Byte) (j : Nat) :
    (m.setByte a v).byte j = if j = a then (v, 0xFF) else m.byte j := by
  simp only [BitMemory.byte, BitMemory.setByte, Memory.read_write]
  by_cases h : j = a <;> simp [h]

theorem BitMemory.wf_setByte (len : Nat) (m : BitMemory) (a : Nat) (v : Byte) (ha : a < len)
    (h : m.wf len = true) : (m.setByte a v).wf len = true := by
  obtain ⟨hv, hk, hlen, hsub⟩ := (BitMemory.wf_iff len m).1 h
  refine (BitMemory.wf_iff len _).2 ⟨Memory.wf_write m.value a v hv, Memory.wf_write m.known a 0xFF hk, fun j hj => ?_, fun j => ?_⟩
  · simp only [BitMemory.setByte]
    rw [Memory.read_write_ne _ _ _ _ (by omega)]
    exact hlen j hj
  · simp only [BitMemory.setByte, Memory.read_write]
    by_cases hja : j = a
    · simp [hja]
    · simp only [hja, if_false]; exact hsub j

/-- The byte two memories agree on is the same if its eight bits and their marks are. -/
theorem BitMemory.byte_ext (m n : BitMemory) (a : Nat)
    (hb : ∀ k, k < 8 → m.bit (8 * a + k) = n.bit (8 * a + k))
    (hv : ∀ k, k < 8 → m.hasValue (8 * a + k) = n.hasValue (8 * a + k)) : m.byte a = n.byte a := by
  have hd : ∀ k, k < 8 → (8 * a + k) / 8 = a := fun k hk => by omega
  have hm : ∀ k, k < 8 → (8 * a + k) % 8 = k := fun k hk => by omega
  refine Prod.ext (BitVec.eq_of_getLsbD_eq fun k hk => ?_) (BitVec.eq_of_getLsbD_eq fun k hk => ?_)
  · have := hb k hk
    simpa [BitMemory.bit, BitMemory.byte, hd k hk, hm k hk, byteBit] using this
  · have := hv k hk
    simpa [BitMemory.hasValue, BitMemory.byte, hd k hk, hm k hk, byteBit] using this

/-- A bit is a bit of its byte. -/
theorem BitMemory.bit_of_byte (m : BitMemory) (i : Nat) : m.bit i = (m.byte (i / 8)).1.getLsbD (i % 8) := rfl

theorem BitMemory.hasValue_of_byte (m : BitMemory) (i : Nat) :
    m.hasValue i = (m.byte (i / 8)).2.getLsbD (i % 8) := rfl

end Sys2Proof.Machine
end

