-- ==== Sys2Proof/Laws/Bits.lean ====
section
/-! SUPPORT. The laws of single bits and of bit fields: what `setBit`, `setBits`, `setByte` do to every bit of a memory, and
what `getBits` and `allValued` read (00_scope.md rule R17). -/

namespace Sys2Proof.Machine

/-! ### One byte -/

theorem putBit_getLsbD (v : Byte) (j : Nat) (b : Bool) (k : Nat) (hj : j < 8) (hk : k < 8) :
    byteBit (putBit v j b) k = if k = j then b else byteBit v k := by
  have h2 : (BitVec.ofNat 8 (2 ^ j)).getLsbD k = decide (k = j) := by
    rw [BitVec.getLsbD_ofNat, Nat.testBit_two_pow]
    simp [hk, eq_comm]
  have hb : (BitVec.ofNat 8 (b.toNat <<< j)).getLsbD k = (decide (k = j) && b) := by
    rw [BitVec.getLsbD_ofNat, Nat.testBit_shiftLeft]
    by_cases h : k = j
    · subst h; cases b <;> simp [hk]
    · by_cases hlt : j ≤ k
      · have : (b.toNat).testBit (k - j) = false := by
          have hpos : 1 ≤ k - j := by omega
          cases b
          · simp
          · obtain ⟨d, hd⟩ : ∃ d, k - j = d + 1 := ⟨k - j - 1, by omega⟩
            simp [hd, Nat.testBit_succ]
        simp [h, this]
      · simp [h, hlt]
  simp only [byteBit, putBit, BitVec.getLsbD_or, BitVec.getLsbD_and, BitVec.getLsbD_not, h2, hb]
  by_cases h : k = j <;> simp [h, hk, hj]

/-! ### One bit of a memory -/

theorem BitMemory.bit_setBit (m : BitMemory) (i : Nat) (b : Bool) (j : Nat) :
    (m.setBit i b).bit j = if j = i then b else m.bit j := by
  simp only [BitMemory.bit, BitMemory.setBit, Memory.read_write]
  by_cases hq : j / 8 = i / 8
  · rw [if_pos hq, putBit_getLsbD _ _ _ _ (by omega) (by omega)]
    by_cases hr : j % 8 = i % 8
    · rw [if_pos hr, if_pos (by omega)]
    · rw [if_neg hr, if_neg (by intro h; exact hr (by rw [h])), hq]
  · rw [if_neg hq, if_neg (by intro h; exact hq (by rw [h]))]

theorem BitMemory.hasValue_setBit (m : BitMemory) (i : Nat) (b : Bool) (j : Nat) :
    (m.setBit i b).hasValue j = if j = i then true else m.hasValue j := by
  simp only [BitMemory.hasValue, BitMemory.setBit, Memory.read_write]
  by_cases hq : j / 8 = i / 8
  · rw [if_pos hq, putBit_getLsbD _ _ _ _ (by omega) (by omega)]
    by_cases hr : j % 8 = i % 8
    · rw [if_pos hr, if_pos (by omega)]
    · rw [if_neg hr, if_neg (by intro h; exact hr (by rw [h])), hq]
  · rw [if_neg hq, if_neg (by intro h; exact hq (by rw [h]))]

/-- A bit written stays inside the memory. -/
theorem BitMemory.wf_setBit (len : Nat) (m : BitMemory) (i : Nat) (b : Bool) (hi : i < 8 * len)
    (h : m.wf len = true) : (m.setBit i b).wf len = true := by
  obtain ⟨hv, hk, hlen, hsub⟩ := (BitMemory.wf_iff len m).1 h
  refine (BitMemory.wf_iff len _).2
    ⟨Memory.wf_write m.value _ _ hv, Memory.wf_write m.known _ _ hk, fun a ha => ?_, fun a => ?_⟩
  · simp only [BitMemory.setBit]
    rw [Memory.read_write_ne _ _ _ _ (by omega)]
    exact hlen a ha
  · refine BitVec.eq_of_getLsbD_eq fun k hk8 => ?_
    have e1 : ((m.setBit i b).value.read a).getLsbD k = (m.setBit i b).bit (8 * a + k) := by
      simp [BitMemory.bit, byteBit, show (8 * a + k) / 8 = a by omega, show (8 * a + k) % 8 = k by omega]
    have e2 : ((m.setBit i b).known.read a).getLsbD k = (m.setBit i b).hasValue (8 * a + k) := by
      simp [BitMemory.hasValue, byteBit, show (8 * a + k) / 8 = a by omega, show (8 * a + k) % 8 = k by omega]
    have e3 := congrArg (fun v => v.getLsbD k) (hsub a)
    have e4 : (m.value.read a).getLsbD k = m.bit (8 * a + k) := by
      simp [BitMemory.bit, byteBit, show (8 * a + k) / 8 = a by omega, show (8 * a + k) % 8 = k by omega]
    have e5 : (m.known.read a).getLsbD k = m.hasValue (8 * a + k) := by
      simp [BitMemory.hasValue, byteBit, show (8 * a + k) / 8 = a by omega, show (8 * a + k) % 8 = k by omega]
    simp only [BitVec.getLsbD_and, BitVec.getLsbD_not, e4, e5] at e3
    simp only [BitVec.getLsbD_and, BitVec.getLsbD_not, e1, e2, BitMemory.bit_setBit, BitMemory.hasValue_setBit]
    by_cases hh : 8 * a + k = i
    · simp [hh]
    · simpa [hh] using e3

/-! ### A whole byte, bit by bit -/

theorem BitMemory.bit_setByte (m : BitMemory) (a : Nat) (v : Byte) (j : Nat) :
    (m.setByte a v).bit j = if j / 8 = a then v.getLsbD (j % 8) else m.bit j := by
  rw [BitMemory.bit_of_byte, BitMemory.byte_setByte]
  by_cases h : j / 8 = a
  · rw [if_pos h, if_pos h]
  · rw [if_neg h, if_neg h]; rfl

theorem BitMemory.hasValue_setByte (m : BitMemory) (a : Nat) (v : Byte) (j : Nat) :
    (m.setByte a v).hasValue j = if j / 8 = a then true else m.hasValue j := by
  rw [BitMemory.hasValue_of_byte, BitMemory.byte_setByte]
  by_cases h : j / 8 = a
  · rw [if_pos h, if_pos h]
    have : ∀ k, k < 8 → (0xFF : Byte).getLsbD k = true := by decide
    exact this _ (by omega)
  · rw [if_neg h, if_neg h]; rfl

/-! ### Fields -/

/-- `SetBits` changes the field's bits and nothing else (00_scope.md rule R17). -/
theorem BitMemory.bit_setBits (m : BitMemory) (off w v j : Nat) :
    (m.setBits off w v).bit j = if off ≤ j ∧ j < off + w then v.testBit (j - off) else m.bit j := by
  induction w with
  | zero => rw [if_neg (by omega)]; rfl
  | succ k ih =>
    simp only [BitMemory.setBits, BitMemory.bit_setBit, ih]
    by_cases hj : j = off + k
    · rw [if_pos hj, if_pos (by omega), hj, Nat.add_sub_cancel_left]
    · rw [if_neg hj]
      by_cases hin : off ≤ j ∧ j < off + k
      · rw [if_pos hin, if_pos (by omega)]
      · rw [if_neg hin, if_neg (by omega)]

/-- `SetBits` gives the field's bits a value and no other (70_reset_and_hazards.md rule R163). -/
theorem BitMemory.hasValue_setBits (m : BitMemory) (off w v j : Nat) :
    (m.setBits off w v).hasValue j = if off ≤ j ∧ j < off + w then true else m.hasValue j := by
  induction w with
  | zero => rw [if_neg (by omega)]; rfl
  | succ k ih =>
    simp only [BitMemory.setBits, BitMemory.hasValue_setBit, ih]
    by_cases hj : j = off + k
    · rw [if_pos hj, if_pos (by omega)]
    · rw [if_neg hj]
      by_cases hin : off ≤ j ∧ j < off + k
      · rw [if_pos hin, if_pos (by omega)]
      · rw [if_neg hin, if_neg (by omega)]

theorem BitMemory.wf_setBits (len : Nat) (m : BitMemory) (off w v : Nat) (hw : off + w ≤ 8 * len)
    (h : m.wf len = true) : (m.setBits off w v).wf len = true := by
  induction w with
  | zero => exact h
  | succ k ih => exact BitMemory.wf_setBit len _ _ _ (by omega) (ih (by omega))

/-- Only the low `w` bits of the value matter. -/
theorem BitMemory.setBits_congr (m : BitMemory) (off w u v : Nat) (h : ∀ k, k < w → u.testBit k = v.testBit k) :
    m.setBits off w u = m.setBits off w v := by
  induction w with
  | zero => rfl
  | succ k ih =>
    simp only [BitMemory.setBits]
    rw [ih (fun j hj => h j (by omega)), h k (by omega)]

theorem testBit_and_mask (v w k : Nat) : (v &&& mask w).testBit k = (decide (k < w) && v.testBit k) := by
  rw [mask, Nat.testBit_and, Nat.testBit_two_pow_sub_one, Bool.and_comm]

theorem BitMemory.setBits_mask (m : BitMemory) (off w v : Nat) :
    m.setBits off w (v &&& mask w) = m.setBits off w v :=
  BitMemory.setBits_congr m off w _ v (fun k hk => by rw [testBit_and_mask]; simp [hk])

/-- A field written in two parts. -/
theorem BitMemory.setBits_add (m : BitMemory) (off a c v : Nat) :
    m.setBits off (a + c) v = (m.setBits off a v).setBits (off + a) c (v >>> a) := by
  induction c with
  | zero => rfl
  | succ k ih =>
    rw [← Nat.add_assoc]
    simp only [BitMemory.setBits]
    rw [ih, Nat.testBit_shiftRight, Nat.add_assoc]

theorem BitMemory.getBits_lt (m : BitMemory) (off w : Nat) : m.getBits off w < 2 ^ w := by
  induction w with
  | zero => simp [BitMemory.getBits]
  | succ k ih =>
    simp only [BitMemory.getBits, Nat.pow_succ]
    cases m.bit (off + k) <;> simp <;> omega

/-- `GetBits` read bit by bit (00_scope.md rule R17). -/
theorem BitMemory.testBit_getBits (m : BitMemory) (off w k : Nat) :
    (m.getBits off w).testBit k = (decide (k < w) && m.bit (off + k)) := by
  induction w with
  | zero => simp [BitMemory.getBits]
  | succ n ih =>
    have hlt := m.getBits_lt off n
    rw [BitMemory.getBits, Nat.add_comm, Nat.mul_comm, Nat.testBit_two_pow_mul_add _ hlt, ih]
    by_cases hk : k < n
    · simp [hk, show k < n + 1 by omega]
    · by_cases he : k = n
      · subst he; cases m.bit (off + k) <;> simp
      · have : k - n ≠ 0 := by omega
        obtain ⟨d, hd⟩ := Nat.exists_eq_succ_of_ne_zero this
        cases m.bit (off + n) <;> simp [hk, show ¬ k < n + 1 by omega, hd, Nat.testBit_succ]

/-- Fields that agree bit by bit are equal. -/
theorem BitMemory.getBits_congr (m n : BitMemory) (p q w : Nat)
    (h : ∀ k, k < w → m.bit (p + k) = n.bit (q + k)) : m.getBits p w = n.getBits q w := by
  induction w with
  | zero => rfl
  | succ k ih => simp only [BitMemory.getBits]; rw [ih (fun j hj => h j (by omega)), h k (by omega)]

/-- Reading back what `SetBits` wrote. -/
theorem BitMemory.getBits_setBits (m : BitMemory) (off w v : Nat) :
    (m.setBits off w v).getBits off w = v % 2 ^ w := by
  refine Nat.eq_of_testBit_eq fun k => ?_
  rw [BitMemory.testBit_getBits, Nat.testBit_mod_two_pow, BitMemory.bit_setBits]
  by_cases hk : k < w
  · rw [if_pos (by omega), Nat.add_sub_cancel_left]
  · simp [hk]

/-- Every bit of the field has a value. -/
theorem BitMemory.allValued_iff (m : BitMemory) (off w : Nat) :
    m.allValued off w = true ↔ ∀ k, k < w → m.hasValue (off + k) = true := by
  induction w with
  | zero => simp [BitMemory.allValued]
  | succ n ih =>
    simp only [BitMemory.allValued, Bool.and_eq_true, ih]
    constructor
    · rintro ⟨h1, h2⟩ k hk
      by_cases he : k = n
      · rw [he]; exact h2
      · exact h1 k (by omega)
    · exact fun h => ⟨fun k hk => h k (by omega), h n (by omega)⟩

theorem BitMemory.allValued_setBits (m : BitMemory) (off w v : Nat) :
    (m.setBits off w v).allValued off w = true := by
  rw [BitMemory.allValued_iff]
  intro k hk
  rw [BitMemory.hasValue_setBits, if_pos (by omega)]

end Sys2Proof.Machine
end

