-- ==== Sys2Proof/Laws/Ops.lean ====
section
/-! SUPPORT. What each operation of the families does, said once: byte reversal, chunked wide fields, byte runs, and the
varint loops. -/

namespace Sys2Proof.Machine

/-! ### Byte reversal (00_scope.md rule R18) -/

theorem reverseBytes_lt (n v : Nat) : reverseBytes n v < 2 ^ (8 * n) := by
  induction n generalizing v with
  | zero => simp [reverseBytes]
  | succ n ih =>
    have h1 := ih (v / 256)
    have h2 : v % 256 < 256 := Nat.mod_lt _ (by decide)
    have h3 : (256 : Nat) ^ n = 2 ^ (8 * n) := by rw [Nat.pow_mul]
    have h4 : 2 ^ (8 * (n + 1)) = 2 ^ (8 * n) * 256 := by rw [Nat.mul_succ, Nat.pow_add]
    rw [reverseBytes, h3, h4]
    calc v % 256 * 2 ^ (8 * n) + reverseBytes n (v / 256)
        < v % 256 * 2 ^ (8 * n) + 2 ^ (8 * n) := by omega
      _ = (v % 256 + 1) * 2 ^ (8 * n) := by rw [Nat.add_mul, Nat.one_mul]
      _ ≤ 256 * 2 ^ (8 * n) := Nat.mul_le_mul_right _ (by omega)
      _ = 2 ^ (8 * n) * 256 := Nat.mul_comm _ _

/-- Bit `k` of the reversal is the same bit of the mirrored byte. -/
theorem testBit_reverseBytes (n v k : Nat) :
    (reverseBytes n v).testBit k = (decide (k < 8 * n) && v.testBit (8 * (n - 1 - k / 8) + k % 8)) := by
  induction n generalizing v k with
  | zero => simp [reverseBytes]
  | succ n ih =>
    have h3 : (256 : Nat) ^ n = 2 ^ (8 * n) := by rw [Nat.pow_mul]
    rw [reverseBytes, h3, Nat.mul_comm, Nat.testBit_two_pow_mul_add _ (reverseBytes_lt n (v / 256))]
    by_cases hk : k < 8 * n
    · rw [if_pos hk, ih, show (256 : Nat) = 2 ^ 8 from rfl, Nat.testBit_div_two_pow]
      rw [show 8 * (n - 1 - k / 8) + k % 8 + 8 = 8 * (n + 1 - 1 - k / 8) + k % 8 by omega]
      simp [hk, show k < 8 * (n + 1) by omega]
    · rw [if_neg hk, show (256 : Nat) = 2 ^ 8 from rfl, Nat.testBit_mod_two_pow]
      by_cases hk2 : k < 8 * (n + 1)
      · rw [show 8 * (n + 1 - 1 - k / 8) + k % 8 = k - 8 * n by omega]
        simp [hk2, show k - 8 * n < 8 by omega]
      · simp [hk2, show ¬ k - 8 * n < 8 by omega]

theorem reverseBytes_reverseBytes (n v : Nat) : reverseBytes n (reverseBytes n v) = v % 2 ^ (8 * n) := by
  refine Nat.eq_of_testBit_eq fun k => ?_
  rw [testBit_reverseBytes, testBit_reverseBytes, Nat.testBit_mod_two_pow]
  by_cases hk : k < 8 * n
  · rw [show 8 * (n - 1 - (8 * (n - 1 - k / 8) + k % 8) / 8) + (8 * (n - 1 - k / 8) + k % 8) % 8 = k by omega]
    simp [hk, show 8 * (n - 1 - k / 8) + k % 8 < 8 * n by omega]
  · simp [hk]

/-- The type widths of the wide commands are whole bytes. -/
def isTypeWidth (bits : Nat) : Prop := bits = 16 ∨ bits = 32 ∨ bits = 64

theorem isTypeWidth.eight_mul {bits : Nat} (h : isTypeWidth bits) : 8 * (bits / 8) = bits := by
  rcases h with rfl | rfl | rfl <;> rfl

theorem isTypeWidth.le {bits : Nat} (h : isTypeWidth bits) : bits ≤ 64 := by
  rcases h with rfl | rfl | rfl <;> decide

theorem bswap_bswap {bits : Nat} (h : isTypeWidth bits) (v : Nat) : bswap bits (bswap bits v) = v % 2 ^ bits := by
  rw [bswap, bswap, reverseBytes_reverseBytes, h.eight_mul]

theorem bswap_lt {bits : Nat} (h : isTypeWidth bits) (v : Nat) : bswap bits v < 2 ^ bits := by
  have := reverseBytes_lt (bits / 8) v
  rwa [h.eight_mul] at this

theorem testBit_bswap {bits : Nat} (h : isTypeWidth bits) (v k : Nat) :
    (bswap bits v).testBit k = (decide (k < bits) && v.testBit (8 * (bits / 8 - 1 - k / 8) + k % 8)) := by
  rw [bswap, testBit_reverseBytes, h.eight_mul]

theorem reorder_lt {bits : Nat} (h : isTypeWidth bits) (e : Endian) (v : Nat) (hv : v < 2 ^ bits) :
    reorder e bits v < 2 ^ bits := by
  cases e
  · exact hv
  · exact bswap_lt h v

/-! ### Chunked wide fields (42_wide_integer.md rules R100 and R104) -/

theorem testBit_readChunks (m : BitMemory) (o w j k : Nat) :
    (readChunks m o w j).testBit k = (decide (k < w) && decide (k < 8 * j) && m.bit (o + k)) := by
  induction j with
  | zero => simp [readChunks]
  | succ n ih =>
    rw [readChunks, Nat.testBit_or, Nat.testBit_shiftLeft, BitMemory.testBit_getBits, ih]
    by_cases hge : 8 * n ≤ k
    · rw [show o + 8 * n + (k - 8 * n) = o + k by omega]
      by_cases hw : k < w <;> by_cases h1 : k < 8 * (n + 1) <;>
        simp [hw, h1, hge, show ¬ k < 8 * n by omega] <;> omega
    · simp [hge, show k < 8 * n by omega, show k < 8 * (n + 1) by omega]

/-- "now v = GetBits(o, w)" (42_wide_integer.md rule R100). -/
theorem readChunks_all (m : BitMemory) (o w : Nat) : readChunks m o w ((w + 7) / 8) = m.getBits o w := by
  refine Nat.eq_of_testBit_eq fun k => ?_
  rw [testBit_readChunks, BitMemory.testBit_getBits]
  by_cases hk : k < w
  · simp [hk, show k < 8 * ((w + 7) / 8) by omega]
  · simp [hk]

theorem writeChunks_eq (m : BitMemory) (o w v j : Nat) :
    writeChunks m o w v j = m.setBits o (min w (8 * j)) v := by
  induction j with
  | zero => simp [writeChunks, BitMemory.setBits]
  | succ n ih =>
    rw [writeChunks, ih, BitMemory.setBits_mask]
    by_cases h : w ≤ 8 * n
    · rw [show min 8 (w - 8 * n) = 0 by omega, show min w (8 * (n + 1)) = min w (8 * n) by omega]; rfl
    · rw [show min w (8 * n) = 8 * n by omega, ← BitMemory.setBits_add,
        show 8 * n + min 8 (w - 8 * n) = min w (8 * (n + 1)) by omega]

/-- "the effect equals SetBits(o, w, s AND mask(w))" (42_wide_integer.md rule R104). -/
theorem writeChunks_all (m : BitMemory) (o w v : Nat) : writeChunks m o w v ((w + 7) / 8) = m.setBits o w v := by
  rw [writeChunks_eq, show min w (8 * ((w + 7) / 8)) = w by omega]

/-! ### Byte runs (41_byte_run.md rules R90 and R91) -/

/-- Every byte of the partner memory after an RDBYTES run. -/
theorem byte_copyOut (b : BitMemory) (o x n : Nat) (dst : BitMemory) (a : Nat) :
    (copyOut b o x n dst).byte a =
      if x ≤ a ∧ a < x + n then (BitVec.ofNat 8 (b.getBits (o + 8 * (a - x)) 8), 0xFF) else dst.byte a := by
  induction n with
  | zero => rw [if_neg (by omega)]; rfl
  | succ i ih =>
    rw [copyOut, BitMemory.byte_setByte, ih]
    by_cases ha : a = x + i
    · rw [if_pos ha, if_pos (by omega), ha, Nat.add_sub_cancel_left]
    · rw [if_neg ha]
      by_cases hin : x ≤ a ∧ a < x + i
      · rw [if_pos hin, if_pos (by omega)]
      · rw [if_neg hin, if_neg (by omega)]

theorem wf_copyOut (len : Nat) (b : BitMemory) (o x n : Nat) (dst : BitMemory) (hn : x + n ≤ len)
    (h : dst.wf len = true) : (copyOut b o x n dst).wf len = true := by
  induction n with
  | zero => exact h
  | succ i ih => exact BitMemory.wf_setByte len _ _ _ (by omega) (ih (by omega))

/-- Every bit of the buffer after a WRBYTES run. -/
theorem bit_copyIn (src : BitMemory) (o x n : Nat) (dst : BitMemory) (j : Nat) :
    (copyIn src o x n dst).bit j =
      if o ≤ j ∧ j < o + 8 * n then src.bit (8 * x + (j - o)) else dst.bit j := by
  induction n with
  | zero => rw [if_neg (by omega)]; rfl
  | succ i ih =>
    rw [copyIn, BitMemory.bit_setBits, ih]
    by_cases hin : o + 8 * i ≤ j ∧ j < o + 8 * i + 8
    · rw [if_pos hin, if_pos (by omega), BitMemory.bit, byteBit, show (8 * x + (j - o)) / 8 = x + i by omega,
        show (8 * x + (j - o)) % 8 = j - (o + 8 * i) by omega, BitVec.testBit_toNat]
    · rw [if_neg hin]
      by_cases hlo : o ≤ j ∧ j < o + 8 * i
      · rw [if_pos hlo, if_pos (by omega)]
      · rw [if_neg hlo, if_neg (by omega)]

theorem hasValue_copyIn (src : BitMemory) (o x n : Nat) (dst : BitMemory) (j : Nat) :
    (copyIn src o x n dst).hasValue j = if o ≤ j ∧ j < o + 8 * n then true else dst.hasValue j := by
  induction n with
  | zero => rw [if_neg (by omega)]; rfl
  | succ i ih =>
    rw [copyIn, BitMemory.hasValue_setBits, ih]
    by_cases hin : o + 8 * i ≤ j ∧ j < o + 8 * i + 8
    · rw [if_pos hin, if_pos (by omega)]
    · rw [if_neg hin]
      by_cases hlo : o ≤ j ∧ j < o + 8 * i
      · rw [if_pos hlo, if_pos (by omega)]
      · rw [if_neg hlo, if_neg (by omega)]

theorem wf_copyIn (len : Nat) (src : BitMemory) (o x n : Nat) (dst : BitMemory) (hn : o + 8 * n ≤ 8 * len)
    (h : dst.wf len = true) : (copyIn src o x n dst).wf len = true := by
  induction n with
  | zero => exact h
  | succ i ih => exact BitMemory.wf_setBits len _ _ _ _ (by omega) (ih (by omega))

/-! ### Varints (43_varint.md) -/

/-- Every byte after a list of bytes is written. -/
theorem byte_writeBytes (m : BitMemory) (o : Nat) (l : List Byte) (a : Nat) :
    (writeBytes m o l).byte a =
      if o ≤ a ∧ a < o + l.length then (l.getD (a - o) 0, 0xFF) else m.byte a := by
  induction l generalizing m o with
  | nil => rw [if_neg (by simp)]; rfl
  | cons v rest ih =>
    rw [writeBytes, ih, BitMemory.byte_setByte]
    by_cases ha : a = o
    · subst ha
      rw [if_neg (by omega), if_pos rfl, if_pos (by simp), Nat.sub_self]
      rfl
    · rw [if_neg ha, List.length_cons]
      by_cases hin : o + 1 ≤ a ∧ a < o + 1 + rest.length
      · rw [if_pos hin, if_pos (by omega), show a - o = (a - (o + 1)) + 1 by omega, List.getD_cons_succ]
      · rw [if_neg hin, if_neg (by omega)]

theorem wf_writeBytes (len : Nat) (m : BitMemory) (o : Nat) (l : List Byte) (hl : o + l.length ≤ len)
    (h : m.wf len = true) : (writeBytes m o l).wf len = true := by
  induction l generalizing m o with
  | nil => exact h
  | cons v rest ih =>
    simp only [List.length_cons] at hl
    exact ih _ _ (by omega) (BitMemory.wf_setByte len m o v (by omega) h)

/-- WRVAR's loop writes `VarLen` bytes (43_varint.md rule R123). -/
theorem length_varBytes (v : Nat) (h : v < 2 ^ 32) : (varBytes 4 v).length = varLen v := by
  simp only [varBytes, varLen, Nat.shiftRight_eq_div_pow]
  split_ifs <;> simp <;> omega

/-- The list `varBytes` with any fuel has between 1 and `fuel + 1` bytes. -/
theorem length_varBytes_le (fuel v : Nat) : 1 ≤ (varBytes fuel v).length ∧ (varBytes fuel v).length ≤ fuel + 1 := by
  induction fuel generalizing v with
  | zero => simp [varBytes]
  | succ n ih =>
    rw [varBytes]
    split_ifs
    · have := ih (v >>> 7); simp; omega
    · simp

theorem varLen_le (v : Nat) : 1 ≤ varLen v ∧ varLen v ≤ 5 := by
  unfold varLen; split_ifs <;> omega

end Sys2Proof.Machine
end

