-- ==== Sys2Proof/Laws/Exec.lean ====
section
/-! SUPPORT. What each command can do, said once: the cases of every meaning in order of its checks, and the shape of every
outcome.  Later proofs cite these and do not unfold the meanings. -/

namespace Sys2Proof.Machine

/-! ### The operands' checks -/

theorem State.fieldPastEnd_iff (s : State) (w : Nat) :
    s.fieldPastEnd w = true ↔ 8 * s.cfg.bufLen < s.offset + w := by
  simp [State.fieldPastEnd]

theorem State.runPastEnd_iff (s : State) :
    s.runPastEnd = true ↔
      8 * s.cfg.bufLen < s.offset + 8 * s.count ∨ s.cfg.xferLen < s.xoff + s.count := by
  simp [State.runPastEnd]

theorem State.data_lt (s : State) (n : Nat) : s.data n < 2 ^ n := Nat.mod_lt _ (Nat.two_pow_pos n)

theorem State.testBit_data (s : State) (n k : Nat) :
    (s.data n).testBit k = (decide (k < n) && s.req.data.getLsbD k) := by
  rw [State.data, Nat.testBit_mod_two_pow, BitVec.testBit_toNat]

/-! ### The twelve meanings, case by case -/

/-- RDBITS in the order of its checks (40_bit_packing.md rule R80). -/
theorem execRdbits_cases (w : Nat) (s : State) :
    ((w < 1 ∨ 8 < w) ∧ execRdbits w s = .next (s.failed .contractViolation)) ∨
    (1 ≤ w ∧ w ≤ 8 ∧ 8 * s.cfg.bufLen < s.offset + w ∧ execRdbits w s = .next (s.failed .boundsViolation)) ∨
    (1 ≤ w ∧ w ≤ 8 ∧ s.offset + w ≤ 8 * s.cfg.bufLen ∧ s.b.allValued s.offset w = true ∧
      execRdbits w s = .next (s.finished (BitVec.ofNat 64 (s.b.getBits s.offset w)) 0)) ∨
    (1 ≤ w ∧ w ≤ 8 ∧ s.offset + w ≤ 8 * s.cfg.bufLen ∧ s.b.allValued s.offset w = false ∧
      execRdbits w s = .fault .readWithoutValue) := by
  unfold execRdbits
  by_cases h1 : w < 1 ∨ 8 < w
  · exact .inl ⟨h1, by rw [if_pos h1, raise_eq]⟩
  rw [if_neg h1]
  by_cases h2 : s.fieldPastEnd w = true
  · exact .inr (.inl ⟨by omega, by omega, (s.fieldPastEnd_iff w).1 h2, by rw [if_pos h2, raise_eq]⟩)
  rw [if_neg h2]
  have hb : s.offset + w ≤ 8 * s.cfg.bufLen := by rw [State.fieldPastEnd_iff] at h2; omega
  by_cases h3 : s.b.allValued s.offset w = true
  · exact .inr (.inr (.inl ⟨by omega, by omega, hb, h3, by rw [if_pos h3, State.respond_ok]; rfl⟩))
  · exact .inr (.inr (.inr ⟨by omega, by omega, hb, by simpa using h3, by rw [if_neg h3]⟩))

/-- WRBITS in the order of its checks (40_bit_packing.md rule R81). -/
theorem execWrbits_cases (w : Nat) (s : State) :
    (8 < w ∧ execWrbits w s = .next (s.failed .contractViolation)) ∨
    (w = 0 ∧ execWrbits w s = .next (s.finished 0 0)) ∨
    (1 ≤ w ∧ w ≤ 8 ∧ 8 * s.cfg.bufLen < s.offset + w ∧ execWrbits w s = .next (s.failed .boundsViolation)) ∨
    (1 ≤ w ∧ w ≤ 8 ∧ s.offset + w ≤ 8 * s.cfg.bufLen ∧
      execWrbits w s = .next ((s.withB (s.b.setBits s.offset w (s.data 8))).finished 0 0)) := by
  unfold execWrbits
  by_cases h1 : 8 < w
  · exact .inl ⟨h1, by rw [if_pos h1, raise_eq]⟩
  rw [if_neg h1]
  by_cases h0 : w = 0
  · exact .inr (.inl ⟨h0, by rw [if_pos h0, State.respond_ok]; rfl⟩)
  rw [if_neg h0]
  by_cases h2 : s.fieldPastEnd w = true
  · exact .inr (.inr (.inl ⟨by omega, by omega, (s.fieldPastEnd_iff w).1 h2, by rw [if_pos h2, raise_eq]⟩))
  rw [if_neg h2, BitMemory.setBits_mask]
  have hb : s.offset + w ≤ 8 * s.cfg.bufLen := by rw [State.fieldPastEnd_iff] at h2; omega
  exact .inr (.inr (.inr ⟨by omega, by omega, hb, by rw [State.respond_ok]; rfl⟩))

/-- The three wide reads in the order of their checks (42_wide_integer.md rule R100). -/
theorem wideRead_cases (bits w : Nat) (s : State) :
    ((w < 1 ∨ bits < w) ∧ wideRead bits w s = .next (s.failed .contractViolation)) ∨
    (1 ≤ w ∧ w ≤ bits ∧ 8 * s.cfg.bufLen < s.offset + w ∧ wideRead bits w s = .next (s.failed .boundsViolation)) ∨
    (1 ≤ w ∧ w ≤ bits ∧ s.offset + w ≤ 8 * s.cfg.bufLen ∧ s.b.allValued s.offset w = true ∧
      wideRead bits w s =
        .next (s.finished (BitVec.ofNat 64 (reorder s.cfg.endian bits (s.b.getBits s.offset w))) 0)) ∨
    (1 ≤ w ∧ w ≤ bits ∧ s.offset + w ≤ 8 * s.cfg.bufLen ∧ s.b.allValued s.offset w = false ∧
      wideRead bits w s = .fault .readWithoutValue) := by
  unfold wideRead
  by_cases h1 : w < 1 ∨ bits < w
  · exact .inl ⟨h1, by rw [if_pos h1, raise_eq]⟩
  rw [if_neg h1]
  by_cases h2 : s.fieldPastEnd w = true
  · exact .inr (.inl ⟨by omega, by omega, (s.fieldPastEnd_iff w).1 h2, by rw [if_pos h2, raise_eq]⟩)
  rw [if_neg h2]
  have hb : s.offset + w ≤ 8 * s.cfg.bufLen := by rw [State.fieldPastEnd_iff] at h2; omega
  by_cases h3 : s.b.allValued s.offset w = true
  · exact .inr (.inr (.inl ⟨by omega, by omega, hb, h3, by rw [if_pos h3, State.respond_ok, readChunks_all]; rfl⟩))
  · exact .inr (.inr (.inr ⟨by omega, by omega, hb, by simpa using h3, by rw [if_neg h3]⟩))

/-- The three wide writes in the order of their checks (42_wide_integer.md rule R104). -/
theorem wideWrite_cases (bits w : Nat) (s : State) :
    (bits < w ∧ wideWrite bits w s = .next (s.failed .contractViolation)) ∨
    (w ≤ bits ∧ w = 0 ∧ wideWrite bits w s = .next (s.finished 0 (BitVec.ofNat 32 s.offset))) ∨
    (1 ≤ w ∧ w ≤ bits ∧ 8 * s.cfg.bufLen < s.offset + w ∧ wideWrite bits w s = .next (s.failed .boundsViolation)) ∨
    (1 ≤ w ∧ w ≤ bits ∧ s.offset + w ≤ 8 * s.cfg.bufLen ∧
      wideWrite bits w s =
        .next ((s.withB (s.b.setBits s.offset w (reorder s.cfg.endian bits (s.data bits)))).finished 0
          (BitVec.ofNat 32 (s.offset + w)))) := by
  unfold wideWrite
  by_cases h1 : bits < w
  · exact .inl ⟨h1, by rw [if_pos h1, raise_eq]⟩
  rw [if_neg h1]
  by_cases h0 : w = 0
  · exact .inr (.inl ⟨by omega, h0, by rw [if_pos h0, State.respond_ok]; rfl⟩)
  rw [if_neg h0]
  by_cases h2 : s.fieldPastEnd w = true
  · exact .inr (.inr (.inl ⟨by omega, by omega, (s.fieldPastEnd_iff w).1 h2, by rw [if_pos h2, raise_eq]⟩))
  rw [if_neg h2, writeChunks_all]
  have hb : s.offset + w ≤ 8 * s.cfg.bufLen := by rw [State.fieldPastEnd_iff] at h2; omega
  exact .inr (.inr (.inr ⟨by omega, by omega, hb, by rw [State.respond_ok]; rfl⟩))

/-- RDBYTES in the order of its checks (41_byte_run.md rule R90). -/
theorem execRdbytes_cases (s : State) :
    (s.count = 0 ∧ execRdbytes s = .next (s.finished 0 0)) ∨
    (1 ≤ s.count ∧ (8 * s.cfg.bufLen < s.offset + 8 * s.count ∨ s.cfg.xferLen < s.xoff + s.count) ∧
      execRdbytes s = .next (s.failed .boundsViolation)) ∨
    (1 ≤ s.count ∧ s.offset + 8 * s.count ≤ 8 * s.cfg.bufLen ∧ s.xoff + s.count ≤ s.cfg.xferLen ∧
      s.b.allValued s.offset (8 * s.count) = true ∧
      execRdbytes s = .next ((s.withX (copyOut s.b s.offset s.xoff s.count s.x)).finished 0 0)) ∨
    (1 ≤ s.count ∧ s.offset + 8 * s.count ≤ 8 * s.cfg.bufLen ∧ s.xoff + s.count ≤ s.cfg.xferLen ∧
      s.b.allValued s.offset (8 * s.count) = false ∧ execRdbytes s = .fault .copyWithoutValue) := by
  unfold execRdbytes
  by_cases h0 : s.count = 0
  · exact .inl ⟨h0, by rw [if_pos h0, State.respond_ok]; rfl⟩
  rw [if_neg h0]
  by_cases h2 : s.runPastEnd = true
  · exact .inr (.inl ⟨by omega, s.runPastEnd_iff.1 h2, by rw [if_pos h2, raise_eq]⟩)
  rw [if_neg h2]
  rw [State.runPastEnd_iff] at h2
  by_cases h3 : s.b.allValued s.offset (8 * s.count) = true
  · exact .inr (.inr (.inl ⟨by omega, by omega, by omega, h3, by rw [if_pos h3, State.respond_ok]; rfl⟩))
  · exact .inr (.inr (.inr ⟨by omega, by omega, by omega, by simpa using h3, by rw [if_neg h3]⟩))

/-- WRBYTES in the order of its checks (41_byte_run.md rule R91). -/
theorem execWrbytes_cases (s : State) :
    (s.count = 0 ∧ execWrbytes s = .next (s.finished 0 0)) ∨
    (1 ≤ s.count ∧ (8 * s.cfg.bufLen < s.offset + 8 * s.count ∨ s.cfg.xferLen < s.xoff + s.count) ∧
      execWrbytes s = .next (s.failed .boundsViolation)) ∨
    (1 ≤ s.count ∧ s.offset + 8 * s.count ≤ 8 * s.cfg.bufLen ∧ s.xoff + s.count ≤ s.cfg.xferLen ∧
      s.x.allValued (8 * s.xoff) (8 * s.count) = true ∧
      execWrbytes s = .next ((s.withB (copyIn s.x s.offset s.xoff s.count s.b)).finished 0 0)) ∨
    (1 ≤ s.count ∧ s.offset + 8 * s.count ≤ 8 * s.cfg.bufLen ∧ s.xoff + s.count ≤ s.cfg.xferLen ∧
      s.x.allValued (8 * s.xoff) (8 * s.count) = false ∧ execWrbytes s = .fault .copyWithoutValue) := by
  unfold execWrbytes
  by_cases h0 : s.count = 0
  · exact .inl ⟨h0, by rw [if_pos h0, State.respond_ok]; rfl⟩
  rw [if_neg h0]
  by_cases h2 : s.runPastEnd = true
  · exact .inr (.inl ⟨by omega, s.runPastEnd_iff.1 h2, by rw [if_pos h2, raise_eq]⟩)
  rw [if_neg h2]
  rw [State.runPastEnd_iff] at h2
  by_cases h3 : s.x.allValued (8 * s.xoff) (8 * s.count) = true
  · exact .inr (.inr (.inl ⟨by omega, by omega, by omega, h3, by rw [if_pos h3, State.respond_ok]; rfl⟩))
  · exact .inr (.inr (.inr ⟨by omega, by omega, by omega, by simpa using h3, by rw [if_neg h3]⟩))

/-- WRVAR (43_varint.md rule R121). -/
theorem execWrvar_cases (s : State) :
    (s.cfg.bufLen < s.offset + varLen (s.data 32) ∧ execWrvar s = .next (s.failed .boundsViolation)) ∨
    (s.offset + varLen (s.data 32) ≤ s.cfg.bufLen ∧
      execWrvar s =
        .next ((s.withB (writeBytes s.b s.offset (varBytes 4 (s.data 32)))).finished 0
          (BitVec.ofNat 32 (varLen (s.data 32))))) := by
  unfold execWrvar
  by_cases h : s.cfg.bufLen < s.offset + varLen (s.data 32)
  · exact .inl ⟨h, by rw [if_pos h, raise_eq]⟩
  · refine .inr ⟨by omega, ?_⟩
    rw [if_neg h, State.respond_ok, length_varBytes _ (s.data_lt 32)]; rfl

/-- RDVAR (43_varint.md rule R122). -/
theorem execRdvar_cases (s : State) :
    (∃ v n, readVarint s.cfg s.b s.offset 5 0 0 true = .done v n ∧
      execRdvar s = .next (s.finished (BitVec.ofNat 64 v) (BitVec.ofNat 32 (s.offset + n)))) ∨
    (readVarint s.cfg s.b s.offset 5 0 0 true = .malformed ∧ execRdvar s = .next (s.failed .malformedVarint)) ∨
    (readVarint s.cfg s.b s.offset 5 0 0 true = .bounds ∧ execRdvar s = .next (s.failed .boundsViolation)) ∨
    (readVarint s.cfg s.b s.offset 5 0 0 true = .noValue ∧ execRdvar s = .fault .readWithoutValue) := by
  unfold execRdvar
  cases h : readVarint s.cfg s.b s.offset 5 0 0 true with
  | done v n => exact .inl ⟨v, n, rfl, congrArg _ (State.respond_ok s v _)⟩
  | malformed => exact .inr (.inl ⟨rfl, raise_eq _ s⟩)
  | bounds => exact .inr (.inr (.inl ⟨rfl, raise_eq _ s⟩))
  | noValue => exact .inr (.inr (.inr ⟨rfl, rfl⟩))

/-- A legal fixed-width read of a field inside `B` whose bits have values, where ENDIAN does not reorder it: RESULT is the field's
number (40_bit_packing.md rule R80, 42_wide_integer.md rule R100). -/
theorem fieldRead_completes {i : Instr} {s : State} (hr : isFieldRead i = true) (hw : ¬ widthIllegal i)
    (he : s.cfg.endian = .little ∨ isWide i = false) (hb : s.offset + i.nbitsField ≤ 8 * s.cfg.bufLen)
    (hv : s.b.allValued s.offset i.nbitsField = true) :
    exec i s = .next (s.finished (BitVec.ofNat 64 (s.b.getBits s.offset i.nbitsField)) 0) := by
  have wide (bits w : Nat) (h : ¬ (w < 1 ∨ bits < w)) (hl : s.cfg.endian = .little) (hb : s.offset + w ≤ 8 * s.cfg.bufLen)
      (hv : s.b.allValued s.offset w = true) :
      wideRead bits w s = .next (s.finished (BitVec.ofNat 64 (s.b.getBits s.offset w)) 0) := by
    rcases wideRead_cases bits w s with ⟨g, _⟩ | ⟨_, _, g, _⟩ | ⟨_, _, _, _, e⟩ | ⟨_, _, _, g, _⟩
    · exact absurd g h
    · omega
    · rw [e, hl, reorder]
    · exact absurd (hv.symm.trans g) (by decide)
  cases i with
  | rdbits w =>
    have h : ¬ (w < 1 ∨ 8 < w) := fun g => hw ⟨1, 8, rfl, g⟩
    simp only [Instr.nbitsField] at hb hv ⊢
    rcases execRdbits_cases w s with ⟨g, _⟩ | ⟨_, _, g, _⟩ | ⟨_, _, _, _, e⟩ | ⟨_, _, _, g, _⟩
    · exact absurd g h
    · omega
    · exact e
    · exact absurd (hv.symm.trans g) (by decide)
  | rdu16 w => exact wide 16 w (fun g => hw ⟨1, 16, rfl, g⟩) (he.resolve_right (fun g => nomatch g)) hb hv
  | rdu32 w => exact wide 32 w (fun g => hw ⟨1, 32, rfl, g⟩) (he.resolve_right (fun g => nomatch g)) hb hv
  | rdu64 w => exact wide 64 w (fun g => hw ⟨1, 64, rfl, g⟩) (he.resolve_right (fun g => nomatch g)) hb hv
  | wrbits w => cases hr
  | wru16 w => cases hr
  | wru32 w => cases hr
  | wru64 w => cases hr
  | rdbytes => cases hr
  | wrbytes => cases hr
  | wrvar => cases hr
  | rdvar => cases hr

/-! ### The shape of every outcome -/

/-- What a completing command can come to: a failure with nothing but its response, a success that changes the response, the
phase and the memories, or a fault. -/
inductive Ends (s : State) : Host.Outcome State Fault Refusal → Prop
  | failed (st : Status) (h : st ≠ .ok) : Ends s (.next (s.failed st))
  | done (m x : BitMemory) (r : Word64) (n : Word32) : Ends s (.next ({ s with b := m, x := x }.finished r n))
  | fault (f : Fault) (h : f ≠ .noSuchByte) : Ends s (.fault f)

theorem Ends.unchanged (s : State) (r : Word64) (n : Word32) : Ends s (.next (s.finished r n)) :=
  Ends.done s.b s.x r n

theorem wideRead_ends (bits w : Nat) (s : State) : Ends s (wideRead bits w s) := by
  rcases wideRead_cases bits w s with ⟨_, h⟩ | ⟨_, _, _, h⟩ | ⟨_, _, _, _, h⟩ | ⟨_, _, _, _, h⟩ <;> rw [h]
  · exact .failed _ (by decide)
  · exact .failed _ (by decide)
  · exact .unchanged s _ _
  · exact .fault _ (by decide)

theorem wideWrite_ends (bits w : Nat) (s : State) : Ends s (wideWrite bits w s) := by
  rcases wideWrite_cases bits w s with ⟨_, h⟩ | ⟨_, _, h⟩ | ⟨_, _, _, h⟩ | ⟨_, _, _, h⟩ <;> rw [h]
  · exact .failed _ (by decide)
  · exact .unchanged s _ _
  · exact .failed _ (by decide)
  · exact .done _ s.x _ _

/-- Every command ends in one of these ways: none is refused. -/
theorem exec_ends (i : Instr) (s : State) : Ends s (exec i s) := by
  cases i with
  | rdbits w =>
    show Ends s (execRdbits w s)
    rcases execRdbits_cases w s with ⟨_, h⟩ | ⟨_, _, _, h⟩ | ⟨_, _, _, _, h⟩ | ⟨_, _, _, _, h⟩ <;> rw [h]
    · exact .failed _ (by decide)
    · exact .failed _ (by decide)
    · exact .unchanged s _ _
    · exact .fault _ (by decide)
  | wrbits w =>
    show Ends s (execWrbits w s)
    rcases execWrbits_cases w s with ⟨_, h⟩ | ⟨_, h⟩ | ⟨_, _, _, h⟩ | ⟨_, _, _, h⟩ <;> rw [h]
    · exact .failed _ (by decide)
    · exact .unchanged s _ _
    · exact .failed _ (by decide)
    · exact .done _ s.x _ _
  | rdbytes =>
    show Ends s (execRdbytes s)
    rcases execRdbytes_cases s with ⟨_, h⟩ | ⟨_, _, h⟩ | ⟨_, _, _, _, h⟩ | ⟨_, _, _, _, h⟩ <;> rw [h]
    · exact .unchanged s _ _
    · exact .failed _ (by decide)
    · exact .done s.b _ _ _
    · exact .fault _ (by decide)
  | wrbytes =>
    show Ends s (execWrbytes s)
    rcases execWrbytes_cases s with ⟨_, h⟩ | ⟨_, _, h⟩ | ⟨_, _, _, _, h⟩ | ⟨_, _, _, _, h⟩ <;> rw [h]
    · exact .unchanged s _ _
    · exact .failed _ (by decide)
    · exact .done _ s.x _ _
    · exact .fault _ (by decide)
  | rdu16 w => exact wideRead_ends 16 w s
  | rdu32 w => exact wideRead_ends 32 w s
  | rdu64 w => exact wideRead_ends 64 w s
  | wru16 w => exact wideWrite_ends 16 w s
  | wru32 w => exact wideWrite_ends 32 w s
  | wru64 w => exact wideWrite_ends 64 w s
  | wrvar =>
    show Ends s (execWrvar s)
    rcases execWrvar_cases s with ⟨_, h⟩ | ⟨_, h⟩ <;> rw [h]
    · exact .failed _ (by decide)
    · exact .done _ s.x _ _
  | rdvar =>
    show Ends s (execRdvar s)
    rcases execRdvar_cases s with ⟨v, n, _, h⟩ | ⟨_, h⟩ | ⟨_, h⟩ | ⟨_, h⟩ <;> rw [h]
    · exact .unchanged s _ _
    · exact .failed _ (by decide)
    · exact .failed _ (by decide)
    · exact .fault _ (by decide)

/-- So does COMPLETE. -/
theorem complete_ends (s : State) : Ends s (complete s) := by
  unfold complete
  cases decode s.req.cmd with
  | command i => exact exec_ends i s
  | illegal _ => exact .failed .illegalCommand (by decide)

/-- Outcomes of one command in two states that have the same effect: the same failure, the same response and memories, or the same
fault. -/
inductive Alike (s s' : State) :
    Host.Outcome State Fault Refusal → Host.Outcome State Fault Refusal → Prop
  | failed (st : Status) (h : st ≠ .ok) : Alike s s' (.next (s.failed st)) (.next (s'.failed st))
  | done (m x : BitMemory) (r : Word64) (n : Word32) :
      Alike s s' (.next ({ s with b := m, x := x }.finished r n)) (.next ({ s' with b := m, x := x }.finished r n))
  | fault (f : Fault) (h : f ≠ .noSuchByte) : Alike s s' (.fault f) (.fault f)

/-- A command reads the configuration, the request and the memories only (10_state.md rule R27). -/
theorem exec_alike (i : Instr) (s s' : State) (hc : s'.cfg = s.cfg) (hr : s'.req = s.req) (hb : s'.b = s.b)
    (hx : s'.x = s.x) : Alike s s' (exec i s) (exec i s') := by
  have ho : s'.offset = s.offset := by rw [State.offset, State.offset, hr]
  have hn : s'.count = s.count := by rw [State.count, State.count, hr]
  have hxo : s'.xoff = s.xoff := by rw [State.xoff, State.xoff, hr]
  have hd : ∀ n, s'.data n = s.data n := fun n => by rw [State.data, State.data, hr]
  have hf : ∀ w, s'.fieldPastEnd w = s.fieldPastEnd w := fun w => by rw [State.fieldPastEnd, State.fieldPastEnd, ho, hc]
  have hp : s'.runPastEnd = s.runPastEnd := by rw [State.runPastEnd, State.runPastEnd, ho, hn, hxo, hc]
  have fl : ∀ st, st ≠ Status.ok → Alike s s' (raise st s) (raise st s') := fun st h => .failed st h
  have un : ∀ r n, Alike s s' (.next (s.respond .ok r n)) (.next (s'.respond .ok r n)) := fun r n => by
    have := Alike.done (s := s) (s' := s') s.b s.x (BitVec.ofNat 64 r) (BitVec.ofNat 32 n)
    rw [State.respond_ok, State.respond_ok]
    rwa [show ({ s' with b := s.b, x := s.x } : State) = s' by rw [← hb, ← hx]] at this
  have wb : ∀ m r n, Alike s s' (.next ((s.withB m).respond .ok r n)) (.next ((s'.withB m).respond .ok r n)) :=
    fun m r n => by
      have := Alike.done (s := s) (s' := s') m s.x (BitVec.ofNat 64 r) (BitVec.ofNat 32 n)
      rw [State.respond_ok, State.respond_ok]
      rwa [show ({ s' with b := m, x := s.x } : State) = s'.withB m by rw [← hx]; rfl] at this
  have wx : ∀ m r n, Alike s s' (.next ((s.withX m).respond .ok r n)) (.next ((s'.withX m).respond .ok r n)) :=
    fun m r n => by
      have := Alike.done (s := s) (s' := s') s.b m (BitVec.ofNat 64 r) (BitVec.ofNat 32 n)
      rw [State.respond_ok, State.respond_ok]
      rwa [show ({ s' with b := s.b, x := m } : State) = s'.withX m by rw [← hb]; rfl] at this
  have rd : ∀ bits w, Alike s s' (wideRead bits w s) (wideRead bits w s') := fun bits w => by
    simp only [wideRead, hf, ho, hb, hc]
    split_ifs
    · exact fl _ (by decide)
    · exact fl _ (by decide)
    · exact un _ _
    · exact .fault _ (by decide)
  have wr : ∀ bits w, Alike s s' (wideWrite bits w s) (wideWrite bits w s') := fun bits w => by
    simp only [wideWrite, hf, ho, hb, hc, hd]
    split_ifs
    · exact fl _ (by decide)
    · exact un _ _
    · exact fl _ (by decide)
    · exact wb _ _ _
  cases i with
  | rdbits w =>
    simp only [exec, execRdbits, hf, ho, hb]
    split_ifs
    · exact fl _ (by decide)
    · exact fl _ (by decide)
    · exact un _ _
    · exact .fault _ (by decide)
  | wrbits w =>
    simp only [exec, execWrbits, hf, ho, hb, hd]
    split_ifs
    · exact fl _ (by decide)
    · exact un _ _
    · exact fl _ (by decide)
    · exact wb _ _ _
  | rdbytes =>
    simp only [exec, execRdbytes, hn, hp, ho, hb, hx, hxo]
    split_ifs
    · exact un _ _
    · exact fl _ (by decide)
    · exact wx _ _ _
    · exact .fault _ (by decide)
  | wrbytes =>
    simp only [exec, execWrbytes, hn, hp, ho, hb, hx, hxo]
    split_ifs
    · exact un _ _
    · exact fl _ (by decide)
    · exact wb _ _ _
    · exact .fault _ (by decide)
  | rdu16 w => exact rd 16 w
  | rdu32 w => exact rd 32 w
  | rdu64 w => exact rd 64 w
  | wru16 w => exact wr 16 w
  | wru32 w => exact wr 32 w
  | wru64 w => exact wr 64 w
  | wrvar =>
    simp only [exec, execWrvar, hd, ho, hb, hc]
    split_ifs
    · exact fl _ (by decide)
    · exact wb _ _ _
  | rdvar =>
    simp only [exec, execRdvar, ho, hb, hc]
    cases readVarint s.cfg s.b s.offset 5 0 0 true with
    | done v n => exact un _ _
    | malformed => exact fl _ (by decide)
    | bounds => exact fl _ (by decide)
    | noValue => exact .fault _ (by decide)

/-- So does COMPLETE. -/
theorem complete_alike (s s' : State) (hc : s'.cfg = s.cfg) (hr : s'.req = s.req) (hb : s'.b = s.b)
    (hx : s'.x = s.x) : Alike s s' (complete s) (complete s') := by
  unfold complete
  rw [hr]
  cases decode s.req.cmd with
  | command i => exact exec_alike i s s' hc hr hb hx
  | illegal _ => exact .failed .illegalCommand (by decide)

/-- The next state of a completing command. -/
theorem Ends.next_cases {s t : State} {o : Host.Outcome State Fault Refusal} (h : Ends s o) (ht : o = .next t) :
    (∃ st, st ≠ Status.ok ∧ t = s.failed st) ∨
      ∃ m x r n, t = ({ s with b := m, x := x } : State).finished r n := by
  subst ht
  cases h with
  | failed st hst => exact .inl ⟨st, hst, rfl⟩
  | done m x r n => exact .inr ⟨m, x, r, n, rfl⟩

end Sys2Proof.Machine
end

