-- ==== Sys2Proof/Laws/Footprint.lean ====
section
/-! SUPPORT. Which bytes the footprints hold: the spans as sets of byte addresses, and the footprint of a fixed-width read or write
in every case of its checks. -/

namespace Sys2Proof.Machine

@[simp] theorem Span.has_empty (a : Nat) : Span.empty.has a = false := by simp [Span.has, Span.empty]

theorem Span.has_iff (p : Span) (a : Nat) : p.has a = true ↔ p.lo ≤ a ∧ a < p.lo + p.len := by simp [Span.has]

/-- The span of a field holds exactly the bytes its bits lie in (00_scope.md rule R17). -/
theorem fieldSpan_has_iff (off w a : Nat) : (fieldSpan off w).has a = true ↔ inField off w a := by
  rw [Span.has_iff, fieldSpan, inField]
  by_cases hw : w = 0
  · simp only [hw, if_true]
    refine ⟨fun h => by omega, ?_⟩
    rintro ⟨k, hk, -⟩
    omega
  · simp only [if_neg hw]
    constructor
    · intro h
      refine ⟨max (8 * a) off - off, ?_, ?_⟩ <;> omega
    · rintro ⟨k, hk, rfl⟩
      omega

/-- A footprint of nothing covers no byte. -/
theorem Touch.covers_nothing (a : Nat) : Touch.nothing.Covers a False False False False := by
  simp [Touch.Covers, Touch.nothing]

/-- The footprint of a fixed-width read whose checks pass. -/
theorem readTouch_inside {limit w : Nat} {s : State} (h1 : 1 ≤ w) (h2 : w ≤ limit) (h3 : s.offset + w ≤ 8 * s.cfg.bufLen) :
    readTouch limit w s = { Touch.nothing with readB := fieldSpan s.offset w } := by
  unfold readTouch
  rw [if_neg]
  rw [State.fieldPastEnd_iff]
  omega

/-- A fixed-width read whose checks fail touches nothing. -/
theorem readTouch_fails {limit w : Nat} {s : State} (h : w < 1 ∨ limit < w ∨ 8 * s.cfg.bufLen < s.offset + w) :
    readTouch limit w s = Touch.nothing := by
  unfold readTouch
  rw [if_pos]
  rwa [State.fieldPastEnd_iff]

/-- The footprint of a fixed-width write whose checks pass. -/
theorem writeTouch_inside {limit w : Nat} {s : State} (h2 : w ≤ limit) (h3 : s.offset + w ≤ 8 * s.cfg.bufLen) :
    writeTouch limit w s =
      { Touch.nothing with readB := fieldSpan s.offset w, writeB := fieldSpan s.offset w } := by
  unfold writeTouch
  rw [if_neg]
  rw [State.fieldPastEnd_iff]
  omega

/-- A fixed-width write whose checks fail touches nothing. -/
theorem writeTouch_fails {limit w : Nat} {s : State} (h : limit < w ∨ 8 * s.cfg.bufLen < s.offset + w) :
    writeTouch limit w s = Touch.nothing := by
  unfold writeTouch
  rw [if_pos]
  rwa [State.fieldPastEnd_iff]

/-- The bytes a fixed-width read covers. -/
theorem readTouch_covers {limit w : Nat} {s : State} (a : Nat) (h1 : 1 ≤ w) (h2 : w ≤ limit)
    (h3 : s.offset + w ≤ 8 * s.cfg.bufLen) :
    (readTouch limit w s).Covers a (inField s.offset w a) False False False := by
  rw [readTouch_inside h1 h2 h3]
  simp [Touch.Covers, Touch.nothing, fieldSpan_has_iff]

/-- The bytes a fixed-width write covers; none for a width of 0, in or out of bounds. -/
theorem writeTouch_covers {limit w : Nat} {s : State} (a : Nat) (h2 : w ≤ limit)
    (h3 : w = 0 ∨ s.offset + w ≤ 8 * s.cfg.bufLen) :
    (writeTouch limit w s).Covers a (inField s.offset w a) (inField s.offset w a) False False := by
  by_cases hb : s.offset + w ≤ 8 * s.cfg.bufLen
  · rw [writeTouch_inside h2 hb]
    simp [Touch.Covers, Touch.nothing, fieldSpan_has_iff]
  · obtain rfl : w = 0 := by omega
    rw [writeTouch_fails (by omega)]
    simp [Touch.Covers, Touch.nothing, inField]

end Sys2Proof.Machine
end

