-- ==== Sys2Proof/Laws/PerInstr.lean ====
section
/-! SUPPORT. The per-instruction family `EncodeFields`: the three fields of every command's word are the ones
30_encoding.md rule R70 gives it. -/

namespace Sys2Proof.Laws

/-- The fields of a word made as rule R70 says, as numbers. -/
theorem fields_of_word (n op : Nat) (hn : n < 128) (ho : op < 16) :
    cmdRsvd (BitVec.ofNat 32 ((n <<< 4) ||| op)) = 0 ∧ cmdOp (BitVec.ofNat 32 ((n <<< 4) ||| op)) = op ∧
      cmdNbits (BitVec.ofNat 32 ((n <<< 4) ||| op)) = n := by
  have word : (n <<< 4) ||| op = 16 * n + op := by
    rw [Nat.shiftLeft_eq, Nat.mul_comm]
    exact (Nat.two_pow_add_eq_or_of_lt (i := 4) (by omega) n).symm
  rw [word]
  simp only [cmdRsvd, cmdOp, cmdNbits, BitVec.extractLsb'_toNat, BitVec.toNat_ofNat, Nat.shiftRight_eq_div_pow]
  omega

/-- `RSVD` is 0, `OP` the opcode and `NBITS` the width of a well-formed command's word (30_encoding.md rules R61, R63, R70). -/
def EncodeFields.Statement (i : Instr) : Prop :=
  i.wellFormed = true →
    cmdRsvd (encode i) = 0 ∧ cmdOp (encode i) = i.opcode ∧ cmdNbits (encode i) = i.nbitsField

theorem EncodeFields.rdbits (n : Nat) : EncodeFields.Statement (.rdbits n) :=
  fun h => fields_of_word n 0x1 (of_decide_eq_true h) (by decide)

theorem EncodeFields.wrbits (n : Nat) : EncodeFields.Statement (.wrbits n) :=
  fun h => fields_of_word n 0x2 (of_decide_eq_true h) (by decide)

theorem EncodeFields.rdbytes : EncodeFields.Statement .rdbytes :=
  fun _ => fields_of_word 0 0x3 (by decide) (by decide)

theorem EncodeFields.wrbytes : EncodeFields.Statement .wrbytes :=
  fun _ => fields_of_word 0 0x4 (by decide) (by decide)

theorem EncodeFields.rdu16 (n : Nat) : EncodeFields.Statement (.rdu16 n) :=
  fun h => fields_of_word n 0x5 (of_decide_eq_true h) (by decide)

theorem EncodeFields.rdu32 (n : Nat) : EncodeFields.Statement (.rdu32 n) :=
  fun h => fields_of_word n 0x6 (of_decide_eq_true h) (by decide)

theorem EncodeFields.rdu64 (n : Nat) : EncodeFields.Statement (.rdu64 n) :=
  fun h => fields_of_word n 0x7 (of_decide_eq_true h) (by decide)

theorem EncodeFields.wru16 (n : Nat) : EncodeFields.Statement (.wru16 n) :=
  fun h => fields_of_word n 0x8 (of_decide_eq_true h) (by decide)

theorem EncodeFields.wru32 (n : Nat) : EncodeFields.Statement (.wru32 n) :=
  fun h => fields_of_word n 0x9 (of_decide_eq_true h) (by decide)

theorem EncodeFields.wru64 (n : Nat) : EncodeFields.Statement (.wru64 n) :=
  fun h => fields_of_word n 0xA (of_decide_eq_true h) (by decide)

theorem EncodeFields.wrvar : EncodeFields.Statement .wrvar :=
  fun _ => fields_of_word 0 0xB (by decide) (by decide)

theorem EncodeFields.rdvar : EncodeFields.Statement .rdvar :=
  fun _ => fields_of_word 0 0xC (by decide) (by decide)

end Sys2Proof.Laws
end

