-- ==== Sys2Proof/Laws/Step.lean ====
section
/-! SUPPORT. Everything a step that answers a next state can have done, said once: the engine's turn, the host's steps and reset, each
with its guards.  Later proofs cite `step_moved` and do not unfold the step. -/

namespace Sys2Proof.Machine

/-- The step from `s` to `t`, where `taken` is `s` with its first schedule entry taken. -/
inductive Moved (s taken t : State) : Prop
  /-- Nothing happens: the engine's turn in IDLE. -/
  | rests (turn : s.schedule = [] ∨ ∃ rest, s.schedule = .engine :: rest) (idle : s.phase = .idle) (same : t = taken)
  /-- COMPLETE (10_state.md rule R26). -/
  | completes (turn : s.schedule = [] ∨ ∃ rest, s.schedule = .engine :: rest) (busy : s.phase = .busy)
      (done : complete taken = .next t)
  /-- The host reads RESP or a byte that does not race. -/
  | reads (e : Event) (rest : List Event) (at_ : s.schedule = e :: rest)
      (kind : e = .readResp ∨ (∃ a, e = .readB a ∧ a < s.cfg.bufLen) ∨ ∃ a, e = .readX a ∧ a < s.cfg.xferLen)
      (same : t = taken)
  /-- The host drives the request fields. -/
  | presents (r : Request) (rest : List Event) (at_ : s.schedule = .present r :: rest)
      (now : t = { taken with presented := r })
  /-- START (10_state.md rule R25). -/
  | starts (rest : List Event) (at_ : s.schedule = .start :: rest) (idle : s.phase = .idle)
      (now : t = taken.latch taken.presented)
  /-- The host writes a byte of `B` that does not race. -/
  | writesB (a : Nat) (v : Byte) (rest : List Event) (at_ : s.schedule = .writeB a v :: rest) (inside : a < s.cfg.bufLen)
      (now : t = taken.withB (taken.b.setByte a v))
  /-- The host writes a byte of `X` that does not race. -/
  | writesX (a : Nat) (v : Byte) (rest : List Event) (at_ : s.schedule = .writeX a v :: rest) (inside : a < s.cfg.xferLen)
      (now : t = taken.withX (taken.x.setByte a v))
  /-- Reset with the memories as they were (70_reset_and_hazards.md rules R160 and R161). -/
  | resets (rest : List Event) (at_ : s.schedule = .reset :: rest) (now : t = taken.resetInterface)
  /-- Reset while BUSY with the memories after the command (70_reset_and_hazards.md rule R161). -/
  | resetsCommitted (rest : List Event) (u : State) (at_ : s.schedule = .reset :: rest) (busy : s.phase = .busy)
      (done : complete taken = .next u) (now : t = ((taken.withB u.b).withX u.x).resetInterface)

theorem accessEvent_next {len a : Nat} {races : Bool} {t u : State} (h : accessEvent len a races t = .next u) :
    a < len ∧ races = false ∧ u = t := by
  unfold accessEvent at h
  split_ifs at h with h1 h2
  cases h
  exact ⟨by omega, by simpa using h2, rfl⟩

theorem engineTurn_next {s t : State} (h : engineTurn s = .next t) :
    (s.phase = .idle ∧ t = s) ∨ (s.phase = .busy ∧ complete s = .next t) := by
  unfold engineTurn at h
  cases hp : s.phase <;> rw [hp] at h
  · cases h
    exact .inl ⟨rfl, rfl⟩
  · exact .inr ⟨rfl, h⟩

theorem resetEvent_next {s t : State} (h : resetEvent s = .next t) :
    t = s.resetInterface ∨
      (s.phase = .busy ∧ ∃ u, complete s = .next u ∧ t = ((s.withB u.b).withX u.x).resetInterface) := by
  unfold resetEvent at h
  cases hp : s.phase <;> rw [hp] at h
  · cases h
    exact .inl rfl
  · simp only at h
    split_ifs at h
    · generalize ho : complete s = o at h
      cases o with
      | next u =>
        cases h
        exact .inr ⟨rfl, u, rfl, rfl⟩
      | fault f =>
        cases f <;> cases h
        exact .inl rfl
      | refused r => cases h
    · cases h
      exact .inl rfl

/-- Everything a step can do when it answers a next state. -/
theorem step_moved {s t : State} (h : step s = .next t) :
    s.cfg.ok = true ∧ Moved s { s with schedule := s.schedule.tail } t := by
  unfold step at h
  split_ifs at h with h1 h2
  refine ⟨by simp_all [Config.ok], ?_⟩
  unfold turn at h
  cases hs : s.schedule with
  | nil =>
    rw [hs] at h
    have own : ({ s with schedule := s.schedule.tail } : State) = s := by rw [hs, List.tail_nil, ← hs]
    rw [hs] at own
    rw [own]
    rcases engineTurn_next h with ⟨hp, ht⟩ | ⟨hp, ht⟩
    · exact .rests (.inl hs) hp ht
    · exact .completes (.inl hs) hp ht
  | cons e rest =>
    rw [hs] at h
    cases e with
    | present r =>
      cases h
      exact .presents r rest hs rfl
    | start =>
      simp only [perform, startEvent] at h
      cases hp : s.phase <;> rw [hp] at h <;> cases h
      exact .starts rest hs hp rfl
    | engine =>
      rcases engineTurn_next h with ⟨hp, ht⟩ | ⟨hp, ht⟩
      · exact .rests (.inr ⟨rest, hs⟩) hp ht
      · exact .completes (.inr ⟨rest, hs⟩) hp ht
    | writeB a v =>
      obtain ⟨ha, -, ht⟩ := accessEvent_next h
      exact .writesB a v rest hs ha ht
    | writeX a v =>
      obtain ⟨ha, -, ht⟩ := accessEvent_next h
      exact .writesX a v rest hs ha ht
    | readB a =>
      obtain ⟨ha, -, ht⟩ := accessEvent_next h
      exact .reads _ rest hs (.inr (.inl ⟨a, rfl, ha⟩)) ht
    | readX a =>
      obtain ⟨ha, -, ht⟩ := accessEvent_next h
      exact .reads _ rest hs (.inr (.inr ⟨a, rfl, ha⟩)) ht
    | readResp =>
      cases h
      exact .reads _ rest hs (.inl rfl) rfl
    | reset =>
      rcases resetEvent_next h with ht | ⟨hp, u, hu, ht⟩
      · exact .resets rest hs ht
      · exact .resetsCommitted rest u hs hp hu ht

/-! ### The canonical form -/

/-- A command that answers a next state keeps both memories in canonical form and inside their sizes. -/
theorem exec_wf (i : Instr) (s t : State) (hb : s.b.wf s.cfg.bufLen = true) (hx : s.x.wf s.cfg.xferLen = true)
    (h : exec i s = .next t) : t.b.wf s.cfg.bufLen = true ∧ t.x.wf s.cfg.xferLen = true := by
  have read (bits w : Nat) (h : wideRead bits w s = .next t) :
      t.b.wf s.cfg.bufLen = true ∧ t.x.wf s.cfg.xferLen = true := by
    rcases wideRead_cases bits w s with ⟨_, e⟩ | ⟨_, _, _, e⟩ | ⟨_, _, _, _, e⟩ | ⟨_, _, _, _, e⟩ <;> rw [e] at h <;> cases h <;>
      exact ⟨hb, hx⟩
  have write (bits w : Nat) (h : wideWrite bits w s = .next t) :
      t.b.wf s.cfg.bufLen = true ∧ t.x.wf s.cfg.xferLen = true := by
    rcases wideWrite_cases bits w s with ⟨_, e⟩ | ⟨_, _, e⟩ | ⟨_, _, _, e⟩ | ⟨_, _, hw, e⟩ <;> rw [e] at h <;> cases h
    · exact ⟨hb, hx⟩
    · exact ⟨hb, hx⟩
    · exact ⟨hb, hx⟩
    · exact ⟨BitMemory.wf_setBits _ _ _ _ _ hw hb, hx⟩
  cases i with
  | rdbits w =>
    rcases execRdbits_cases w s with ⟨_, e⟩ | ⟨_, _, _, e⟩ | ⟨_, _, _, _, e⟩ | ⟨_, _, _, _, e⟩ <;> cases e.symm.trans h <;>
      exact ⟨hb, hx⟩
  | wrbits w =>
    rcases execWrbits_cases w s with ⟨_, e⟩ | ⟨_, e⟩ | ⟨_, _, _, e⟩ | ⟨_, _, hw, e⟩ <;> cases e.symm.trans h
    · exact ⟨hb, hx⟩
    · exact ⟨hb, hx⟩
    · exact ⟨hb, hx⟩
    · exact ⟨BitMemory.wf_setBits _ _ _ _ _ hw hb, hx⟩
  | rdbytes =>
    rcases execRdbytes_cases s with ⟨_, e⟩ | ⟨_, _, e⟩ | ⟨_, _, hw, _, e⟩ | ⟨_, _, _, _, e⟩ <;> cases e.symm.trans h
    · exact ⟨hb, hx⟩
    · exact ⟨hb, hx⟩
    · exact ⟨hb, wf_copyOut _ _ _ _ _ _ hw hx⟩
  | wrbytes =>
    rcases execWrbytes_cases s with ⟨_, e⟩ | ⟨_, _, e⟩ | ⟨_, hw, _, _, e⟩ | ⟨_, _, _, _, e⟩ <;> cases e.symm.trans h
    · exact ⟨hb, hx⟩
    · exact ⟨hb, hx⟩
    · exact ⟨wf_copyIn _ _ _ _ _ _ hw hb, hx⟩
  | rdu16 w => exact read 16 w h
  | rdu32 w => exact read 32 w h
  | rdu64 w => exact read 64 w h
  | wru16 w => exact write 16 w h
  | wru32 w => exact write 32 w h
  | wru64 w => exact write 64 w h
  | wrvar =>
    rcases execWrvar_cases s with ⟨_, e⟩ | ⟨hw, e⟩ <;> cases e.symm.trans h
    · exact ⟨hb, hx⟩
    · exact ⟨wf_writeBytes _ _ _ _ (by rw [length_varBytes _ (s.data_lt 32)]; exact hw) hb, hx⟩
  | rdvar =>
    rcases execRdvar_cases s with ⟨_, _, _, e⟩ | ⟨_, e⟩ | ⟨_, e⟩ | ⟨_, e⟩ <;> cases e.symm.trans h <;> exact ⟨hb, hx⟩

/-- So does COMPLETE. -/
theorem complete_wf (s t : State) (hb : s.b.wf s.cfg.bufLen = true) (hx : s.x.wf s.cfg.xferLen = true)
    (h : complete s = .next t) : t.b.wf s.cfg.bufLen = true ∧ t.x.wf s.cfg.xferLen = true := by
  unfold complete at h
  cases hd : decode s.req.cmd with
  | command i => rw [hd] at h; exact exec_wf i s t hb hx h
  | illegal _ => rw [hd] at h; cases h; exact ⟨hb, hx⟩

end Sys2Proof.Machine
end

