-- ==== Sys2Proof/Laws/Varint.lean ====
section
/-! SUPPORT. The decoding loop of RDVAR, said once: which bytes it reads before it ends and how it ends (43_varint.md rule R122,
60_exceptions.md rule R145 item 5, 70_reset_and_hazards.md rule R163). -/

namespace Sys2Proof.Machine

/-- The value after the first `i` bytes (43_varint.md rule R122). -/
def varPayload (m : BitMemory) (o : Nat) : Nat → Nat
  | 0 => 0
  | i + 1 => (varPayload m o i ||| ((m.value.read (o + i) &&& 0x7F).toNat <<< (7 * i))) % 2 ^ 32

/-- Whether every payload bit of the first `i` bytes that reaches the value has a value. -/
def varValued (m : BitMemory) (o : Nat) : Nat → Bool
  | 0 => true
  | i + 1 => varValued m o i && decide (m.known.read (o + i) &&& payloadBits i = payloadBits i)

/-- The REJECT check of the fifth byte is certain to fail: a bit with a value among bits 4 to 6 is set. -/
def rejectsFifth (c : Config) (m : BitMemory) (o i : Nat) : Prop :=
  i = 4 ∧ c.topBits = .reject ∧ (m.value.read (o + i) &&& m.known.read (o + i)) &&& 0x70 ≠ 0

/-- The REJECT check of the fifth byte depends on a bit without a value. -/
def fifthUnvalued (c : Config) (m : BitMemory) (o i : Nat) : Prop :=
  i = 4 ∧ c.topBits = .reject ∧ m.known.read (o + i) &&& 0x70 ≠ 0x70

/-- Byte `i` lies in the buffer, its continuation bit has a value and is set. -/
def continues (c : Config) (m : BitMemory) (o i : Nat) : Prop :=
  o + i < c.bufLen ∧ byteBit (m.known.read (o + i)) 7 = true ∧ byteBit (m.value.read (o + i)) 7 = true

/-- How decoding ends after `n` continuation bytes. -/
inductive VarEnds (c : Config) (m : BitMemory) (o n : Nat) : VarResult → Prop
  | bounds (h : c.bufLen ≤ o + n) : VarEnds c m o n .bounds
  | rejected (hb : o + n < c.bufLen) (h : rejectsFifth c m o n) : VarEnds c m o n .malformed
  | endless (hb : continues c m o n) (h : n = 4) : VarEnds c m o n .malformed
  | unknownEnd (hb : o + n < c.bufLen) (h : ¬ rejectsFifth c m o n)
      (hk : byteBit (m.known.read (o + n)) 7 = false) : VarEnds c m o n .noValue
  | unknownReject (hb : o + n < c.bufLen) (h : ¬ rejectsFifth c m o n)
      (hk : byteBit (m.known.read (o + n)) 7 = true) (hv : byteBit (m.value.read (o + n)) 7 = false)
      (hu : fifthUnvalued c m o n) : VarEnds c m o n .noValue
  | unknownPayload (hb : o + n < c.bufLen) (h : ¬ rejectsFifth c m o n)
      (hk : byteBit (m.known.read (o + n)) 7 = true) (hv : byteBit (m.value.read (o + n)) 7 = false)
      (hu : ¬ fifthUnvalued c m o n) (hp : varValued m o (n + 1) = false) : VarEnds c m o n .noValue
  | done (hb : o + n < c.bufLen) (h : ¬ rejectsFifth c m o n)
      (hk : byteBit (m.known.read (o + n)) 7 = true) (hv : byteBit (m.value.read (o + n)) 7 = false)
      (hu : ¬ fifthUnvalued c m o n) (hp : varValued m o (n + 1) = true) :
      VarEnds c m o n (.done (varPayload m o (n + 1)) (n + 1))

/-- One round of the loop at byte `i`. -/
theorem readVarint_round (c : Config) (m : BitMemory) (o fuel i : Nat) (hi : i + fuel = 4) :
    VarEnds c m o i (readVarint c m o (fuel + 1) i (varPayload m o i) (varValued m o i)) ∨
      (continues c m o i ∧ i < 4 ∧
        readVarint c m o (fuel + 1) i (varPayload m o i) (varValued m o i) =
          readVarint c m o fuel (i + 1) (varPayload m o (i + 1)) (varValued m o (i + 1))) := by
  rw [readVarint]
  by_cases h1 : c.bufLen ≤ o + i
  · rw [if_pos h1]; exact .inl (.bounds h1)
  rw [if_neg h1]
  by_cases h2 : i = 4 ∧ c.topBits = .reject ∧ (m.value.read (o + i) &&& m.known.read (o + i)) &&& 0x70 ≠ 0
  · rw [if_pos h2]; exact .inl (.rejected (by omega) h2)
  rw [if_neg h2]
  by_cases h3 : byteBit (m.known.read (o + i)) 7 = true
  · rw [if_neg (by simpa using h3)]
    by_cases h4 : byteBit (m.value.read (o + i)) 7 = true
    · rw [if_pos h4]
      by_cases h5 : i = 4
      · obtain rfl : fuel = 0 := by omega
        rw [readVarint]
        exact .inl (.endless ⟨by omega, h3, h4⟩ h5)
      · exact .inr ⟨⟨by omega, h3, h4⟩, by omega, rfl⟩
    · rw [if_neg h4]
      by_cases h5 : i = 4 ∧ c.topBits = .reject ∧ m.known.read (o + i) &&& 0x70 ≠ 0x70
      · rw [if_pos h5]; exact .inl (.unknownReject (by omega) h2 h3 (by simpa using h4) h5)
      · rw [if_neg h5]
        by_cases h6 : (varValued m o i && decide (m.known.read (o + i) &&& payloadBits i = payloadBits i)) = true
        · rw [if_pos h6]; exact .inl (.done (by omega) h2 h3 (by simpa using h4) h5 h6)
        · rw [if_neg h6]
          exact .inl (.unknownPayload (by omega) h2 h3 (by simpa using h4) h5 ((Bool.not_eq_true _).mp h6))
  · rw [if_pos (by simpa using h3)]
    exact .inl (.unknownEnd (by omega) h2 (by simpa using h3))

/-- Decoding reads some number `n ≤ 4` of continuation bytes and then ends in one of the ways of `VarEnds`. -/
theorem readVarint_ends (c : Config) (m : BitMemory) (o : Nat) :
    ∃ n, n ≤ 4 ∧ (∀ j, j < n → continues c m o j) ∧ VarEnds c m o n (readVarint c m o 5 0 0 true) := by
  have go : ∀ fuel i, i + fuel = 4 → (∀ j, j < i → continues c m o j) →
      ∃ n, n ≤ 4 ∧ (∀ j, j < n → continues c m o j) ∧
        VarEnds c m o n (readVarint c m o (fuel + 1) i (varPayload m o i) (varValued m o i)) := by
    intro fuel
    induction fuel with
    | zero =>
      intro i hi hc
      rcases readVarint_round c m o 0 i hi with h | ⟨_, h, _⟩
      · exact ⟨i, by omega, hc, h⟩
      · omega
    | succ f ih =>
      intro i hi hc
      rcases readVarint_round c m o (f + 1) i hi with h | ⟨h, _, he⟩
      · exact ⟨i, by omega, hc, h⟩
      · rw [he]
        refine ih (i + 1) (by omega) fun j hj => ?_
        by_cases hji : j = i
        · rw [hji]; exact h
        · exact hc j (by omega)
  exact go 4 0 rfl (by simp)

/-- At most one way of ending is open after a given number of continuation bytes. -/
theorem VarEnds.unique {c : Config} {m : BitMemory} {o n k : Nat} {r q : VarResult}
    (hn : ∀ j, j < n → continues c m o j) (hk : ∀ j, j < k → continues c m o j)
    (h1 : VarEnds c m o n r) (h2 : VarEnds c m o k q) (hn4 : n ≤ 4) (hk4 : k ≤ 4) : n = k ∧ r = q := by
  have stop : ∀ {i : Nat} {z : VarResult}, VarEnds c m o i z → i < 4 → ¬ continues c m o i := by
    intro i z h hlt ⟨hb, hv, hc⟩
    cases h with
    | bounds h => omega
    | rejected _ h => exact absurd h.1 (by omega)
    | endless _ h => omega
    | unknownEnd _ _ hk => rw [hv] at hk; cases hk
    | unknownReject _ _ _ hv' _ => rw [hc] at hv'; cases hv'
    | unknownPayload _ _ _ hv' _ _ => rw [hc] at hv'; cases hv'
    | done _ _ _ hv' _ _ => rw [hc] at hv'; cases hv'
  have hnk : n = k := by
    rcases Nat.lt_trichotomy n k with hlt | he | hlt
    · exact absurd (hk n hlt) (stop h1 (by omega))
    · exact he
    · exact absurd (hn k hlt) (stop h2 (by omega))
  subst hnk
  refine ⟨rfl, ?_⟩
  cases h1 <;> cases h2 <;> first
    | rfl
    | (exfalso; omega)
    | (exfalso; simp_all [continues]; done)
    | (exfalso; simp_all [continues]; omega)

/-- Decoding ends in the way that is open. -/
theorem readVarint_eq {c : Config} {m : BitMemory} {o n : Nat} {r : VarResult} (hn4 : n ≤ 4)
    (hn : ∀ j, j < n → continues c m o j) (h : VarEnds c m o n r) : readVarint c m o 5 0 0 true = r := by
  obtain ⟨k, hk4, hk, he⟩ := readVarint_ends c m o
  exact ((VarEnds.unique hn hk h he hn4 hk4).2).symm

/-! ### The same facts in bits -/

theorem testBit_varPayload (m : BitMemory) (o i k : Nat) :
    (varPayload m o i).testBit k = (decide (k < 32) && decide (k < 7 * i) && m.bit (8 * (o + k / 7) + k % 7)) := by
  induction i with
  | zero => simp [varPayload]
  | succ n ih =>
    have hb : m.bit (8 * (o + k / 7) + k % 7) = (m.value.read (o + k / 7)).getLsbD (k % 7) := by
      rw [BitMemory.bit, byteBit, show (8 * (o + k / 7) + k % 7) / 8 = o + k / 7 by omega,
        show (8 * (o + k / 7) + k % 7) % 8 = k % 7 by omega]
    have h7 : ∀ j, j < 7 → (0x7F : Byte).getLsbD j = true := by decide
    have h7' : ∀ j, 7 ≤ j → (0x7F : Byte).getLsbD j = false := by
      intro j hj
      by_cases h8 : j < 8
      · obtain rfl : j = 7 := by omega
        decide
      · exact BitVec.getLsbD_of_ge _ _ (by omega)
    rw [varPayload, Nat.testBit_mod_two_pow, Nat.testBit_or, ih, Nat.testBit_shiftLeft, BitVec.testBit_toNat,
      BitVec.getLsbD_and]
    by_cases h32 : k < 32
    · by_cases hlt : k < 7 * n
      · simp [h32, hlt, show k < 7 * (n + 1) by omega, show ¬ 7 * n ≤ k by omega]
      · by_cases hin : k < 7 * (n + 1)
        · rw [hb, show k / 7 = n by omega, show k % 7 = k - 7 * n by omega, h7 _ (by omega)]
          simp [h32, hlt, hin, show 7 * n ≤ k by omega]
        · rw [h7' (k - 7 * n) (by omega)]
          simp [h32, hlt, hin]
    · simp [h32]

theorem varPayload_lt (m : BitMemory) (o i : Nat) : varPayload m o i < 2 ^ 32 := by
  cases i with
  | zero => exact Nat.two_pow_pos 32
  | succ n => exact Nat.mod_lt _ (Nat.two_pow_pos 32)

/-- A byte mask is met exactly when each of its bits is. -/
theorem and_eq_mask_iff (v mk : Byte) :
    v &&& mk = mk ↔ ∀ k, k < 8 → mk.getLsbD k = true → v.getLsbD k = true := by
  constructor
  · intro h k _ hm
    have := congrArg (fun b => b.getLsbD k) h
    simp only [BitVec.getLsbD_and, hm, Bool.and_true] at this
    exact this
  · intro h
    refine BitVec.eq_of_getLsbD_eq fun k hk => ?_
    rw [BitVec.getLsbD_and]
    cases hm : mk.getLsbD k with
    | false => simp
    | true => simp [h k hk hm]

/-- A byte meets a mask somewhere exactly when one of the mask's bits is set. -/
theorem and_ne_zero_iff (v mk : Byte) :
    v &&& mk ≠ 0 ↔ ∃ k, k < 8 ∧ mk.getLsbD k = true ∧ v.getLsbD k = true := by
  constructor
  · intro h
    by_contra hne
    refine h (BitVec.eq_of_getLsbD_eq fun k hk => ?_)
    rw [BitVec.getLsbD_and]
    cases hm : mk.getLsbD k with
    | false => simp
    | true =>
      cases hv : v.getLsbD k with
      | false => simp
      | true => exact absurd ⟨k, hk, hm, hv⟩ hne
  · rintro ⟨k, _, hm, hv⟩ h0
    have := congrArg (fun b => b.getLsbD k) h0
    simp [hm, hv] at this

theorem known_bit (m : BitMemory) (a k : Nat) (hk : k < 8) :
    (m.known.read a).getLsbD k = m.hasValue (8 * a + k) := by
  rw [BitMemory.hasValue, byteBit, show (8 * a + k) / 8 = a by omega, show (8 * a + k) % 8 = k by omega]

theorem value_bit (m : BitMemory) (a k : Nat) (hk : k < 8) :
    (m.value.read a).getLsbD k = m.bit (8 * a + k) := by
  rw [BitMemory.bit, byteBit, show (8 * a + k) / 8 = a by omega, show (8 * a + k) % 8 = k by omega]

theorem continues_iff (c : Config) (m : BitMemory) (o i : Nat) :
    continues c m o i ↔
      o + i < c.bufLen ∧ m.hasValue (8 * (o + i) + 7) = true ∧ m.bit (8 * (o + i) + 7) = true := by
  rw [← known_bit m _ 7 (by decide), ← value_bit m _ 7 (by decide)]; rfl

theorem mask70 : ∀ k, k < 8 → ((0x70 : Byte).getLsbD k = true ↔ 4 ≤ k ∧ k < 7) := by decide

/-- The certain rejection of the fifth byte, bit by bit. -/
theorem rejectsFifth_iff (c : Config) (m : BitMemory) (o i : Nat) :
    rejectsFifth c m o i ↔
      i = 4 ∧ c.topBits = .reject ∧
        ∃ k, 4 ≤ k ∧ k < 7 ∧ m.hasValue (8 * (o + i) + k) = true ∧ m.bit (8 * (o + i) + k) = true := by
  unfold rejectsFifth
  rw [and_ne_zero_iff]
  refine and_congr Iff.rfl (and_congr Iff.rfl ⟨?_, ?_⟩)
  · rintro ⟨k, hk, hm, hv⟩
    rw [BitVec.getLsbD_and, Bool.and_eq_true, value_bit m _ k hk, known_bit m _ k hk] at hv
    have := (mask70 k hk).1 hm
    exact ⟨k, this.1, this.2, hv.2, hv.1⟩
  · rintro ⟨k, h4, h7, hv, hb⟩
    refine ⟨k, by omega, (mask70 k (by omega)).2 ⟨h4, h7⟩, ?_⟩
    rw [BitVec.getLsbD_and, Bool.and_eq_true, value_bit m _ k (by omega), known_bit m _ k (by omega)]
    exact ⟨hb, hv⟩

/-- The uncertain REJECT check of the fifth byte, bit by bit. -/
theorem fifthUnvalued_iff (c : Config) (m : BitMemory) (o i : Nat) :
    fifthUnvalued c m o i ↔
      i = 4 ∧ c.topBits = .reject ∧ ∃ k, 4 ≤ k ∧ k < 7 ∧ m.hasValue (8 * (o + i) + k) = false := by
  unfold fifthUnvalued
  refine and_congr Iff.rfl (and_congr Iff.rfl ?_)
  rw [Ne, and_eq_mask_iff]
  constructor
  · intro h
    by_contra hne
    refine h fun k hk hm => ?_
    have := (mask70 k hk).1 hm
    rw [known_bit m _ k hk]
    by_contra hf
    exact hne ⟨k, this.1, this.2, by simpa using hf⟩
  · rintro ⟨k, h4, h7, hf⟩ h
    have := h k (by omega) ((mask70 k (by omega)).2 ⟨h4, h7⟩)
    rw [known_bit m _ k (by omega), hf] at this
    cases this

/-- The bits of the first `i ≤ 5` bytes that reach the value, bit by bit. -/
theorem varValued_iff (m : BitMemory) (o i : Nat) (hi : i ≤ 5) :
    varValued m o i = true ↔
      ∀ k, k < 32 → k < 7 * i → m.hasValue (8 * (o + k / 7) + k % 7) = true := by
  induction i with
  | zero => simp [varValued]
  | succ n ih =>
    have key : m.known.read (o + n) &&& payloadBits n = payloadBits n ↔
        ∀ k, k < 32 → 7 * n ≤ k → k < 7 * (n + 1) → m.hasValue (8 * (o + k / 7) + k % 7) = true := by
      rw [and_eq_mask_iff]
      have hp : ∀ j, j < 8 → ((payloadBits n).getLsbD j = true ↔ j < 7 ∧ 7 * n + j < 32) := by
        rw [payloadBits]
        by_cases h4 : n = 4
        · rw [if_pos h4, h4]; decide
        · rw [if_neg h4]
          have hd : ∀ j, j < 8 → ((0x7F : Byte).getLsbD j = true ↔ j < 7) := by decide
          intro j hj
          rw [hd j hj]
          omega
      constructor
      · intro h k h32 hlo hhi
        have := h (k - 7 * n) (by omega) ((hp _ (by omega)).2 ⟨by omega, by omega⟩)
        rw [known_bit m _ _ (by omega)] at this
        rwa [show k / 7 = n by omega, show k % 7 = k - 7 * n by omega]
      · intro h j hj hm
        have hm := (hp j hj).1 hm
        have := h (7 * n + j) hm.2 (by omega) (by omega)
        rw [known_bit m _ _ hj]
        rwa [show (7 * n + j) / 7 = n by omega, show (7 * n + j) % 7 = j by omega] at this
    rw [varValued, Bool.and_eq_true, ih (by omega), decide_eq_true_eq, key]
    constructor
    · rintro ⟨h1, h2⟩ k h32 hk
      by_cases hlt : k < 7 * n
      · exact h1 k h32 hlt
      · exact h2 k h32 (by omega) hk
    · exact fun h => ⟨fun k h32 hk => h k h32 (by omega), fun k h32 _ hk => h k h32 hk⟩

end Sys2Proof.Machine
end

