-- ==== Sys2Proof/Tests/Slice0.lean ====
section
/-! SUPPORT. Tests: ill-formed terms the checks refuse, words written out from 30_encoding.md, single steps with the results of
95_test_vectors.md, and for every statement of Obligations.lean with hypotheses a witness that meets them. -/

namespace Sys2Proof.Tests

open Sys2Proof Sys2Proof.Machine

/-! ### Helpers -/

/-- A memory that holds the given bytes from address 0 up. -/
def mem (l : List Nat) : BitMemory := writeBytes BitMemory.blank 0 (l.map (BitVec.ofNat 8))

/-- A memory whose byte 0 has the given stored bits and valued bits. -/
def partly (value known : Byte) : BitMemory where
  value := Memory.write [] 0 value
  known := Memory.write [] 0 known

/-- The configurations of 95_test_vectors.md's tables, with the sizes of two memories. -/
def cfg (e : Endian) (t : TopBits) (bufLen xferLen : Nat) : Config where
  bufLen := bufLen
  xferLen := xferLen
  endian := e
  topBits := t
  sharedStorage := false

/-- An engine BUSY with `r`, over memories of the given bytes. -/
def busyIn (e : Endian) (t : TopBits) (b x : List Nat) (r : Request) : State :=
  { State.resetOf (cfg e t b.length x.length) with b := mem b, x := mem x, req := r, phase := .busy }

/-- The same in LE mode with TRUNCATE, the defaults. -/
def busy (b x : List Nat) (r : Request) : State := busyIn .little .truncate b x r

/-- The outcome is a next state with a property. -/
def nextIs (o : Host.Outcome State Fault Refusal) (p : State → Bool) : Bool :=
  match o with
  | .next t => p t
  | .fault _ => false
  | .refused _ => false

/-- The outcome is a given fault. -/
def faultIs (o : Host.Outcome State Fault Refusal) (f : Fault) : Bool :=
  match o with
  | .next _ => false
  | .fault g => decide (g = f)
  | .refused _ => false

theorem next_of_nextIs {o : Host.Outcome State Fault Refusal} {p : State → Bool} (h : nextIs o p = true) :
    ∃ t, o = .next t ∧ p t = true := by
  cases o with
  | next t => exact ⟨t, rfl, h⟩
  | fault f => cases h
  | refused r => cases h

theorem fault_of_faultIs {o : Host.Outcome State Fault Refusal} {f : Fault} (h : faultIs o f = true) : o = .fault f := by
  cases o with
  | next t => cases h
  | fault g => exact congrArg _ (of_decide_eq_true h)
  | refused r => cases h

/-- The step ends with a response, and with the given bytes in `B`. -/
def ends (s : State) (status : BitVec 4) (result : Word64) (next : Word32) (b : List Nat) : Bool :=
  nextIs (step s) (fun t =>
    decide (t.resp = { valid := true, status := status, result := result, next := next }) && decide (t.b = mem b) &&
      decide (t.phase = .idle))

/-! ### Well-formedness refuses a width the field cannot hold -/

theorem test_rdbits_128_ill_formed : (Instr.rdbits 128).wellFormed = false := by decide
theorem test_wrbits_128_ill_formed : (Instr.wrbits 128).wellFormed = false := by decide
theorem test_rdu16_128_ill_formed : (Instr.rdu16 128).wellFormed = false := by decide
theorem test_rdu32_128_ill_formed : (Instr.rdu32 128).wellFormed = false := by decide
theorem test_rdu64_200_ill_formed : (Instr.rdu64 200).wellFormed = false := by decide
theorem test_wru16_128_ill_formed : (Instr.wru16 128).wellFormed = false := by decide
theorem test_wru32_128_ill_formed : (Instr.wru32 128).wellFormed = false := by decide
theorem test_wru64_2048_ill_formed : (Instr.wru64 2048).wellFormed = false := by decide
theorem test_rdbits_127_well_formed : (Instr.rdbits 127).wellFormed = true := by decide

/-! ### Words written out as 30_encoding.md rule R61 lays them out: RSVD, NBITS, OP -/

theorem test_decode_rdbits : decode 0b000000000000000000000_0000101_0001 = .command (.rdbits 5) := by decide
theorem test_decode_wrbits : decode 0b000000000000000000000_0000011_0010 = .command (.wrbits 3) := by decide
theorem test_decode_rdbytes : decode 0b000000000000000000000_0000000_0011 = .command .rdbytes := by decide
theorem test_decode_wrbytes : decode 0b000000000000000000000_0000000_0100 = .command .wrbytes := by decide
theorem test_decode_rdu16 : decode 0b000000000000000000000_0001001_0101 = .command (.rdu16 9) := by decide
theorem test_decode_rdu32 : decode 0b000000000000000000000_0100000_0110 = .command (.rdu32 32) := by decide
theorem test_decode_rdu64 : decode 0b000000000000000000000_1000000_0111 = .command (.rdu64 64) := by decide
theorem test_decode_wru16 : decode 0b000000000000000000000_0001100_1000 = .command (.wru16 12) := by decide
theorem test_decode_wru32 : decode 0b000000000000000000000_0010001_1001 = .command (.wru32 17) := by decide
theorem test_decode_wru64 : decode 0b000000000000000000000_1111111_1010 = .command (.wru64 127) := by decide
theorem test_decode_wrvar : decode 0b000000000000000000000_0000000_1011 = .command .wrvar := by decide
theorem test_decode_rdvar : decode 0b000000000000000000000_0000000_1100 = .command .rdvar := by decide
theorem test_decode_lowest_reserved_bit :
    decode 0b000000000000000000001_0001000_0001 = .illegal .reservedBitsSet := by decide
theorem test_decode_highest_reserved_bit :
    decode 0b100000000000000000000_0000001_0010 = .illegal .reservedBitsSet := by decide
theorem test_decode_width_on_rdvar :
    decode 0b000000000000000000000_1000000_1100 = .illegal .widthOnWidthless := by decide
theorem test_encode_wru32 : encode (.wru32 32) = 0x00000209 := by decide
theorem test_table_word : decodeTableWord 32 0x00000407 = some (.rdu64 64) := by decide

/-! ### The state right after reset -/

theorem test_reset_memories_canonical :
    State.reset.b.wf State.reset.cfg.bufLen = true ∧ State.reset.x.wf State.reset.cfg.xferLen = true := by decide
/-- 95_test_vectors.md V-RS-1. -/
theorem test_reset_response : State.reset.phase = .idle ∧
    State.reset.resp = { valid := false, status := 0, result := 0, next := 0 } := by decide
/-- 70_reset_and_hazards.md rule R163: memory nobody wrote has no value. -/
theorem test_unwritten_read_faults :
    step (State.reset.withFetchWord 32 0x00000081) = .fault .readWithoutValue := fault_of_faultIs (by decide)
/-- 20_memory.md rule R41: the bits of a byte, least significant first. -/
theorem test_bit_order : (mem [0x01, 0x80]).bit 0 = true ∧ (mem [0x01, 0x80]).bit 15 = true ∧
    (mem [0x01, 0x80]).bit 1 = false ∧ (mem [0x01, 0x80]).bit 14 = false := by decide
/-- Writing 0 over a byte unlists it. -/
theorem test_write_zero_unlists : Memory.write (Memory.write [] 3 7) 3 0 = [] := by decide

/-! ### Single steps, results from 95_test_vectors.md -/

/-- V-BP-5. -/
theorem test_rdbits_spanning : ends (busy [0xB5, 0x3C] [] (asmRdbits 5 6)) 0 0x12 0 [0xB5, 0x3C] = true := by decide
/-- V-BP-8. -/
theorem test_rdbits_past_end : ends (busy [0xB5, 0x3C] [] (asmRdbits 5 12)) 3 0 0 [0xB5, 0x3C] = true := by decide
/-- V-BP-15. -/
theorem test_wrbits_spanning : ends (busy [0x0F, 0xF0] [] (asmWrbits 5 5 0x15)) 0 0 0 [0xAF, 0xF2] = true := by decide
/-- V-BP-18. -/
theorem test_wrbits_zero_width : ends (busy [0x12] [] (asmWrbits 0 999 0xFF)) 0 0 0 [0x12] = true := by decide
/-- V-BR-2. -/
theorem test_rdbytes_unaligned :
    nextIs (step (busy [0x21, 0x43, 0x65] [0, 0] (asmRdbytes 4 2 0))) (fun t => decide (t.x = mem [0x32, 0x54])) = true := by
  decide
/-- V-BR-3. -/
theorem test_rdbytes_other_place :
    nextIs (step (busy [0x03, 0x80] [0xEE, 0xEE] (asmRdbytes 1 1 1))) (fun t => decide (t.x = mem [0xEE, 0x01])) = true := by
  decide
/-- V-BR-4. -/
theorem test_wrbytes_unaligned :
    ends (busy [0xFF, 0xFF, 0xFF] [0x00] (asmWrbytes 4 1 0)) 0 0 0 [0x0F, 0xF0, 0xFF] = true := by decide
/-- V-BR-5. -/
theorem test_wrbytes_two :
    ends (busy [0xAA, 0xAA, 0xAA] [0x5C, 0xE1] (asmWrbytes 3 2 0)) 0 0 0 [0xE2, 0x0A, 0xAF] = true := by decide +kernel
/-- V-WI-3. -/
theorem test_rdu16_nine_bits : ends (busy [0xFF, 0x01] [] (asmRdu16 9 0)) 0 0x1FF 0 [0xFF, 0x01] = true := by decide
/-- V-WI-12. -/
theorem test_rdu16_big_partial :
    ends (busyIn .big .truncate [0x0A, 0x0C] [] (asmRdu16 12 0)) 0 0xA0C 0 [0x0A, 0x0C] = true := by decide
/-- V-WI-6. -/
theorem test_rdu32_unaligned :
    ends (busy [0x78, 0xF7, 0x6D, 0xF5, 0x06] [] (asmRdu32 32 3)) 0 0xDEADBEEF 0 [0x78, 0xF7, 0x6D, 0xF5, 0x06] = true := by
  decide
/-- V-WI-15. -/
theorem test_rdu32_big :
    ends (busyIn .big .truncate [0x78, 0x56, 0x34, 0x12] [] (asmRdu32 32 0)) 0 0x78563412 0 [0x78, 0x56, 0x34, 0x12] =
      true := by decide
/-- V-WI-25. -/
theorem test_rdu64_big_partial :
    ends (busyIn .big .truncate [1, 2, 3, 4, 5, 6, 7, 8] [] (asmRdu64 40 0)) 0 0x102030405000000 0 [1, 2, 3, 4, 5, 6, 7, 8] =
      true := by decide
/-- V-WI-22. -/
theorem test_wru16_partial : ends (busy [0, 0] [] (asmWru16 10 3 0xFFFF)) 0 0 13 [0xF8, 0x1F] = true := by decide
/-- V-WI-19. -/
theorem test_wru16_too_wide : ends (busy [0, 0, 0, 0] [] (asmWru16 17 0 0)) 2 0 0 [0, 0, 0, 0] = true := by decide
/-- V-WI-5. -/
theorem test_wru32_big_unaligned :
    ends (busyIn .big .truncate [0, 0, 0, 0, 0] [] (asmWru32 32 3 0xDEADBEEF)) 0 0 35 [0xF0, 0x6E, 0xF5, 0x7D, 0x07] =
      true := by decide +kernel
/-- V-WI-16. -/
theorem test_wru32_zero_width : ends (busy [0xAA] [] (asmWru32 0 77 0xFFFFFFFF)) 0 0 77 [0xAA] = true := by decide
/-- V-WI-8. -/
theorem test_wru64_unaligned :
    ends (busy [0, 0, 0, 0, 0, 0, 0, 0, 0] [] (asmWru64 64 5 0x0123456789ABCDEF)) 0 0 69
      [0xE0, 0xBD, 0x79, 0x35, 0xF1, 0xAC, 0x68, 0x24, 0x00] = true := by decide +kernel
/-- V-VI-13. -/
theorem test_wrvar_five_bytes :
    ends (busy [0xEE, 0xEE, 0xEE, 0xEE, 0xEE, 0xEE] [] (asmWrvar 0 0xFFFFFFFF)) 0 0 5 [0xFF, 0xFF, 0xFF, 0xFF, 0x0F, 0xEE] =
      true := by decide
/-- V-VI-24. -/
theorem test_wrvar_past_end :
    ends (busy [0xEE, 0xEE, 0xEE, 0xEE] [] (asmWrvar 3 0x80)) 3 0 0 [0xEE, 0xEE, 0xEE, 0xEE] = true := by decide
/-- V-VI-15. -/
theorem test_rdvar_five_bytes :
    ends (busy [0xEE, 0xFF, 0xFF, 0xFF, 0xFF, 0x0F, 0x33] [] (asmRdvar 1)) 0 0xFFFFFFFF 6
      [0xEE, 0xFF, 0xFF, 0xFF, 0xFF, 0x0F, 0x33] = true := by decide
/-- V-VI-18. -/
theorem test_rdvar_malformed_at_end :
    ends (busy [0x80, 0x80, 0x80, 0x80, 0x80] [] (asmRdvar 0)) 4 0 0 [0x80, 0x80, 0x80, 0x80, 0x80] = true := by decide
/-- V-EX-6: the width is checked before the bounds. -/
theorem test_contract_before_bounds :
    ends (busy [0x00] [] { Request.zero with cmd := 0x00000641, offset := 1000 }) 2 0 0 [0x00] = true := by decide
/-- V-RS-4: between START and completion the previous response shows, not valid. -/
theorem test_start_keeps_old_response :
    nextIs
      (step
        { busy [0x34, 0x12] [] (asmRdu16 16 0) with
          phase := .idle, schedule := [.start], resp := { valid := true, status := 4, result := 0, next := 0 } })
      (fun t => decide (t.resp = { valid := false, status := 4, result := 0, next := 0 } ∧ t.phase = .busy)) = true := by
  decide
/-- 70_reset_and_hazards.md rule R163: a write gives the field bits a value and leaves the others without one. -/
theorem test_write_gives_values :
    nextIs (step { busy [0x00] [] (asmWrbits 3 2 7) with b := BitMemory.blank })
      (fun t => decide (t.b.byte 0 = (0x1C, 0x1C))) = true := by decide

/-! ### Witnesses: concrete inputs that meet each statement's hypotheses -/

theorem witness_DecodeOfEncode : (Instr.rdbits 127).wellFormed = true ∧ Instr.rdvar.wellFormed = true := by decide

theorem witness_EncodeOfDecode :
    decode 0x000007F1 = .command (.rdbits 127) ∧ decode 0x0000000C = .command .rdvar := by decide

/-- A word that reports ILLEGAL_COMMAND, and one of each other reason. -/
theorem witness_IllegalWordsAreTheReservedOnes :
    (∃ t, complete (busy [0x00] [] { Request.zero with cmd := 0x80000012 }) = .next t ∧
      decide (t.resp.status = 1) = true) ∧
    (busy [0x00] [] { Request.zero with cmd := 0x80000012 }).req.cmd = 0x80000012 ∧
    decode 0x80000012 = .illegal .reservedBitsSet ∧ decode 0x0000000D = .illegal .reservedOpcode ∧
      decode 0x0000001B = .illegal .widthOnWidthless :=
  ⟨next_of_nextIs (by decide), by decide, by decide, by decide, by decide⟩

/-- An engine with RDBITS 5 latched. -/
def reading : State := busy [0xB5, 0x3C] [] (asmRdbits 5 6)

theorem witness_StepExecutesTheLatchedCommand :
    (reading.cfg.ok = true ∧ reading.phase = .busy ∧ reading.schedule = [] ∧
      decode reading.req.cmd = .command (.rdbits 5)) ∧
    ({ reading with schedule := [.engine, .reset] } : State).schedule = .engine :: [.reset] := by decide

theorem witness_IllegalWordCompletesWithItsStatus :
    (busy [0x00] [] Request.zero).cfg.ok = true ∧ (busy [0x00] [] Request.zero).phase = .busy ∧
      (busy [0x00] [] Request.zero).schedule = [] ∧
      decode (busy [0x00] [] Request.zero).req.cmd = .illegal .reservedOpcode := by decide

theorem witness_TableWordRunsNext :
    State.reset.cfg.ok = true ∧ decodeTableWord 32 0x00000081 = some (.rdbits 8) := by decide

/-- An IDLE engine whose host is about to do `e`. -/
def idleBefore (e : Event) : State := { reading with phase := .idle, schedule := [e] }

/-- A BUSY engine whose host is about to do `e`. -/
def busyBefore (e : Event) : State := { reading with schedule := [e] }

theorem witness_StartLatchesTheRequest :
    (idleBefore .start).cfg.ok = true ∧ (idleBefore .start).schedule = .start :: [] ∧
      (idleBefore .start).phase = .idle := by decide

theorem witness_StartWhileBusyIsRefused :
    (busyBefore .start).cfg.ok = true ∧ (busyBefore .start).schedule = .start :: [] ∧
      (busyBefore .start).phase = .busy := by decide

theorem witness_HostFieldsDoNotReachALatchedRequest :
    (busyBefore (.present (asmRdvar 0))).cfg.ok = true ∧
      (busyBefore (.present (asmRdvar 0))).schedule = .present (asmRdvar 0) :: [] := by decide

theorem witness_IdleEngineHoldsItsResponse :
    (idleBefore .engine).cfg.ok = true ∧ (idleBefore .engine).phase = .idle ∧
      (idleBefore .engine).schedule = .engine :: [] := by decide

/-- A BUSY engine copying one byte from `X` byte 1 into bits 4 to 11 of `B`. -/
def copying (e : Event) : State := { busy [0, 0, 0] [7, 8] (asmWrbytes 4 1 1) with schedule := [e] }

/-- A BUSY engine copying one byte out of `B` into `X` byte 0. -/
def copyingOut (e : Event) : State := { busy [0, 0, 0] [7, 8] (asmRdbytes 4 1 0) with schedule := [e] }

/-- Each clause, with a byte inside the footprint at its edge and a byte just outside. -/
theorem witness_RacingAccessesAreRefused :
    ((copying (.writeB 1 9)).cfg.ok = true ∧ (copying (.writeB 1 9)).schedule = .writeB 1 9 :: [] ∧
      1 < (copying (.writeB 1 9)).cfg.bufLen ∧ (latchedTouch (copying (.writeB 1 9))).writeB.has 1 = true ∧
      (latchedTouch (copying (.writeB 2 9))).writeB.has 2 = false ∧
      (latchedTouch (copying (.writeB 2 9))).readB.has 2 = false) ∧
    ((copying (.writeX 1 9)).schedule = .writeX 1 9 :: [] ∧ 1 < (copying (.writeX 1 9)).cfg.xferLen ∧
      (latchedTouch (copying (.writeX 1 9))).readX.has 1 = true ∧
      (latchedTouch (copying (.writeX 0 9))).readX.has 0 = false) ∧
    ((copying (.readB 1)).schedule = .readB 1 :: [] ∧ (latchedTouch (copying (.readB 1))).writeB.has 1 = true ∧
      (latchedTouch (copying (.readB 2))).writeB.has 2 = false) ∧
    ((copyingOut (.readX 0)).schedule = .readX 0 :: [] ∧ (latchedTouch (copyingOut (.readX 0))).writeX.has 0 = true ∧
      (latchedTouch (copyingOut (.readX 1))).writeX.has 1 = false) := by decide

theorem witness_ResetInIdle :
    (idleBefore .reset).cfg.ok = true ∧ (idleBefore .reset).schedule = .reset :: [] ∧
      (idleBefore .reset).phase = .idle := by decide

/-- A command that completes, one whose response needs a bit without a value, and one that would copy such a bit. -/
theorem witness_ResetWhileBusy :
    ((busyBefore .reset).cfg.ok = true ∧ (busyBefore .reset).schedule = .reset :: [] ∧ (busyBefore .reset).phase = .busy) ∧
    (∃ u, complete (busyBefore .reset) = .next u ∧ decide (u.resp.status = 0) = true) ∧
    complete { busyBefore .reset with b := BitMemory.blank } = .fault .readWithoutValue ∧
    complete { copyingOut .reset with b := BitMemory.blank } = .fault .copyWithoutValue ∧
    (copyingOut .reset).schedule = .reset :: [] :=
  ⟨by decide, next_of_nextIs (by decide), fault_of_faultIs (by decide), fault_of_faultIs (by decide), by decide⟩

/-- Each clause at the first value outside the parameter's range. -/
theorem witness_BadConfigurationsAreRefused :
    (2 ^ 28 < (State.resetOf (cfg .little .truncate (2 ^ 28 + 1) 0)).cfg.bufLen ∧
      2 ^ 32 - 1 < (State.resetOf (cfg .little .truncate 0 (2 ^ 32))).cfg.xferLen) ∧
    ((State.resetOf { cfg .little .truncate 4 4 with sharedStorage := true }).cfg.bufLen ≤ 2 ^ 28 ∧
      (State.resetOf { cfg .little .truncate 4 4 with sharedStorage := true }).cfg.xferLen ≤ 2 ^ 32 - 1 ∧
      (State.resetOf { cfg .little .truncate 4 4 with sharedStorage := true }).cfg.sharedStorage = true) := by decide

/-- One byte of `B` of which bits 0 to 6 have a value, and a request for its first bits. -/
def halfKnown : State := { busy [0] [] (asmRdbits 8 0) with b := partly 0x05 0x7F }

/-- At the last field of `B`; a field whose last bit has no value. -/
theorem witness_RdbitsReturnsTheField :
    (1 ≤ 5 ∧ 5 ≤ 8 ∧ (busy [0xB5, 0x3C] [] (asmRdbits 5 11)).offset + 5 ≤ 8 * (busy [0xB5, 0x3C] [] (asmRdbits 5 11)).cfg.bufLen ∧
      ∀ k, k < 5 → (busy [0xB5, 0x3C] [] (asmRdbits 5 11)).b.hasValue ((busy [0xB5, 0x3C] [] (asmRdbits 5 11)).offset + k) = true) ∧
    (halfKnown.offset + 8 ≤ 8 * halfKnown.cfg.bufLen ∧ (∀ k, k < 7 → halfKnown.b.hasValue (halfKnown.offset + k) = true) ∧
      ∃ k, k < 8 ∧ halfKnown.b.hasValue (halfKnown.offset + k) = false) :=
  ⟨by decide, by decide, by decide, 7, by decide, by decide⟩

/-- Nine bytes of `B`, and a request at bit offset 5. -/
def nine (e : Endian) : State := busyIn e .truncate [1, 2, 3, 4, 5, 6, 7, 8, 9] [] (asmRdu64 64 5)

/-- Each type width, in both modes; the first widths and offsets that fail; a field whose last bit has no value. -/
theorem witness_WideReadsReturnTheField :
    ((16, Instr.rdu16 16, Instr.wru16 16) ∈ wideCommands 16 ∧ (32, Instr.rdu32 1, Instr.wru32 1) ∈ wideCommands 1 ∧
      (64, Instr.rdu64 64, Instr.wru64 64) ∈ wideCommands 64 ∧ (nine .little).offset + 64 ≤ 8 * (nine .little).cfg.bufLen ∧
      (∀ k, k < 64 → (nine .little).b.hasValue ((nine .little).offset + k) = true) ∧ (nine .little).cfg.endian = .little ∧
      (nine .big).cfg.endian = .big) ∧
    ((16, Instr.rdu16 17, Instr.wru16 17) ∈ wideCommands 17 ∧ 16 < 17 ∧ (32, Instr.rdu32 0, Instr.wru32 0) ∈ wideCommands 0 ∧
      0 < 1) ∧
    8 * (busy [0, 0, 0, 0] [] (asmRdu32 32 1)).cfg.bufLen < (busy [0, 0, 0, 0] [] (asmRdu32 32 1)).offset + 32 ∧
    ((16, Instr.rdu16 8, Instr.wru16 8) ∈ wideCommands 8 ∧ halfKnown.offset + 8 ≤ 8 * halfKnown.cfg.bufLen ∧
      ∃ k, k < 8 ∧ halfKnown.b.hasValue (halfKnown.offset + k) = false) :=
  ⟨by decide, by decide, by decide, by decide, by decide, 7, by decide, by decide⟩

theorem witness_WrbitsSetsTheField :
    1 ≤ 8 ∧ 8 ≤ 8 ∧ (busy [0, 0] [] (asmWrbits 8 8 0xFF)).offset + 8 ≤ 8 * (busy [0, 0] [] (asmWrbits 8 8 0xFF)).cfg.bufLen := by
  decide

theorem witness_WideWritesSetTheField :
    ((64, Instr.rdu64 64, Instr.wru64 64) ∈ wideCommands 64 ∧ 1 ≤ 64 ∧ 64 ≤ 64 ∧
      (nine .big).offset + 64 ≤ 8 * (nine .big).cfg.bufLen ∧ (nine .big).cfg.ok = true ∧ (nine .big).cfg.endian = .big ∧
      (nine .little).cfg.endian = .little) ∧
    ((64, Instr.rdu64 65, Instr.wru64 65) ∈ wideCommands 65 ∧ 64 < 65 ∧ (16, Instr.rdu16 0, Instr.wru16 0) ∈ wideCommands 0) ∧
    8 * (busy [0, 0, 0, 0] [] (asmWru32 32 1 0)).cfg.bufLen < (busy [0, 0, 0, 0] [] (asmWru32 32 1 0)).offset + 32 := by decide

/-- Two bytes of `B` at offset 4 to or from the last two bytes of `X`. -/
def running : State := busy [0x21, 0x43, 0x65] [1, 2, 3] (asmRdbytes 4 2 1)

/-- A run of one byte, of which bit 7 has no value in either memory. -/
def halfRun : State := { busy [0] [0] (asmRdbytes 0 1 0) with b := partly 0x05 0x7F, x := partly 0x05 0x7F }

/-- With values, and with the run's last bit without one. -/
theorem witness_RdbytesCopiesTheRun :
    (1 ≤ running.count ∧ running.offset + 8 * running.count ≤ 8 * running.cfg.bufLen ∧
      running.xoff + running.count ≤ running.cfg.xferLen ∧
      ∀ k, k < 8 * running.count → running.b.hasValue (running.offset + k) = true) ∧
    (1 ≤ halfRun.count ∧ halfRun.offset + 8 * halfRun.count ≤ 8 * halfRun.cfg.bufLen ∧
      halfRun.xoff + halfRun.count ≤ halfRun.cfg.xferLen ∧
      ∃ k, k < 8 * halfRun.count ∧ halfRun.b.hasValue (halfRun.offset + k) = false) :=
  ⟨by decide, by decide, by decide, by decide, 7, by decide, by decide⟩

/-- With values, and with the run's last bit without one. -/
theorem witness_WrbytesCopiesTheRun :
    (1 ≤ running.count ∧ running.offset + 8 * running.count ≤ 8 * running.cfg.bufLen ∧
      running.xoff + running.count ≤ running.cfg.xferLen ∧
      ∀ k, k < 8 * running.count → running.x.hasValue (8 * running.xoff + k) = true) ∧
    (1 ≤ halfRun.count ∧ halfRun.offset + 8 * halfRun.count ≤ 8 * halfRun.cfg.bufLen ∧
      halfRun.xoff + halfRun.count ≤ halfRun.cfg.xferLen ∧
      ∃ k, k < 8 * halfRun.count ∧ halfRun.x.hasValue (8 * halfRun.xoff + k) = false) :=
  ⟨by decide, by decide, by decide, by decide, 7, by decide, by decide⟩

theorem witness_WrvarWritesTheEncoding :
    (busy [0, 0, 0, 0, 0] [] (asmWrvar 0 0xFFFFFFFF)).offset +
        varLen ((busy [0, 0, 0, 0, 0] [] (asmWrvar 0 0xFFFFFFFF)).req.data.toNat % 2 ^ 32) ≤
      (busy [0, 0, 0, 0, 0] [] (asmWrvar 0 0xFFFFFFFF)).cfg.bufLen := by decide

/-- A five-byte varint, in either treatment of its top bits. -/
def decoding (t : TopBits) (last : Nat) : State := busyIn .little t [0xFF, 0xFF, 0xFF, 0xFF, last] [] (asmRdvar 0)

/-- A one-byte varint whose bit 7 has no value, and one whose payload bit 3 has none. -/
def varintUnknown (known : Byte) : State := { busy [0] [] (asmRdvar 0) with b := partly 0x05 known }

/-- A fifth byte under REJECT whose bits 0 to 3 and 7 have values and whose bits 4 to 6 have none. -/
def fifthUnknown : State :=
  { decoding .reject 0x0F with
    b :=
      { value := Memory.write (decoding .reject 0x0F).b.value 4 0x0F
        known := Memory.write (decoding .reject 0x0F).b.known 4 0x8F } }

/-- A five-byte stream under each treatment; then the fault clause with the stream's end unknown, a payload bit unknown, and, at the
fifth byte under REJECT, the top bits unknown. -/
theorem witness_RdvarReturnsTheValue :
    ((decoding .truncate 0x7F).offset + 4 < (decoding .truncate 0x7F).cfg.bufLen ∧
      (∀ i, i < 4 → (decoding .truncate 0x7F).b.bit (8 * ((decoding .truncate 0x7F).offset + i) + 7) = true) ∧
      (decoding .truncate 0x7F).b.bit (8 * ((decoding .truncate 0x7F).offset + 4) + 7) = false ∧
      ∀ k, k < 8 * (4 + 1) → (k < 36 ∨ k = 39 ∨ (decoding .truncate 0x7F).cfg.topBits = .reject) →
        (decoding .truncate 0x7F).b.hasValue (8 * (decoding .truncate 0x7F).offset + k) = true) ∧
    ((decoding .reject 0x0F).cfg.topBits = .reject ∧
      (∀ i, i < 4 → (decoding .reject 0x0F).b.bit (8 * ((decoding .reject 0x0F).offset + i) + 7) = true) ∧
      (decoding .reject 0x0F).b.bit (8 * ((decoding .reject 0x0F).offset + 4) + 7) = false ∧
      (∀ k, k < 8 * (4 + 1) → (decoding .reject 0x0F).b.hasValue (8 * (decoding .reject 0x0F).offset + k) = true) ∧
      ∀ k, k < 39 → 36 ≤ k → (decoding .reject 0x0F).b.bit (8 * (decoding .reject 0x0F).offset + k) = false) ∧
    ((varintUnknown 0x7F).offset + 0 < (varintUnknown 0x7F).cfg.bufLen ∧
      (varintUnknown 0x7F).b.hasValue (8 * ((varintUnknown 0x7F).offset + 0) + 7) = false) ∧
    ((varintUnknown 0xF7).b.bit (8 * ((varintUnknown 0xF7).offset + 0) + 7) = false ∧
      ∃ k, k < 8 * (0 + 1) ∧ (k < 36 ∨ k = 39 ∨ (varintUnknown 0xF7).cfg.topBits = .reject) ∧
        (varintUnknown 0xF7).b.hasValue (8 * (varintUnknown 0xF7).offset + k) = false) ∧
    (fifthUnknown.offset + 4 < fifthUnknown.cfg.bufLen ∧
      (∀ i, i < 4 → fifthUnknown.b.bit (8 * (fifthUnknown.offset + i) + 7) = true ∧
        fifthUnknown.b.hasValue (8 * (fifthUnknown.offset + i) + 7) = true) ∧
      (∀ k, k < 39 → 36 ≤ k → fifthUnknown.b.hasValue (8 * fifthUnknown.offset + k) = true →
        fifthUnknown.b.bit (8 * fifthUnknown.offset + k) = false) ∧
      fifthUnknown.b.bit (8 * (fifthUnknown.offset + 4) + 7) = false ∧
      ∃ k, k < 8 * (4 + 1) ∧ (k < 36 ∨ k = 39 ∨ fifthUnknown.cfg.topBits = .reject) ∧
        fifthUnknown.b.hasValue (8 * fifthUnknown.offset + k) = false) :=
  ⟨by decide, by decide, by decide, ⟨by decide, 3, by decide, by decide, by decide⟩, by decide, by decide, by decide, by decide, 36,
    by decide, by decide, by decide⟩

theorem witness_ZeroSizesCompleteOk :
    (busy [0x00] [] (asmRdbytes 999 0 5)).count = 0 ∧ (32, Instr.rdu32 0, Instr.wru32 0) ∈ wideCommands 0 := by decide

/-- One illegal width for each command with one, and a command that reports it. -/
theorem witness_ContractViolationExactly :
    (widthIllegal (.rdbits 0) ∧ widthIllegal (.rdbits 9) ∧ widthIllegal (.wrbits 9) ∧ widthIllegal (.rdu16 17) ∧
      widthIllegal (.rdu32 0) ∧ widthIllegal (.rdu64 65) ∧ widthIllegal (.wru16 17) ∧ widthIllegal (.wru32 33) ∧
      widthIllegal (.wru64 65)) ∧
    ∃ t, exec (.rdbits 9) reading = .next t ∧ decide (t.resp.status = 2) = true :=
  ⟨⟨⟨1, 8, rfl, by decide⟩, ⟨1, 8, rfl, by decide⟩, ⟨0, 8, rfl, by decide⟩, ⟨1, 16, rfl, by decide⟩, ⟨1, 32, rfl, by decide⟩,
    ⟨1, 64, rfl, by decide⟩, ⟨0, 16, rfl, by decide⟩, ⟨0, 32, rfl, by decide⟩, ⟨0, 64, rfl, by decide⟩⟩,
    next_of_nextIs (by decide)⟩

/-- Each shape of the bounds table one bit or one byte past the end, and a command that reports it. -/
theorem witness_BoundsViolationExactly :
    (Instr.rdbits 5 ≠ .rdvar ∧ ¬ widthIllegal (.rdbits 5) ∧ boundsIllegal (.rdbits 5) (busy [0, 0] [] (asmRdbits 5 12)) ∧
      boundsIllegal (.wru16 16) (busy [0, 0] [] (asmWru16 16 1 0)) ∧
      boundsIllegal .rdbytes (busy [0, 0] [0] (asmRdbytes 0 2 0)) ∧
      boundsIllegal .wrbytes (busy [0, 0] [0, 0] (asmWrbytes 1 2 0)) ∧
      boundsIllegal .wrvar (busy [0, 0] [] (asmWrvar 1 0x80))) ∧
    ∃ t, exec (.rdbits 5) (busy [0, 0] [] (asmRdbits 5 12)) = .next t ∧ decide (t.resp.status = 3) = true := by
  refine ⟨⟨by decide, ?_, ?_, ?_, ?_, ?_, ?_⟩, next_of_nextIs (by decide)⟩
  · rintro ⟨lo, hi, h, hw⟩
    obtain ⟨rfl, rfl⟩ : lo = 1 ∧ hi = 8 := by cases h; exact ⟨rfl, rfl⟩
    revert hw
    decide
  all_goals (simp only [boundsIllegal]; decide)

theorem witness_MalformedVarintsAreReported :
    ((decoding .truncate 0x80).offset + 5 ≤ (decoding .truncate 0x80).cfg.bufLen ∧
      ∀ i, i < 5 → (decoding .truncate 0x80).b.hasValue (8 * ((decoding .truncate 0x80).offset + i) + 7) = true ∧
        (decoding .truncate 0x80).b.bit (8 * ((decoding .truncate 0x80).offset + i) + 7) = true) ∧
    ((decoding .reject 0x10).offset + 5 ≤ (decoding .reject 0x10).cfg.bufLen ∧ (decoding .reject 0x10).cfg.topBits = .reject ∧
      (∀ i, i < 4 → (decoding .reject 0x10).b.hasValue (8 * ((decoding .reject 0x10).offset + i) + 7) = true ∧
        (decoding .reject 0x10).b.bit (8 * ((decoding .reject 0x10).offset + i) + 7) = true) ∧
      ((decoding .reject 0x10).b.hasValue (8 * (decoding .reject 0x10).offset + 36) = true ∧
        (decoding .reject 0x10).b.bit (8 * (decoding .reject 0x10).offset + 36) = true)) ∧
    ∃ t, exec .rdvar (decoding .truncate 0x80) = .next t ∧ decide (t.resp.status = 4) = true :=
  ⟨by decide, by decide, next_of_nextIs (by decide)⟩

/-- Four continuation bytes at the end of `B`, and a read that starts past the end. -/
theorem witness_RdvarStopsAtTheEnd :
    ((busy [0x80, 0x80, 0x80, 0x80] [] (asmRdvar 0)).offset + 4 ≤ (busy [0x80, 0x80, 0x80, 0x80] [] (asmRdvar 0)).cfg.bufLen ∧
      (busy [0x80, 0x80, 0x80, 0x80] [] (asmRdvar 0)).cfg.bufLen ≤ (busy [0x80, 0x80, 0x80, 0x80] [] (asmRdvar 0)).offset + 4 ∧
      ∀ i, i < 4 →
        (busy [0x80, 0x80, 0x80, 0x80] [] (asmRdvar 0)).b.hasValue
            (8 * ((busy [0x80, 0x80, 0x80, 0x80] [] (asmRdvar 0)).offset + i) + 7) = true ∧
          (busy [0x80, 0x80, 0x80, 0x80] [] (asmRdvar 0)).b.bit
            (8 * ((busy [0x80, 0x80, 0x80, 0x80] [] (asmRdvar 0)).offset + i) + 7) = true) ∧
    (busy [0] [] (asmRdvar 7)).cfg.bufLen ≤ (busy [0] [] (asmRdvar 7)).offset + 0 := by decide

/-- A BUSY engine whose command fails. -/
def failing : State := busy [0x12, 0x34] [] (asmWru16 16 1 0xFFFF)

theorem witness_FailuresChangeNothing : ∃ t, complete failing = .next t ∧ decide (t.resp.status ≠ 0) = true :=
  next_of_nextIs (by decide)

/-- With no record before and with one. -/
theorem witness_ProgrammingErrorsAreRecorded :
    (∃ t, complete failing = .next t ∧ decide (failing.runFault = none ∧ t.runFault = some .boundsViolation) = true) ∧
    ∃ t, complete { failing with runFault := some .illegalCommand } = .next t ∧
      decide (t.runFault = some .illegalCommand) = true :=
  ⟨next_of_nextIs (by decide), next_of_nextIs (by decide)⟩

/-- A command after the failed one that completes, and one that faults. -/
theorem witness_FailuresAreNotSticky :
    (∃ t, complete failing = .next t ∧ decide (t.resp.status ≠ 0) = true) ∧
    (∃ u, complete { failing with req := asmRdbits 8 8 } = .next u ∧ decide (u.resp.result = 0x34) = true) ∧
    ∃ t, complete { failing with b := BitMemory.blank } = .next t ∧
      complete { ({ failing with b := BitMemory.blank } : State) with req := asmRdbits 8 8 } = .fault .readWithoutValue :=
  ⟨next_of_nextIs (by decide), next_of_nextIs (by decide),
    have ⟨t, h, _⟩ := next_of_nextIs (o := complete { failing with b := BitMemory.blank }) (p := fun _ => true) (by decide)
    ⟨t, h, fault_of_faultIs (by decide)⟩⟩

/-- Two engines that differ in everything a command may not read. -/
theorem witness_OutcomeDependsOnRequestAndMemoriesOnly :
    (idleBefore .reset).cfg = reading.cfg ∧ (idleBefore .reset).req = reading.req ∧ (idleBefore .reset).b = reading.b ∧
      (idleBefore .reset).x = reading.x ∧ (idleBefore .reset).phase ≠ reading.phase ∧
      nextIs (complete reading) (fun _ => true) = true := by decide

theorem witness_EveryCommandEnds :
    running.cfg.ok = true ∧ running.phase = .busy ∧ running.schedule = [] ∧
      (∀ j, j < 8 * running.cfg.bufLen → running.b.hasValue j = true) ∧
      ∀ j, j < 8 * running.cfg.xferLen → running.x.hasValue j = true := by decide

/-- A write of two of three bytes: byte 2 is outside the footprint, bytes 0 and 1 inside. -/
theorem witness_WritesStayInTheFootprint :
    (∃ t, exec .wrbytes (copying .engine) = .next t ∧ decide (t.b.byte 0 ≠ (copying .engine).b.byte 0) = true) ∧
      (touch .wrbytes (copying .engine)).writeB.has 2 = false ∧ (touch .wrbytes (copying .engine)).writeB.has 1 = true ∧
      (touch .wrbytes (copying .engine)).writeX.has 0 = false :=
  ⟨next_of_nextIs (by decide), by decide, by decide, by decide⟩

/-- `reading` with another byte of `B` and all of `X` outside RDBITS 8's footprint changed. -/
theorem witness_ReadsStayInTheFootprint :
    ∃ s s' : State, s'.cfg = s.cfg ∧ s'.req = s.req ∧ s'.b ≠ s.b ∧
      (∀ a, (touch (.rdbits 8) s).readB.has a = true → s'.b.byte a = s.b.byte a) ∧
      (∀ a, (touch (.rdbits 8) s).readX.has a = true → s'.x.byte a = s.x.byte a) ∧
      nextIs (exec (.rdbits 8) s) (fun _ => true) = true := by
  refine ⟨busy [5, 6] [] (asmRdbits 8 0), { busy [5, 6] [] (asmRdbits 8 0) with b := mem [5, 9] }, rfl, rfl, by decide,
    fun a h => ?_, fun a _ => rfl, by decide⟩
  have span : (touch (.rdbits 8) (busy [5, 6] [] (asmRdbits 8 0))).readB = { lo := 0, len := 1 } := by decide
  rw [span, Span.has, Bool.and_eq_true, decide_eq_true_eq, decide_eq_true_eq] at h
  obtain rfl : a = 0 := by
    have below : a < 0 + 1 := h.2
    omega
  decide

/-- Two memories that differ in bits without a value only. -/
theorem witness_BitsWithoutValueNeverMatter :
    (partly 0x05 0x0F).SameWhereValued (partly 0xF5 0x0F) ∧ (partly 0x05 0x0F) ≠ (partly 0xF5 0x0F) ∧
      (nextIs (exec (.rdbits 4) { busy [0] [] (asmRdbits 4 0) with b := partly 0x05 0x0F }) (fun _ => true) = true ∧
        exec (.rdbits 5) { busy [0] [] (asmRdbits 5 0) with b := partly 0x05 0x0F } = .fault .readWithoutValue) := by
  refine ⟨fun i => ⟨rfl, fun h => ?_⟩, by decide, by decide, fault_of_faultIs (by decide)⟩
  have inside : i < 4 := by
    rcases Nat.lt_or_ge i 8 with hi | hi
    · revert h
      revert i
      decide
    · have far : ¬ i / 8 = 0 := by omega
      simp [BitMemory.hasValue, partly, Memory.write, Memory.erase, Memory.place, Memory.read, far, byteBit] at h
  revert i
  have all : ∀ i, i < 4 → (partly 0x05 0x0F).bit i = (partly 0xF5 0x0F).bit i := by decide
  intro i _ inside
  exact all i inside

/-- Each fault is reached. -/
theorem witness_FaultsOnlyWhereAValueIsMissing :
    exec .rdvar { busy [0] [] (asmRdvar 0) with b := partly 0x05 0x7F } = .fault .readWithoutValue ∧
      exec .rdbytes { busy [0] [0] (asmRdbytes 0 1 0) with b := partly 0x05 0x7F } = .fault .copyWithoutValue ∧
      exec .wrbytes { busy [0] [0] (asmWrbytes 0 1 0) with x := partly 0x05 0x7F } = .fault .copyWithoutValue :=
  ⟨fault_of_faultIs (by decide), fault_of_faultIs (by decide), fault_of_faultIs (by decide)⟩

theorem witness_EndianChangesWideCommandsOnly :
    isWide (.rdbits 5) = false ∧ nextIs (exec (.rdbits 5) reading) (fun _ => true) = true ∧
      exec (.rdbits 5) { reading with b := BitMemory.blank } = .fault .readWithoutValue :=
  ⟨by decide, by decide, fault_of_faultIs (by decide)⟩

theorem witness_ConfigurationNeverChanges : ∃ t, step reading = .next t ∧ (fun _ : State => true) t = true :=
  next_of_nextIs (by decide)

/-- A host write, and a START. -/
theorem witness_NothingChangesOutsideComplete :
    ((idleBefore (.writeB 1 9)).schedule = .writeB 1 9 :: [] ∧
      nextIs (step (idleBefore (.writeB 1 9))) (fun t => decide (t.b = mem [0xB5, 9])) = true) ∧
    ((idleBefore .start).schedule = .start :: [] ∧
      nextIs (step (idleBefore .start)) (fun t => decide (t.b = mem [0xB5, 0x3C])) = true) := by decide

theorem witness_ResetMeetsTheInvariant : Config.initial.ok = true ∧ (cfg .big .reject 0 0).ok = true := by decide

theorem witness_EveryStepKeepsTheInvariant :
    failing.Inv ∧ ∃ t, step failing = .next t ∧ decide (t.resp.status = 3) = true := by
  refine ⟨⟨by decide, by decide, by decide, by decide, fun h => absurd rfl h, fun _ => rfl, fun h => (nomatch h),
    fun f h => nomatch h⟩,
    next_of_nextIs (by decide)⟩

theorem witness_ByteRoundTrip :
    1 ≤ 8 ∧ 8 ≤ 8 ∧ (busy [0, 0] [] (asmWrbits 8 8 0x5A)).offset + 8 ≤ 8 * (busy [0, 0] [] (asmWrbits 8 8 0x5A)).cfg.bufLen := by
  decide

/-- With the run's bytes read back over their own source, and a run of no bytes. -/
theorem witness_ByteRunFidelity :
    running.offset + 8 * running.count ≤ 8 * running.cfg.bufLen ∧ running.xoff + running.count ≤ running.cfg.xferLen ∧
      (0 : Word32).toNat + running.count ≤ running.cfg.xferLen ∧
      ∀ k, k < 8 * running.count → running.x.hasValue (8 * running.xoff + k) = true := by decide

theorem witness_WideRoundTrip :
    (16, Instr.rdu16 9, Instr.wru16 9) ∈ wideCommands 9 ∧ 1 ≤ 9 ∧ 9 ≤ 16 ∧
      (nine .little).offset + 9 ≤ 8 * (nine .little).cfg.bufLen ∧ (nine .little).cfg.endian = .little ∧
      (64, Instr.rdu64 64, Instr.wru64 64) ∈ wideCommands 64 ∧ (nine .big).offset + 64 ≤ 8 * (nine .big).cfg.bufLen := by
  decide

theorem witness_BigEndianPartialWidth :
    (64, Instr.rdu64 63, Instr.wru64 63) ∈ wideCommands 63 ∧ 1 ≤ 63 ∧ 63 < 64 ∧
      (nine .big).offset + 63 ≤ 8 * (nine .big).cfg.bufLen ∧ (nine .big).cfg.endian = .big := by decide

theorem witness_BigEndianReversesTheBytes :
    (64, Instr.rdu64 64, Instr.wru64 64) ∈ wideCommands 64 ∧ (nine .big).offset + 64 ≤ 8 * (nine .big).cfg.bufLen := by decide

/-- Three fields that fill `B` from bit 11 to its last bit. -/
def message : List WideField :=
  [{ commands := (16, .rdu16 16, .wru16 16), width := 16, value := 44 },
   { commands := (32, .rdu32 29, .wru32 29), width := 29, value := 42 },
   { commands := (16, .rdu16 16, .wru16 16), width := 16, value := 0xFFFF }]

/-- Two fields of full width and one below it, in BE mode. -/
theorem witness_ChainedWritesReadBack :
    (nine .big).cfg.ok = true ∧
      (∀ f, f ∈ message → f.commands ∈ wideCommands f.width ∧ 1 ≤ f.width ∧ f.width ≤ f.commands.1) ∧
      (11 : Word32).toNat + totalWidth message ≤ 8 * (nine .big).cfg.bufLen ∧
      (message.map (fun f => decide (f.width = f.commands.1))) = [true, false, true] := by decide

/-- A 64-bit field and narrower reads of three kinds in LE mode, and an 8-bit field and two reads of it in BE mode. -/
theorem witness_NarrowReadsPartitionAField :
    ((nine .little).cfg.ok = true ∧ (nine .little).cfg.endian = .little ∧
      (∀ i, i ∈ [Instr.rdu64 64, .rdbits 1, .rdu16 16, .rdu32 32, .rdu64 15] → isFieldRead i = true ∧ ¬ widthIllegal i) ∧
      (([.rdbits 1, .rdu16 16, .rdu32 32, .rdu64 15] : List Instr).map Instr.nbitsField).sum = (Instr.rdu64 64).nbitsField ∧
      (nine .little).offset + (Instr.rdu64 64).nbitsField ≤ 8 * (nine .little).cfg.bufLen ∧
      ∀ k, k < (Instr.rdu64 64).nbitsField → (nine .little).b.hasValue ((nine .little).offset + k) = true) ∧
    ((nine .big).cfg.ok = true ∧
      (∀ i, i ∈ [Instr.rdbits 8, .rdbits 3, .rdbits 5] →
        isFieldRead i = true ∧ ¬ widthIllegal i ∧ ((nine .big).cfg.endian = .little ∨ isWide i = false)) ∧
      (([.rdbits 3, .rdbits 5] : List Instr).map Instr.nbitsField).sum = (Instr.rdbits 8).nbitsField ∧
      (nine .big).offset + (Instr.rdbits 8).nbitsField ≤ 8 * (nine .big).cfg.bufLen ∧
      ∀ k, k < (Instr.rdbits 8).nbitsField → (nine .big).b.hasValue ((nine .big).offset + k) = true) := by
  have legal : ∀ (i : Instr) (hi : Nat), widthRange i = some (1, hi) → 1 ≤ i.nbitsField → i.nbitsField ≤ hi → ¬ widthIllegal i := by
    rintro i hi h low high ⟨a, b, g, hw⟩
    rw [h, Option.some.injEq, Prod.mk.injEq] at g
    omega
  refine ⟨⟨by decide, by decide, ?_, by decide, by decide, by decide⟩, by decide, ?_, by decide, by decide, by decide⟩
  · simp only [List.forall_mem_cons]
    exact ⟨⟨rfl, legal _ 64 rfl (by decide) (by decide)⟩, ⟨rfl, legal _ 8 rfl (by decide) (by decide)⟩,
      ⟨rfl, legal _ 16 rfl (by decide) (by decide)⟩, ⟨rfl, legal _ 32 rfl (by decide) (by decide)⟩,
      ⟨rfl, legal _ 64 rfl (by decide) (by decide)⟩, by simp⟩
  · simp only [List.forall_mem_cons]
    exact ⟨⟨rfl, legal _ 8 rfl (by decide) (by decide), .inr rfl⟩, ⟨rfl, legal _ 8 rfl (by decide) (by decide), .inr rfl⟩,
      ⟨rfl, legal _ 8 rfl (by decide) (by decide), .inr rfl⟩, by simp⟩

theorem witness_VarintRoundTrip :
    (busyIn .big .reject [0, 0, 0, 0, 0] [] (asmWrvar 0 0xFFFFFFFF)).offset +
        varLen ((busyIn .big .reject [0, 0, 0, 0, 0] [] (asmWrvar 0 0xFFFFFFFF)).req.data.toNat % 2 ^ 32) ≤
      (busyIn .big .reject [0, 0, 0, 0, 0] [] (asmWrvar 0 0xFFFFFFFF)).cfg.bufLen := by decide

theorem witness_VarintLengthAndBytes : 0xFFFFFFFF < 2 ^ 32 := by decide

theorem witness_ByteReversal : (32 = 16 ∨ 32 = 32 ∨ 32 = 64) ∧ 0xDEADBEEF < 2 ^ 32 := by decide

theorem witness_BitDatapathEqualsTheFieldOperations : 1 ≤ 8 ∧ 8 ≤ 8 := by decide

theorem witness_BooleansRoundTrip : (busy [0] [] Request.zero).cfg.ok = true ∧ 7 < 8 * (busy [0] [] Request.zero).cfg.bufLen := by
  decide

/-- Each row of the table at its bounds: the footprint's last byte and the byte after it, failing and zero-size commands. -/
theorem witness_FootprintsAreTheTable :
    (boundsIllegal (.rdbits 5) (busy [0, 0] [] (asmRdbits 5 12)) ∧ boundsIllegal .wrvar (busy [0] [] (asmWrvar 0 0x80))) ∧
    (reading.offset + 8 ≤ 8 * reading.cfg.bufLen ∧ (touch (.rdbits 8) reading).readB.has 1 = true ∧
      (touch (.rdbits 2) reading).readB.has 1 = false) ∧
    ((64, Instr.rdu64 64, Instr.wru64 64) ∈ wideCommands 64 ∧ (nine .big).offset + 64 ≤ 8 * (nine .big).cfg.bufLen ∧
      (touch (.wru64 64) (nine .big)).writeB.has 8 = true ∧ (touch (.wru64 64) (nine .big)).writeB.has 9 = false ∧
      (touch (.wrbits 0) (nine .big)).writeB.has 0 = false) ∧
    (running.offset + 8 * running.count ≤ 8 * running.cfg.bufLen ∧ running.xoff + running.count ≤ running.cfg.xferLen ∧
      (touch .rdbytes running).writeX.has 2 = true ∧ (touch .rdbytes running).writeX.has 0 = false) ∧
    ((busy [0, 0, 0] [] (asmWrvar 1 0x80)).offset + varLen ((busy [0, 0, 0] [] (asmWrvar 1 0x80)).data 32) ≤
        (busy [0, 0, 0] [] (asmWrvar 1 0x80)).cfg.bufLen ∧
      (touch .wrvar (busy [0, 0, 0] [] (asmWrvar 1 0x80))).writeB.has 2 = true ∧
      (touch .wrvar (busy [0, 0, 0] [] (asmWrvar 1 0x80))).writeB.has 0 = false) ∧
    ((touch .rdvar (busy [0, 0] [] (asmRdvar 0))).readB.has 1 = true ∧
      (touch .rdvar (busy [0, 0] [] (asmRdvar 0))).readB.has 2 = false ∧
      (touch .rdvar (nine .big)).readB.has 8 = true) ∧
    decode reading.req.cmd = .command (.rdbits 5) ∧ decode Request.zero.cmd = .illegal .reservedOpcode := by
  refine ⟨?_, by decide, by decide, by decide, by decide, by decide, by decide, by decide⟩
  simp only [boundsIllegal]
  decide

/-- Each access at the first byte past the end, in IDLE and while BUSY. -/
theorem witness_RespReadsAndAccessesPastTheEnd :
    (busyBefore .readResp).cfg.ok = true ∧ (busyBefore .readResp).schedule = .readResp :: [] ∧
      ((idleBefore (.writeB 2 9)).schedule = .writeB 2 9 :: [] ∧ (idleBefore (.writeB 2 9)).cfg.bufLen ≤ 2) ∧
      ((busyBefore (.writeX 0 9)).schedule = .writeX 0 9 :: [] ∧ (busyBefore (.writeX 0 9)).cfg.xferLen ≤ 0) ∧
      ((busyBefore (.readB 2)).schedule = .readB 2 :: [] ∧ (busyBefore (.readB 2)).cfg.bufLen ≤ 2) ∧
      ((idleBefore (.readX 0)).schedule = .readX 0 :: [] ∧ (idleBefore (.readX 0)).cfg.xferLen ≤ 0) := by decide

/-- A command of each kind over an old response that is not 0, and a failing one. -/
theorem witness_UnproducedResponseFieldsAreZero :
    (∃ t, exec (.rdbits 5) { reading with resp := { valid := false, status := 0, result := 7, next := 7 } } = .next t ∧
      decide (t.resp.result = 0x12 ∧ t.resp.next = 0) = true) ∧
    (∃ t, exec (.wru16 9) (nine .little) = .next t ∧ decide (t.resp.next = 14 ∧ t.resp.result = 0) = true) ∧
    ∃ t, complete { failing with resp := { valid := false, status := 0, result := 7, next := 7 } } = .next t ∧
      decide (t.resp.status ≠ 0) = true :=
  ⟨next_of_nextIs (by decide), next_of_nextIs (by decide), next_of_nextIs (by decide)⟩

/-- A host write of the request fields while BUSY, a START in IDLE, and a host write in IDLE. -/
theorem witness_LatchedRequestIsHeld :
    (nextIs (step (busyBefore (.present (asmRdvar 0)))) (fun t => decide (t.req ≠ t.presented)) = true ∧
      (busyBefore (.present (asmRdvar 0))).phase = .busy) ∧
    (nextIs (step (idleBefore .start)) (fun t => decide (t.req ≠ reading.req)) = true ∧
      (idleBefore .start).schedule = .start :: []) ∧
    (nextIs (step (idleBefore (.writeB 0 9))) (fun _ => true) = true ∧ (idleBefore (.writeB 0 9)).phase = .idle) ∧
    (∀ rest, (busyBefore (.present (asmRdvar 0))).schedule ≠ .reset :: rest) ∧
    (∀ rest, (idleBefore .start).schedule ≠ .reset :: rest) ∧
    ∀ rest, (idleBefore (.writeB 0 9)).schedule ≠ .reset :: rest ∧ (idleBefore (.writeB 0 9)).schedule ≠ .start :: rest :=
  ⟨by decide, by decide, by decide, fun _ h => (nomatch h), fun _ h => (nomatch h),
    fun _ => ⟨fun h => (nomatch h), fun h => (nomatch h)⟩⟩

end Sys2Proof.Tests
end

section
/-! PROOFS of the family 00_scope.md: byte reversal (rule R18), and the configurations no step is taken in (rules R7 and R8,
20_memory.md rule R43). -/

namespace Sys2Proof.Machine

/-! ### The bytes of a reversed number -/

/-- Bit `i` of byte `j` of `v` is bit `8 * j + i` of `v`. -/
theorem testBit_byte (v j i : Nat) :
    (v / 2 ^ (8 * j) % 256).testBit i = (decide (i < 8) && v.testBit (8 * j + i)) := by
  rw [show (256 : Nat) = 2 ^ 8 from rfl, Nat.testBit_mod_two_pow, Nat.testBit_div_two_pow, Nat.add_comm]

/-- Byte `j` of the reversal of `n` bytes is byte `n - 1 - j`. -/
theorem reverseBytes_byte {n j : Nat} (hj : j < n) (v : Nat) :
    reverseBytes n v / 2 ^ (8 * j) % 256 = v / 2 ^ (8 * (n - 1 - j)) % 256 := by
  refine Nat.eq_of_testBit_eq fun i => ?_
  rw [testBit_byte, testBit_byte, testBit_reverseBytes]
  by_cases hi : i < 8
  · have inside : 8 * j + i < 8 * n := by omega
    have byteIndex : (8 * j + i) / 8 = j := by omega
    have bitIndex : (8 * j + i) % 8 = i := by omega
    simp [inside, byteIndex, bitIndex]
  · simp [hi]

/-- Settles O53: the reversal fits its width, and its bytes are the mirrored ones. -/
theorem byteReversal : Obligations.ByteReversal := by
  intro n v width _
  exact ⟨bswap_lt width v, fun _ hj => reverseBytes_byte hj v⟩

/-! ### The configurations a step refuses -/

theorem sizesOk_iff (c : Config) : c.sizesOk = true ↔ c.bufLen ≤ 2 ^ 28 ∧ c.xferLen ≤ 2 ^ 32 - 1 := by
  simp [Config.sizesOk]

theorem step_of_not_sizesOk {s : State} (h : ¬ s.cfg.sizesOk = true) : step s = .refused .sizesOutOfBounds :=
  if_pos h

theorem step_of_sharedStorage {s : State} (sizes : s.cfg.sizesOk = true) (shared : s.cfg.sharedStorage = true) :
    step s = .refused .sharedStorage := by
  rw [step, if_neg (not_not_intro sizes), if_pos shared]

/-- Settles O16: the sizes are checked first, then the claim of shared storage. -/
theorem badConfigurationsAreRefused : Obligations.BadConfigurationsAreRefused := by
  intro s
  refine ⟨fun outside => step_of_not_sizesOk fun sizes => ?_, fun buf xfer shared => ?_⟩
  · obtain ⟨buf, xfer⟩ := (sizesOk_iff s.cfg).mp sizes
    omega
  · exact step_of_sharedStorage ((sizesOk_iff s.cfg).mpr ⟨buf, xfer⟩) shared

end Sys2Proof.Machine
end

section
/-! PROOFS of the family 10_state.md: whose turn a step is, START and the latched request (rules R21 to R25), COMPLETE and what its
outcome depends on (rules R24, R26 to R28), and the invariant from reset on (rule R32). -/

namespace Sys2Proof.Machine

/-! ### One step, by what is scheduled -/

theorem Config.ok_iff (c : Config) : c.ok = true ↔ c.sizesOk = true ∧ c.sharedStorage = false := by
  simp [Config.ok]

/-- With a legal configuration a step is the turn. -/
theorem step_of_ok {s : State} (ok : s.cfg.ok = true) : step s = turn s := by
  obtain ⟨sizes, distinct⟩ := (Config.ok_iff s.cfg).mp ok
  rw [step, if_neg (not_not_intro sizes), if_neg (by simp [distinct])]

/-- The first scheduled event is performed, with its entry taken. -/
theorem step_cons {s : State} {e : Event} {rest : List Event} (ok : s.cfg.ok = true) (next : s.schedule = e :: rest) :
    step s = perform e { s with schedule := rest } := by
  rw [step_of_ok ok, turn, next]

/-- With nothing scheduled the engine has its turn. -/
theorem step_nil {s : State} (ok : s.cfg.ok = true) (nothing : s.schedule = []) : step s = engineTurn s := by
  rw [step_of_ok ok, turn, nothing]

/-- The engine's turn, listed or by default. -/
theorem step_engine {s : State} (ok : s.cfg.ok = true)
    (next : s.schedule = [] ∨ ∃ rest, s.schedule = .engine :: rest) :
    step s = engineTurn { s with schedule := s.schedule.tail } := by
  rcases next with nothing | ⟨rest, listed⟩
  · have taken : ({ s with schedule := s.schedule.tail } : State) = s := by rw [nothing, List.tail_nil, ← nothing]
    rw [step_nil ok nothing, taken]
  · rw [step_cons ok listed, listed]
    rfl

theorem engineTurn_busy {s : State} (busy : s.phase = .busy) : engineTurn s = complete s := by
  rw [engineTurn, busy]

theorem complete_command {s : State} {i : Instr} (word : decode s.req.cmd = .command i) : complete s = exec i s := by
  rw [complete, word]

theorem startEvent_idle {s : State} (idle : s.phase = .idle) : startEvent s = .next (s.latch s.presented) := by
  rw [startEvent, idle]

theorem startEvent_busy {s : State} (busy : s.phase = .busy) : startEvent s = .refused .startWhileBusy := by
  rw [startEvent, busy]

theorem accessEvent_pastEnd {len a : Nat} (races : Bool) (t : State) (past : len ≤ a) :
    accessEvent len a races t = .fault .noSuchByte :=
  if_pos past

/-- A table word's command is the one in the request it stands for (log entry 7). -/
theorem decode_tableRequest {nbits w : Nat} {i : Instr} (word : decodeTableWord nbits w = some i) :
    decode (tableRequest nbits w).cmd = .command i := by
  unfold decodeTableWord at word
  cases h : decode (BitVec.ofNat 32 (w % 2 ^ nbits)) with
  | command j =>
    rw [h] at word
    cases word
    exact h
  | illegal why =>
    rw [h] at word
    cases word

/-- Settles O5: the engine's turn while BUSY is COMPLETE, which executes the decoded command. -/
theorem stepExecutesTheLatchedCommand : Obligations.StepExecutesTheLatchedCommand := by
  intro s i ok busy next word
  calc step s = engineTurn { s with schedule := s.schedule.tail } := step_engine ok next
    _ = complete { s with schedule := s.schedule.tail } := engineTurn_busy busy
    _ = exec i { s with schedule := s.schedule.tail } := complete_command word

/-- Settles O7: it is O5 at the state right after the START of the table word. -/
theorem tableWordRunsNext : Obligations.TableWordRunsNext := by
  intro s nbits w i ok word
  exact stepExecutesTheLatchedCommand (s.withFetchWord nbits w) i ok rfl (.inr ⟨s.schedule, rfl⟩)
    (decode_tableRequest word)

/-- Settles O8: START in IDLE is `State.latch` of the presented fields. -/
theorem startLatchesTheRequest : Obligations.StartLatchesTheRequest := by
  intro s rest ok next idle
  rw [step_cons ok next]
  exact startEvent_idle idle

/-- Settles O9: START is enabled in IDLE only. -/
theorem startWhileBusyIsRefused : Obligations.StartWhileBusyIsRefused := by
  intro s rest ok next busy
  rw [step_cons ok next]
  exact startEvent_busy busy

/-- Settles O10: driving the fields looks at nothing else, the phase included. -/
theorem hostFieldsDoNotReachALatchedRequest : Obligations.HostFieldsDoNotReachALatchedRequest := by
  intro s r rest ok next
  exact step_cons ok next

/-- Settles O58: reading RESP has no effect, and the end of a memory is checked before the race. -/
theorem respReadsAndAccessesPastTheEnd : Obligations.RespReadsAndAccessesPastTheEnd := by
  intro s rest ok
  refine ⟨fun next => ?_, fun a v next past => ?_, fun a v next past => ?_, fun a next past => ?_,
    fun a next past => ?_⟩ <;> rw [step_cons ok next]
  · rfl
  · exact accessEvent_pastEnd _ _ past
  · exact accessEvent_pastEnd _ _ past
  · exact accessEvent_pastEnd _ _ past
  · exact accessEvent_pastEnd _ _ past

/-! ### The latched request -/

/-- COMPLETE holds the latched request. -/
theorem complete_req {s t : State} (done : complete s = .next t) : t.req = s.req := by
  rcases (complete_ends s).next_cases done with ⟨st, _, rfl⟩ | ⟨m, x, r, n, rfl⟩ <;> rfl

/-- The latched request is held by every step but START, which only an IDLE engine takes, and reset (10_state.md rules R22
and R25). -/
theorem step_req {s t : State} (h : step s = .next t) :
    t.req = s.req ∨ (s.phase = .idle ∧ ∃ rest, s.schedule = .start :: rest) ∨ ∃ rest, s.schedule = .reset :: rest := by
  obtain ⟨-, moved⟩ := step_moved h
  cases moved with
  | rests _ _ same => exact .inl (same ▸ rfl)
  | completes _ _ done =>
    have held := complete_req done
    exact .inl held
  | reads _ _ _ _ same => exact .inl (same ▸ rfl)
  | presents _ _ _ now => exact .inl (now ▸ rfl)
  | starts rest next idle _ => exact .inr (.inl ⟨idle, rest, next⟩)
  | writesB _ _ _ _ _ now => exact .inl (now ▸ rfl)
  | writesX _ _ _ _ _ now => exact .inl (now ▸ rfl)
  | resets rest next _ => exact .inr (.inr ⟨rest, next⟩)
  | resetsCommitted rest _ next _ _ _ => exact .inr (.inr ⟨rest, next⟩)

/-- Settles O60: `step_req` for the held request; what START and driving the fields do is O8, O9 and O10. -/
theorem latchedRequestIsHeld : Obligations.LatchedRequestIsHeld := by
  intro s t h noReset
  have ok := (step_moved h).1
  refine ⟨fun busy => ?_, fun _ noStart => ?_, fun rest next => ?_, fun r rest next => ?_⟩
  · rcases step_req h with held | ⟨idle, _⟩ | ⟨rest, reset⟩
    · exact held
    · cases busy.symm.trans idle
    · exact absurd reset (noReset rest)
  · rcases step_req h with held | ⟨_, rest, start⟩ | ⟨rest, reset⟩
    · exact held
    · exact absurd start (noStart rest)
    · exact absurd reset (noReset rest)
  · cases phase : s.phase with
    | idle =>
      cases (startLatchesTheRequest s rest ok next phase).symm.trans h
      rfl
    | busy => cases (startWhileBusyIsRefused s rest ok next phase).symm.trans h
  · cases (hostFieldsDoNotReachALatchedRequest s r rest ok next).symm.trans h
    exact ⟨rfl, rfl⟩

/-! ### What a step outside COMPLETE and reset changes -/

/-- Settles O41: the cases of `step_moved`, COMPLETE and reset excluded. -/
theorem nothingChangesOutsideComplete : Obligations.NothingChangesOutsideComplete := by
  intro s t e rest next h notComplete notReset
  obtain ⟨-, moved⟩ := step_moved h
  cases moved with
  | rests _ _ same =>
    subst same
    exact ⟨.inl rfl, .inl rfl, .inl rfl⟩
  | completes turn busy _ =>
    rcases turn with none | ⟨_, listed⟩
    · cases next.symm.trans none
    · cases next.symm.trans listed
      exact absurd ⟨rfl, busy⟩ notComplete
  | reads _ _ _ _ same =>
    subst same
    exact ⟨.inl rfl, .inl rfl, .inl rfl⟩
  | presents _ _ _ now =>
    subst now
    exact ⟨.inl rfl, .inl rfl, .inl rfl⟩
  | starts _ listed _ now =>
    cases next.symm.trans listed
    subst now
    exact ⟨.inl rfl, .inl rfl, .inr ⟨rfl, rfl⟩⟩
  | writesB a v _ listed _ now =>
    cases next.symm.trans listed
    subst now
    exact ⟨.inr ⟨a, v, rfl, rfl⟩, .inl rfl, .inl rfl⟩
  | writesX a v _ listed _ now =>
    cases next.symm.trans listed
    subst now
    exact ⟨.inl rfl, .inr ⟨a, v, rfl, rfl⟩, .inl rfl⟩
  | resets _ listed _ =>
    cases next.symm.trans listed
    exact absurd rfl notReset
  | resetsCommitted _ _ listed _ _ _ =>
    cases next.symm.trans listed
    exact absurd rfl notReset

/-! ### The response fields a command does not produce (10_state.md rule R24) -/

theorem execRdbits_next_zero {w : Nat} {s t : State} (h : execRdbits w s = .next t) : t.resp.next = 0 := by
  rcases execRdbits_cases w s with ⟨_, e⟩ | ⟨_, _, _, e⟩ | ⟨_, _, _, _, e⟩ | ⟨_, _, _, _, e⟩ <;> cases e.symm.trans h <;> rfl

theorem wideRead_next_zero {bits w : Nat} {s t : State} (h : wideRead bits w s = .next t) : t.resp.next = 0 := by
  rcases wideRead_cases bits w s with ⟨_, e⟩ | ⟨_, _, _, e⟩ | ⟨_, _, _, _, e⟩ | ⟨_, _, _, _, e⟩ <;>
    cases e.symm.trans h <;> rfl

theorem wideWrite_result_zero {bits w : Nat} {s t : State} (h : wideWrite bits w s = .next t) : t.resp.result = 0 := by
  rcases wideWrite_cases bits w s with ⟨_, e⟩ | ⟨_, _, e⟩ | ⟨_, _, _, e⟩ | ⟨_, _, _, e⟩ <;> cases e.symm.trans h <;> rfl

theorem execWrvar_result_zero {s t : State} (h : execWrvar s = .next t) : t.resp.result = 0 := by
  rcases execWrvar_cases s with ⟨_, e⟩ | ⟨_, e⟩ <;> cases e.symm.trans h <;> rfl

theorem execWrbits_blank {w : Nat} {s t : State} (h : execWrbits w s = .next t) :
    t.resp.result = 0 ∧ t.resp.next = 0 := by
  rcases execWrbits_cases w s with ⟨_, e⟩ | ⟨_, e⟩ | ⟨_, _, _, e⟩ | ⟨_, _, _, e⟩ <;> cases e.symm.trans h <;>
    exact ⟨rfl, rfl⟩

theorem execRdbytes_blank {s t : State} (h : execRdbytes s = .next t) : t.resp.result = 0 ∧ t.resp.next = 0 := by
  rcases execRdbytes_cases s with ⟨_, e⟩ | ⟨_, _, e⟩ | ⟨_, _, _, _, e⟩ | ⟨_, _, _, _, e⟩ <;> cases e.symm.trans h <;>
    exact ⟨rfl, rfl⟩

theorem execWrbytes_blank {s t : State} (h : execWrbytes s = .next t) : t.resp.result = 0 ∧ t.resp.next = 0 := by
  rcases execWrbytes_cases s with ⟨_, e⟩ | ⟨_, _, e⟩ | ⟨_, _, _, _, e⟩ | ⟨_, _, _, _, e⟩ <;> cases e.symm.trans h <;>
    exact ⟨rfl, rfl⟩

/-- A completing word with a status other than OK answers with RESULT 0 and NEXT 0 (60_exceptions.md rule R146). -/
theorem complete_failureBlank {s t : State} (h : complete s = .next t) (failed : t.resp.status ≠ 0) :
    t.resp.result = 0 ∧ t.resp.next = 0 := by
  rcases (complete_ends s).next_cases h with ⟨st, _, rfl⟩ | ⟨m, x, r, n, rfl⟩
  · exact ⟨rfl, rfl⟩
  · exact absurd rfl failed

/-- Settles O59, command by command. -/
theorem unproducedResponseFieldsAreZero : Obligations.UnproducedResponseFieldsAreZero := by
  intro s t
  refine ⟨fun i w listed h => ?_, fun i w listed h => ?_, complete_failureBlank⟩
  · simp only [List.mem_cons, List.not_mem_nil, or_false] at listed
    rcases listed with rfl | rfl | rfl | rfl | rfl | rfl | rfl
    · exact execRdbits_next_zero h
    · exact (execWrbits_blank h).2
    · exact (execRdbytes_blank h).2
    · exact (execWrbytes_blank h).2
    · exact wideRead_next_zero h
    · exact wideRead_next_zero h
    · exact wideRead_next_zero h
  · simp only [List.mem_cons, List.not_mem_nil, or_false] at listed
    rcases listed with rfl | rfl | rfl | rfl | rfl | rfl | rfl
    · exact (execWrbits_blank h).1
    · exact (execRdbytes_blank h).1
    · exact (execWrbytes_blank h).1
    · exact wideWrite_result_zero h
    · exact wideWrite_result_zero h
    · exact wideWrite_result_zero h
    · exact execWrvar_result_zero h

/-! ### What an outcome depends on -/

/-- Settles O33: `complete_alike`, read off for each way a command ends. -/
theorem outcomeDependsOnRequestAndMemoriesOnly : Obligations.OutcomeDependsOnRequestAndMemoriesOnly := by
  intro s s' cfg req b x
  have alike := complete_alike s s' cfg req b x
  generalize complete s = o at alike ⊢
  generalize complete s' = o' at alike ⊢
  cases alike with
  | failed st _ =>
    refine ⟨fun t h => ?_, nofun⟩
    cases h
    exact ⟨_, rfl, rfl, b, x, cfg, req⟩
  | done m n r next =>
    refine ⟨fun t h => ?_, nofun⟩
    cases h
    exact ⟨_, rfl, rfl, rfl, rfl, cfg, req⟩
  | fault f _ => exact ⟨nofun, fun _ h => h⟩

/-! ### Every command ends (10_state.md rule R27) -/

/-- A bit of a memory of `len` bytes has no value (70_reset_and_hazards.md rule R163). -/
def BitMemory.LacksValue (len : Nat) (m : BitMemory) : Prop := ∃ j, j < 8 * len ∧ m.hasValue j = false

theorem BitMemory.lacksValue_of_field {len off w : Nat} {m : BitMemory} (inside : off + w ≤ 8 * len)
    (missing : m.allValued off w = false) : m.LacksValue len := by
  by_contra full
  have valued : m.allValued off w = true := (m.allValued_iff off w).mpr fun k hk =>
    (Bool.not_eq_false _).mp fun no => full ⟨off + k, by omega, no⟩
  cases valued.symm.trans missing

/-- A decoding loop that misses a value misses one inside the buffer. -/
theorem readVarint_lacksValue {c : Config} {m : BitMemory} {o : Nat} (missing : readVarint c m o 5 0 0 true = .noValue) :
    m.LacksValue c.bufLen := by
  obtain ⟨n, le, -, ends⟩ := readVarint_ends c m o
  rw [missing] at ends
  cases ends with
  | unknownEnd inside _ unknown => exact ⟨8 * (o + n) + 7, by omega, known_bit m (o + n) 7 (by decide) ▸ unknown⟩
  | unknownReject inside _ _ _ unknown =>
    obtain ⟨-, -, k, -, hk, no⟩ := (fifthUnvalued_iff c m o n).mp unknown
    exact ⟨8 * (o + n) + k, by omega, no⟩
  | unknownPayload inside _ _ _ _ unknown =>
    by_contra full
    have valued := (varValued_iff m o (n + 1) (by omega)).mpr fun k _ hk =>
      (Bool.not_eq_false _).mp fun no => full ⟨8 * (o + k / 7) + k % 7, by omega, no⟩
    cases valued.symm.trans unknown

theorem wideRead_fault_lacksValue {bits w : Nat} {s : State} {f : Fault} (h : wideRead bits w s = .fault f) :
    s.b.LacksValue s.cfg.bufLen := by
  rcases wideRead_cases bits w s with ⟨_, e⟩ | ⟨_, _, _, e⟩ | ⟨_, _, _, _, e⟩ | ⟨_, _, inside, missing, e⟩ <;>
    cases e.symm.trans h
  exact BitMemory.lacksValue_of_field inside missing

theorem wideWrite_no_fault {bits w : Nat} {s : State} {f : Fault} : wideWrite bits w s ≠ .fault f := by
  intro h
  rcases wideWrite_cases bits w s with ⟨_, e⟩ | ⟨_, _, e⟩ | ⟨_, _, _, e⟩ | ⟨_, _, _, e⟩ <;> cases e.symm.trans h

/-- A command faults only over a bit of `B` or `X` without a value. -/
theorem exec_fault_lacksValue {i : Instr} {s : State} {f : Fault} (h : exec i s = .fault f) :
    s.b.LacksValue s.cfg.bufLen ∨ s.x.LacksValue s.cfg.xferLen := by
  cases i with
  | rdbits w =>
    rcases execRdbits_cases w s with ⟨_, e⟩ | ⟨_, _, _, e⟩ | ⟨_, _, _, _, e⟩ | ⟨_, _, inside, missing, e⟩ <;>
      cases e.symm.trans h
    exact .inl (BitMemory.lacksValue_of_field inside missing)
  | wrbits w =>
    rcases execWrbits_cases w s with ⟨_, e⟩ | ⟨_, e⟩ | ⟨_, _, _, e⟩ | ⟨_, _, _, e⟩ <;> cases e.symm.trans h
  | rdbytes =>
    rcases execRdbytes_cases s with ⟨_, e⟩ | ⟨_, _, e⟩ | ⟨_, _, _, _, e⟩ | ⟨_, inside, _, missing, e⟩ <;>
      cases e.symm.trans h
    exact .inl (BitMemory.lacksValue_of_field inside missing)
  | wrbytes =>
    rcases execWrbytes_cases s with ⟨_, e⟩ | ⟨_, _, e⟩ | ⟨_, _, _, _, e⟩ | ⟨_, _, inside, missing, e⟩ <;>
      cases e.symm.trans h
    exact .inr (BitMemory.lacksValue_of_field (by omega) missing)
  | rdu16 w => exact .inl (wideRead_fault_lacksValue h)
  | rdu32 w => exact .inl (wideRead_fault_lacksValue h)
  | rdu64 w => exact .inl (wideRead_fault_lacksValue h)
  | wru16 w => exact absurd h wideWrite_no_fault
  | wru32 w => exact absurd h wideWrite_no_fault
  | wru64 w => exact absurd h wideWrite_no_fault
  | wrvar => rcases execWrvar_cases s with ⟨_, e⟩ | ⟨_, e⟩ <;> cases e.symm.trans h
  | rdvar =>
    rcases execRdvar_cases s with ⟨_, _, _, e⟩ | ⟨_, e⟩ | ⟨_, e⟩ | ⟨missing, e⟩ <;> cases e.symm.trans h
    exact .inl (readVarint_lacksValue missing)

/-- So does COMPLETE. -/
theorem complete_fault_lacksValue {s : State} {f : Fault} (h : complete s = .fault f) :
    s.b.LacksValue s.cfg.bufLen ∨ s.x.LacksValue s.cfg.xferLen := by
  unfold complete at h
  cases word : decode s.req.cmd with
  | command i =>
    rw [word] at h
    exact exec_fault_lacksValue h
  | illegal why =>
    rw [word] at h
    cases h

/-- COMPLETE ends IDLE with a valid response and one of the five status codes (60_exceptions.md rule R140). -/
theorem complete_response {s t : State} (h : complete s = .next t) :
    t.phase = .idle ∧ t.resp.valid = true ∧ t.resp.status.toNat ≤ 4 := by
  rcases (complete_ends s).next_cases h with ⟨st, _, rfl⟩ | ⟨m, x, r, n, rfl⟩
  · exact ⟨rfl, rfl, st.code_le⟩
  · exact ⟨rfl, rfl, Status.ok.code_le⟩

/-- Settles O34: COMPLETE is never refused, and faults only where a value is missing. -/
theorem everyCommandEnds : Obligations.EveryCommandEnds := by
  intro s ok busy nothing fullB fullX
  have now : step s = complete s := by rw [step_nil ok nothing, engineTurn_busy busy]
  rw [now]
  have ends := complete_ends s
  generalize out : complete s = o at ends ⊢
  cases ends with
  | failed st _ => exact ⟨_, rfl, complete_response out⟩
  | done m x r n => exact ⟨_, rfl, complete_response out⟩
  | fault f _ =>
    rcases complete_fault_lacksValue out with ⟨j, inside, no⟩ | ⟨j, inside, no⟩
    · cases (fullB j inside).symm.trans no
    · cases (fullX j inside).symm.trans no

/-! ### The invariant -/

/-- The schedule and the presented fields have no part in the invariant. -/
theorem State.Inv.host {s : State} (inv : s.Inv) (r : Request) (l : List Event) :
    { s with presented := r, schedule := l }.Inv :=
  ⟨inv.config, inv.buffer, inv.partner, inv.statusKnown, inv.failureBlank, inv.busyNotValid, inv.idleNotValid,
    inv.runFaultKind⟩

theorem State.Inv.withB {s : State} {m : BitMemory} (inv : s.Inv) (wf : m.wf s.cfg.bufLen = true) : (s.withB m).Inv :=
  ⟨inv.config, wf, inv.partner, inv.statusKnown, inv.failureBlank, inv.busyNotValid, inv.idleNotValid,
    inv.runFaultKind⟩

theorem State.Inv.withX {s : State} {m : BitMemory} (inv : s.Inv) (wf : m.wf s.cfg.xferLen = true) : (s.withX m).Inv :=
  ⟨inv.config, inv.buffer, wf, inv.statusKnown, inv.failureBlank, inv.busyNotValid, inv.idleNotValid,
    inv.runFaultKind⟩

/-- START only clears VALID, and leaves IDLE. -/
theorem State.Inv.latch {s : State} (inv : s.Inv) (r : Request) : (s.latch r).Inv where
  config := inv.config
  buffer := inv.buffer
  partner := inv.partner
  statusKnown := inv.statusKnown
  failureBlank := inv.failureBlank
  busyNotValid _ := rfl
  idleNotValid idle := by cases idle
  runFaultKind := inv.runFaultKind

/-- Reset writes the reset response, whose status is OK. -/
theorem State.Inv.resetInterface {s : State} (inv : s.Inv) : s.resetInterface.Inv where
  config := inv.config
  buffer := inv.buffer
  partner := inv.partner
  statusKnown := Nat.zero_le 4
  failureBlank failed := absurd rfl failed
  busyNotValid _ := rfl
  idleNotValid _ _ := rfl
  runFaultKind := inv.runFaultKind

theorem State.Inv.failed {s : State} (inv : s.Inv) (st : Status) : (s.failed st).Inv where
  config := inv.config
  buffer := inv.buffer
  partner := inv.partner
  statusKnown := st.code_le
  failureBlank _ := ⟨rfl, rfl⟩
  busyNotValid busy := by cases busy
  idleNotValid _ blank := by cases blank
  runFaultKind := recordFault_kind st s.runFault inv.runFaultKind

theorem State.Inv.finished {s : State} (inv : s.Inv) (r : Word64) (n : Word32) : (s.finished r n).Inv where
  config := inv.config
  buffer := inv.buffer
  partner := inv.partner
  statusKnown := Nat.zero_le 4
  failureBlank failed := absurd rfl failed
  busyNotValid busy := by cases busy
  idleNotValid _ blank := by cases blank
  runFaultKind := inv.runFaultKind

/-- COMPLETE is a failure, or a success in the state with the new memories, whose form `complete_wf` gives. -/
theorem State.Inv.complete {s t : State} (inv : s.Inv) (h : complete s = .next t) : t.Inv := by
  obtain ⟨wfB, wfX⟩ := complete_wf s t inv.buffer inv.partner h
  rcases (complete_ends s).next_cases h with ⟨st, _, rfl⟩ | ⟨m, x, r, n, rfl⟩
  · exact inv.failed st
  · exact ((inv.withB wfB).withX wfX).finished r n

/-- Settles O43: one lemma above for each way of `step_moved`. -/
theorem everyStepKeepsTheInvariant : Obligations.EveryStepKeepsTheInvariant := by
  intro s t before h
  obtain ⟨-, moved⟩ := step_moved h
  have inv : State.Inv { s with schedule := s.schedule.tail } := before.host s.presented s.schedule.tail
  cases moved with
  | rests _ _ same => exact same ▸ inv
  | completes _ _ done => exact inv.complete done
  | reads _ _ _ _ same => exact same ▸ inv
  | presents r _ _ now => exact now ▸ inv.host r s.schedule.tail
  | starts _ _ _ now => exact now ▸ inv.latch s.presented
  | writesB a v _ _ inside now => exact now ▸ inv.withB (BitMemory.wf_setByte _ s.b a v inside inv.buffer)
  | writesX a v _ _ inside now => exact now ▸ inv.withX (BitMemory.wf_setByte _ s.x a v inside inv.partner)
  | resets _ _ now => exact now ▸ inv.resetInterface
  | resetsCommitted _ u _ _ done now =>
    obtain ⟨wfB, wfX⟩ := complete_wf _ u inv.buffer inv.partner done
    exact now ▸ ((inv.withB wfB).withX wfX).resetInterface

/-- A memory without a value is in canonical form at any size. -/
theorem BitMemory.wf_blank (len : Nat) : BitMemory.blank.wf len = true := rfl

/-- Settles O42: the memories are blank, the response is the reset response and nothing is recorded. -/
theorem resetMeetsTheInvariant : Obligations.ResetMeetsTheInvariant := by
  intro c ok
  exact
    { config := ok
      buffer := BitMemory.wf_blank c.bufLen
      partner := BitMemory.wf_blank c.xferLen
      statusKnown := Nat.zero_le 4
      failureBlank := fun failed => absurd rfl failed
      busyNotValid := fun _ => rfl
      idleNotValid := fun _ _ => rfl
      runFaultKind := fun f recorded => by cases recorded }

/-- Settles O15: the fields `State.resetOf` gives. -/
theorem resetStateIsIdleWithBlankResponse : Obligations.ResetStateIsIdleWithBlankResponse :=
  fun _ => ⟨rfl, rfl, rfl, rfl, rfl, rfl⟩

end Sys2Proof.Machine
end

section
/-! PROOFS of the family 20_memory.md: the footprint table (rule R51), what a command writes and reads (rule R51), ENDIAN (rules
R46 and R47), and narrower reads that partition a field (rule R48). -/

namespace Sys2Proof.Machine

/-! ### The footprints are the table of rule R51 -/

/-- A command with a width range is illegal exactly outside it (60_exceptions.md rule R142). -/
theorem widthIllegal_iff {i : Instr} {lo hi : Nat} (range : widthRange i = some (lo, hi)) :
    widthIllegal i ↔ i.nbitsField < lo ∨ hi < i.nbitsField := by
  refine ⟨?_, fun outside => ⟨lo, hi, range, outside⟩⟩
  rintro ⟨lo', hi', range', outside⟩
  cases range.symm.trans range'
  exact outside

theorem not_widthIllegal_of_widthless {i : Instr} (range : widthRange i = none) : ¬ widthIllegal i := by
  rintro ⟨lo, hi, range', -⟩
  cases range.symm.trans range'

/-- A write fails its checks: its width range starts at 0, and width 0 has no bounds check. -/
theorem writeTouch_illegal {limit w : Nat} {s : State}
    (h : (w < 0 ∨ limit < w) ∨ (1 ≤ w ∧ 8 * s.cfg.bufLen < s.offset + w)) : writeTouch limit w s = Touch.nothing :=
  writeTouch_fails (by omega)

theorem touch_rdbytes_past {s : State} (past : s.runPastEnd = true) : touch .rdbytes s = Touch.nothing := if_pos past

theorem touch_wrbytes_past {s : State} (past : s.runPastEnd = true) : touch .wrbytes s = Touch.nothing := if_pos past

theorem touch_wrvar_past {s : State} (past : s.cfg.bufLen < s.offset + varLen (s.data 32)) :
    touch .wrvar s = Touch.nothing := if_pos past

/-- A command that fails its width or bounds check touches nothing (log entry 11). -/
theorem touch_illegal {i : Instr} {s : State} (h : widthIllegal i ∨ boundsIllegal i s) : touch i s = Touch.nothing := by
  have bounds (range : widthRange i = none) : boundsIllegal i s :=
    h.resolve_left (not_widthIllegal_of_widthless range)
  cases i with
  | rdbits w => exact readTouch_fails (or_assoc.mp (h.imp_left (widthIllegal_iff rfl).mp))
  | rdu16 w => exact readTouch_fails (or_assoc.mp (h.imp_left (widthIllegal_iff rfl).mp))
  | rdu32 w => exact readTouch_fails (or_assoc.mp (h.imp_left (widthIllegal_iff rfl).mp))
  | rdu64 w => exact readTouch_fails (or_assoc.mp (h.imp_left (widthIllegal_iff rfl).mp))
  | wrbits w => exact writeTouch_illegal (h.imp_left (widthIllegal_iff rfl).mp)
  | wru16 w => exact writeTouch_illegal (h.imp_left (widthIllegal_iff rfl).mp)
  | wru32 w => exact writeTouch_illegal (h.imp_left (widthIllegal_iff rfl).mp)
  | wru64 w => exact writeTouch_illegal (h.imp_left (widthIllegal_iff rfl).mp)
  | rdbytes => exact touch_rdbytes_past (s.runPastEnd_iff.mpr (bounds rfl).2)
  | wrbytes => exact touch_wrbytes_past (s.runPastEnd_iff.mpr (bounds rfl).2)
  | wrvar => exact touch_wrvar_past (bounds rfl)
  | rdvar => exact (bounds rfl).elim

theorem touch_rdbytes_inside {s : State} (b : s.offset + 8 * s.count ≤ 8 * s.cfg.bufLen)
    (x : s.xoff + s.count ≤ s.cfg.xferLen) :
    touch .rdbytes s =
      { Touch.nothing with readB := fieldSpan s.offset (8 * s.count), writeX := { lo := s.xoff, len := s.count } } := by
  refine if_neg ?_
  rw [State.runPastEnd_iff]
  omega

theorem touch_wrbytes_inside {s : State} (b : s.offset + 8 * s.count ≤ 8 * s.cfg.bufLen)
    (x : s.xoff + s.count ≤ s.cfg.xferLen) :
    touch .wrbytes s =
      { Touch.nothing with
        readX := { lo := s.xoff, len := s.count }
        readB := fieldSpan s.offset (8 * s.count)
        writeB := fieldSpan s.offset (8 * s.count) } := by
  refine if_neg ?_
  rw [State.runPastEnd_iff]
  omega

theorem touch_wrvar_inside {s : State} (h : s.offset + varLen (s.data 32) ≤ s.cfg.bufLen) :
    touch .wrvar s = { Touch.nothing with writeB := { lo := s.offset, len := varLen (s.data 32) } } :=
  if_neg (Nat.not_lt.mpr h)

theorem not_inField_zero (off a : Nat) : ¬ inField off 0 a := by
  rintro ⟨k, hk, -⟩
  exact Nat.not_lt_zero k hk

/-- The bytes a run covers; none for a count of 0, in or out of bounds. -/
theorem touch_run_covers {s : State} (a : Nat)
    (h : s.count = 0 ∨ (s.offset + 8 * s.count ≤ 8 * s.cfg.bufLen ∧ s.xoff + s.count ≤ s.cfg.xferLen)) :
    (touch .rdbytes s).Covers a (inField s.offset (8 * s.count) a) False False (s.xoff ≤ a ∧ a < s.xoff + s.count) ∧
      (touch .wrbytes s).Covers a (inField s.offset (8 * s.count) a) (inField s.offset (8 * s.count) a)
        (s.xoff ≤ a ∧ a < s.xoff + s.count) False := by
  by_cases past : s.runPastEnd = true
  · have none : s.count = 0 := by
      rw [State.runPastEnd_iff] at past
      omega
    have noX : ¬ (s.xoff ≤ a ∧ a < s.xoff + 0) := by omega
    rw [touch_rdbytes_past past, touch_wrbytes_past past, none, Nat.mul_zero]
    simp only [not_inField_zero, noX, Touch.covers_nothing, and_self]
  · rw [State.runPastEnd_iff] at past
    rw [touch_rdbytes_inside (by omega) (by omega), touch_wrbytes_inside (by omega) (by omega)]
    simp [Touch.Covers, Touch.nothing, fieldSpan_has_iff, Span.has_iff ⟨s.xoff, s.count⟩]

theorem touch_rdvar_covers (s : State) (a : Nat) :
    (touch .rdvar s).Covers a (s.offset ≤ a ∧ a ≤ s.offset + 4 ∧ a < s.cfg.bufLen) False False False := by
  simp only [Touch.Covers, touch, Touch.nothing, Span.has_iff, Span.has_empty]
  refine ⟨?_, by simp, by simp, by simp⟩
  omega

/-- Settles O57: each clause is the footprint in one case of its checks. -/
theorem footprintsAreTheTable : Obligations.FootprintsAreTheTable := by
  intro s a
  refine ⟨fun i illegal => ?_, fun w lo hi inside => ?_, fun w c wide lo hi inside => ?_, fun w hi inside => ?_,
    fun w c wide hi inside => ?_, touch_run_covers a, fun inside => ?_, touch_rdvar_covers s a, fun i word => ?_,
    fun why word => ?_⟩
  · rw [touch_illegal illegal]
    exact Touch.covers_nothing a
  · exact readTouch_covers a lo hi inside
  · simp only [wideCommands, List.mem_cons, List.not_mem_nil, or_false] at wide
    rcases wide with rfl | rfl | rfl
    · exact readTouch_covers a lo hi inside
    · exact readTouch_covers a lo hi inside
    · exact readTouch_covers a lo hi inside
  · exact writeTouch_covers a hi inside
  · simp only [wideCommands, List.mem_cons, List.not_mem_nil, or_false] at wide
    rcases wide with rfl | rfl | rfl
    · exact writeTouch_covers a hi inside
    · exact writeTouch_covers a hi inside
    · exact writeTouch_covers a hi inside
  · rw [touch_wrvar_inside inside]
    simp [Touch.Covers, Touch.nothing, Span.has_iff]
  · rw [latchedTouch, word]
  · rw [latchedTouch, word]
    exact Touch.covers_nothing a

/-! ### The fixed-width reads and writes, one outcome each -/

/-- What a fixed-width read of 1 to `limit` bits comes to, where `result` makes RESULT of the field's number. -/
def fieldRead (limit w : Nat) (result : Nat → Nat) (s : State) : Host.Outcome State Fault Refusal :=
  if w < 1 ∨ limit < w then raise .contractViolation s
  else if s.fieldPastEnd w then raise .boundsViolation s
  else if s.b.allValued s.offset w then .next (s.respond .ok (result (s.b.getBits s.offset w)) 0)
  else .fault .readWithoutValue

theorem execRdbits_eq_fieldRead (w : Nat) (s : State) : execRdbits w s = fieldRead 8 w id s := rfl

theorem wideRead_eq_fieldRead (bits w : Nat) (s : State) :
    wideRead bits w s = fieldRead bits w (reorder s.cfg.endian bits) s := by
  rw [wideRead, readChunks_all, fieldRead]

/-- What a fixed-width write of 0 to `limit` bits of `v` comes to. -/
def fieldWrite (limit w v next : Nat) (s : State) : Host.Outcome State Fault Refusal :=
  if limit < w then raise .contractViolation s
  else if w = 0 then .next (s.respond .ok 0 next)
  else if s.fieldPastEnd w then raise .boundsViolation s
  else .next ((s.withB (s.b.setBits s.offset w v)).respond .ok 0 next)

theorem execWrbits_eq_fieldWrite (w : Nat) (s : State) : execWrbits w s = fieldWrite 8 w (s.data 8) 0 s := by
  rw [execWrbits, BitMemory.setBits_mask, fieldWrite]

theorem wideWrite_eq_fieldWrite (bits w : Nat) (s : State) :
    wideWrite bits w s = fieldWrite bits w (reorder s.cfg.endian bits (s.data bits)) (s.offset + w) s := by
  rw [wideWrite, writeChunks_all, fieldWrite]
  by_cases none : w = 0
  · subst none
    rfl
  · rw [if_neg none, if_neg none]

/-! ### No write outside the write footprint -/

/-- The bytes of `n` outside the span are those of `m`. -/
def BitMemory.SameOutside (p : Span) (m n : BitMemory) : Prop := ∀ a, p.has a = false → n.byte a = m.byte a

/-- A bit of a byte outside a field's footprint lies outside the field. -/
theorem not_mem_field_of_outside {off w a k : Nat} (out : (fieldSpan off w).has a = false) (hk : k < 8) :
    ¬ (off ≤ 8 * a + k ∧ 8 * a + k < off + w) := by
  intro inside
  have field : inField off w a := ⟨8 * a + k - off, by omega, by omega⟩
  cases out.symm.trans ((fieldSpan_has_iff off w a).mpr field)

theorem BitMemory.sameOutside_setBits (m : BitMemory) (off w v : Nat) :
    m.SameOutside (fieldSpan off w) (m.setBits off w v) := by
  refine fun a out => BitMemory.byte_ext _ _ a (fun k hk => ?_) fun k hk => ?_
  · rw [BitMemory.bit_setBits, if_neg (not_mem_field_of_outside out hk)]
  · rw [BitMemory.hasValue_setBits, if_neg (not_mem_field_of_outside out hk)]

theorem sameOutside_copyIn (src : BitMemory) (o x n : Nat) (dst : BitMemory) :
    dst.SameOutside (fieldSpan o (8 * n)) (copyIn src o x n dst) := by
  refine fun a out => BitMemory.byte_ext _ _ a (fun k hk => ?_) fun k hk => ?_
  · rw [bit_copyIn, if_neg (not_mem_field_of_outside out hk)]
  · rw [hasValue_copyIn, if_neg (not_mem_field_of_outside out hk)]

/-- An address outside a span lies below or past it. -/
theorem not_mem_span_of_outside {p : Span} {a : Nat} (out : p.has a = false) : ¬ (p.lo ≤ a ∧ a < p.lo + p.len) := by
  rw [← Span.has_iff, out]
  decide

theorem sameOutside_copyOut (b : BitMemory) (o x n : Nat) (dst : BitMemory) :
    dst.SameOutside { lo := x, len := n } (copyOut b o x n dst) := by
  intro a out
  rw [byte_copyOut, if_neg (not_mem_span_of_outside out)]

theorem sameOutside_writeBytes (m : BitMemory) (o : Nat) (l : List Byte) :
    m.SameOutside { lo := o, len := l.length } (writeBytes m o l) := by
  intro a out
  rw [byte_writeBytes, if_neg (not_mem_span_of_outside out)]

/-- `t` differs from `s` in no byte outside the write footprint `f`. -/
def WritesWithin (f : Touch) (s t : State) : Prop := s.b.SameOutside f.writeB t.b ∧ s.x.SameOutside f.writeX t.x

/-- A command that leaves both memories as they were writes within any footprint. -/
theorem writesWithin_of_same {f : Touch} {s t : State} (b : t.b = s.b) (x : t.x = s.x) : WritesWithin f s t :=
  ⟨fun _ _ => by rw [b], fun _ _ => by rw [x]⟩

theorem fieldRead_writesWithin {limit w : Nat} {result : Nat → Nat} {s t : State} (f : Touch)
    (h : fieldRead limit w result s = .next t) : WritesWithin f s t := by
  unfold fieldRead at h
  split_ifs at h <;> cases h <;> exact writesWithin_of_same rfl rfl

theorem fieldWrite_writesWithin {limit w v next : Nat} {s t : State} (h : fieldWrite limit w v next s = .next t) :
    WritesWithin (writeTouch limit w s) s t := by
  unfold fieldWrite at h
  split_ifs at h with width none past <;> cases h
  · exact writesWithin_of_same rfl rfl
  · exact writesWithin_of_same rfl rfl
  · exact writesWithin_of_same rfl rfl
  · rw [State.fieldPastEnd_iff] at past
    rw [writeTouch_inside (by omega) (by omega)]
    exact ⟨s.b.sameOutside_setBits _ _ _, fun _ _ => rfl⟩

theorem wideRead_writesWithin {bits w : Nat} {s t : State} (f : Touch) (h : wideRead bits w s = .next t) :
    WritesWithin f s t :=
  fieldRead_writesWithin f ((wideRead_eq_fieldRead bits w s).symm.trans h)

theorem wideWrite_writesWithin {bits w : Nat} {s t : State} (h : wideWrite bits w s = .next t) :
    WritesWithin (writeTouch bits w s) s t :=
  fieldWrite_writesWithin ((wideWrite_eq_fieldWrite bits w s).symm.trans h)

/-- A command writes inside its footprint (20_memory.md rule R51): only WRBITS, WRU, the byte runs and WRVAR write at all. -/
theorem exec_writesWithin {i : Instr} {s t : State} (h : exec i s = .next t) : WritesWithin (touch i s) s t := by
  cases i with
  | rdbits w => exact fieldRead_writesWithin _ ((execRdbits_eq_fieldRead w s).symm.trans h)
  | wrbits w => exact fieldWrite_writesWithin ((execWrbits_eq_fieldWrite w s).symm.trans h)
  | rdu16 w => exact wideRead_writesWithin _ h
  | rdu32 w => exact wideRead_writesWithin _ h
  | rdu64 w => exact wideRead_writesWithin _ h
  | wru16 w => exact wideWrite_writesWithin h
  | wru32 w => exact wideWrite_writesWithin h
  | wru64 w => exact wideWrite_writesWithin h
  | rdbytes =>
    rcases execRdbytes_cases s with ⟨_, e⟩ | ⟨_, _, e⟩ | ⟨_, inB, inX, _, e⟩ | ⟨_, _, _, _, e⟩ <;> cases e.symm.trans h
    · exact writesWithin_of_same rfl rfl
    · exact writesWithin_of_same rfl rfl
    · rw [touch_rdbytes_inside inB inX]
      exact ⟨fun _ _ => rfl, sameOutside_copyOut _ _ _ _ _⟩
  | wrbytes =>
    rcases execWrbytes_cases s with ⟨_, e⟩ | ⟨_, _, e⟩ | ⟨_, inB, inX, _, e⟩ | ⟨_, _, _, _, e⟩ <;> cases e.symm.trans h
    · exact writesWithin_of_same rfl rfl
    · exact writesWithin_of_same rfl rfl
    · rw [touch_wrbytes_inside inB inX]
      exact ⟨sameOutside_copyIn _ _ _ _ _, fun _ _ => rfl⟩
  | wrvar =>
    rcases execWrvar_cases s with ⟨_, e⟩ | ⟨inside, e⟩ <;> cases e.symm.trans h
    · exact writesWithin_of_same rfl rfl
    · rw [touch_wrvar_inside inside, ← length_varBytes _ (s.data_lt 32)]
      exact ⟨sameOutside_writeBytes _ _ _, fun _ _ => rfl⟩
  | rdvar =>
    rcases execRdvar_cases s with ⟨_, _, _, e⟩ | ⟨_, e⟩ | ⟨_, e⟩ | ⟨_, e⟩ <;> cases e.symm.trans h <;>
      exact writesWithin_of_same rfl rfl

/-- Settles O35: the memories by `exec_writesWithin`, everything else by the shape of every outcome. -/
theorem writesStayInTheFootprint : Obligations.WritesStayInTheFootprint := by
  intro i s t h
  obtain ⟨inB, inX⟩ := exec_writesWithin h
  refine ⟨inB, inX, ?_⟩
  rcases (exec_ends i s).next_cases h with ⟨st, _, rfl⟩ | ⟨m, x, r, n, rfl⟩ <;> exact ⟨rfl, rfl⟩

/-! ### The decoding loop's bytes -/

/-- Decoding reads the bytes of its five that the buffer has, `BUF_LEN` and VARINT_TOP_BITS, and nothing else. -/
theorem readVarint_congr {c c' : Config} {m m' : BitMemory} {o : Nat} (len : c'.bufLen = c.bufLen)
    (top : c'.topBits = c.topBits) (fuel i v : Nat) (valued : Bool)
    (same : ∀ j, j < i + fuel → o + j < c.bufLen → m'.byte (o + j) = m.byte (o + j)) :
    readVarint c' m' o fuel i v valued = readVarint c m o fuel i v valued := by
  induction fuel generalizing i v valued with
  | zero => rfl
  | succ fuel ih =>
    have later := fun v valued => ih (i + 1) v valued fun j hj => same j (by omega)
    simp only [readVarint, len, top]
    by_cases past : c.bufLen ≤ o + i
    · rw [if_pos past, if_pos past]
    · obtain ⟨value, known⟩ := Prod.ext_iff.mp (same i (by omega) (by omega))
      simp only [BitMemory.byte] at value known
      simp only [value, known, later]

/-! ### ENDIAN (20_memory.md rules R46 and R47) -/

/-- The state with ENDIAN set to `e`. -/
def State.inMode (s : State) (e : Endian) : State := { s with cfg := { s.cfg with endian := e } }

/-- The outcome with its next state, where it has one, put in the given mode. -/
def outcomeInMode (e : Endian) : Host.Outcome State Fault Refusal → Host.Outcome State Fault Refusal
  | .next t => .next (t.inMode e)
  | .fault f => .fault f
  | .refused r => .refused r

/-- No check and no operation of the six narrow commands looks at ENDIAN, so the mode is carried through unread. -/
theorem exec_inMode {i : Instr} (narrow : isWide i = false) (s : State) (e : Endian) :
    exec i (s.inMode e) = outcomeInMode e (exec i s) := by
  cases i with
  | rdbits w => simp only [exec, execRdbits, apply_ite (outcomeInMode e)]; rfl
  | wrbits w => simp only [exec, execWrbits, apply_ite (outcomeInMode e)]; rfl
  | rdbytes => simp only [exec, execRdbytes, apply_ite (outcomeInMode e)]; rfl
  | wrbytes => simp only [exec, execWrbytes, apply_ite (outcomeInMode e)]; rfl
  | wrvar => simp only [exec, execWrvar, apply_ite (outcomeInMode e)]; rfl
  | rdvar =>
    have loop : readVarint (s.inMode e).cfg (s.inMode e).b (s.inMode e).offset 5 0 0 true =
        readVarint s.cfg s.b s.offset 5 0 0 true := readVarint_congr rfl rfl 5 0 0 true fun _ _ _ => rfl
    simp only [exec, execRdvar, loop]
    cases readVarint s.cfg s.b s.offset 5 0 0 true <;> rfl
  | rdu16 w => cases narrow
  | rdu32 w => cases narrow
  | rdu64 w => cases narrow
  | wru16 w => cases narrow
  | wru32 w => cases narrow
  | wru64 w => cases narrow

/-- No command writes the configuration (10_state.md rule R29). -/
theorem exec_cfg {i : Instr} {s t : State} (h : exec i s = .next t) : t.cfg = s.cfg := by
  rcases (exec_ends i s).next_cases h with ⟨st, _, rfl⟩ | ⟨m, x, r, n, rfl⟩ <;> rfl

/-- Settles O39: `exec_inMode`, read off for a next state and for a fault. -/
theorem endianChangesWideCommandsOnly : Obligations.EndianChangesWideCommandsOnly := by
  intro i s e narrow
  refine ⟨fun t h => ?_, fun f h => ?_⟩
  · calc exec i (s.inMode e) = .next (t.inMode e) := (exec_inMode narrow s e).trans (congrArg (outcomeInMode e) h)
      _ = .next { t with cfg := { s.cfg with endian := e } } := by rw [State.inMode, exec_cfg h]
  · exact (exec_inMode narrow s e).trans (congrArg (outcomeInMode e) h)

/-! ### No dependence on a byte outside the read footprint -/

/-- The bytes of `n` in the span are those of `m`. -/
def BitMemory.SameOn (p : Span) (m n : BitMemory) : Prop := ∀ a, p.has a = true → n.byte a = m.byte a

theorem BitMemory.sameOn_empty (m n : BitMemory) : m.SameOn Span.empty n := by
  intro a inside
  rw [Span.has_empty] at inside
  cases inside

/-- A bit is decided by its byte. -/
theorem BitMemory.bit_eq_of_byte {m n : BitMemory} {j : Nat} (same : n.byte (j / 8) = m.byte (j / 8)) :
    n.bit j = m.bit j := by
  rw [BitMemory.bit_of_byte, BitMemory.bit_of_byte, same]

theorem BitMemory.hasValue_eq_of_byte {m n : BitMemory} {j : Nat} (same : n.byte (j / 8) = m.byte (j / 8)) :
    n.hasValue j = m.hasValue j := by
  rw [BitMemory.hasValue_of_byte, BitMemory.hasValue_of_byte, same]

/-- The byte of bit `8 * a + k` is byte `a`. -/
theorem BitMemory.byte_at_bit {m n : BitMemory} {a k : Nat} (same : n.byte a = m.byte a) (hk : k < 8) :
    n.byte ((8 * a + k) / 8) = m.byte ((8 * a + k) / 8) := by
  rwa [show (8 * a + k) / 8 = a by omega]

/-- The bytes a field's bits lie in are in its span. -/
theorem fieldSpan_has_bit {off w k : Nat} (hk : k < w) : (fieldSpan off w).has ((off + k) / 8) = true :=
  (fieldSpan_has_iff off w _).mpr ⟨k, hk, rfl⟩

theorem BitMemory.SameOn.getBits_eq {m n : BitMemory} {off w : Nat} (same : m.SameOn (fieldSpan off w) n) :
    n.getBits off w = m.getBits off w :=
  BitMemory.getBits_congr n m off off w fun _ hk => BitMemory.bit_eq_of_byte (same _ (fieldSpan_has_bit hk))

theorem BitMemory.SameOn.allValued_eq {m n : BitMemory} {off w : Nat} (same : m.SameOn (fieldSpan off w) n) :
    n.allValued off w = m.allValued off w := by
  rw [Bool.eq_iff_iff, BitMemory.allValued_iff, BitMemory.allValued_iff]
  refine forall_congr' fun k => imp_congr_right fun hk => ?_
  rw [BitMemory.hasValue_eq_of_byte (same _ (fieldSpan_has_bit hk))]

/-- A field inside another: its bytes agree where the other's do. -/
theorem BitMemory.SameOn.subfield {m n : BitMemory} {off w off' w' : Nat} (same : m.SameOn (fieldSpan off w) n)
    (lo : off ≤ off') (hi : off' + w' ≤ off + w) : m.SameOn (fieldSpan off' w') n := by
  intro a inside
  obtain ⟨k, hk, at_⟩ := (fieldSpan_has_iff off' w' a).mp inside
  exact same a ((fieldSpan_has_iff off w a).mpr ⟨off' + k - off, by omega, by rw [← at_]; congr 1; omega⟩)

theorem BitMemory.sameOn_setBits {m n : BitMemory} {p : Span} (same : m.SameOn p n) (off w v : Nat) :
    (m.setBits off w v).SameOn p (n.setBits off w v) := by
  refine fun a inside => BitMemory.byte_ext _ _ a (fun k hk => ?_) fun k hk => ?_
  · rw [BitMemory.bit_setBits, BitMemory.bit_setBits, BitMemory.bit_eq_of_byte (BitMemory.byte_at_bit (same a inside) hk)]
  · rw [BitMemory.hasValue_setBits, BitMemory.hasValue_setBits,
      BitMemory.hasValue_eq_of_byte (BitMemory.byte_at_bit (same a inside) hk)]

/-- The bytes of a run of whole bytes are the bytes of the field of its bits. -/
theorem fieldSpan_bytes (x n : Nat) : fieldSpan (8 * x) (8 * n) = { lo := x, len := n } := by
  unfold fieldSpan
  congr 1
  · omega
  · split_ifs <;> omega

theorem BitMemory.SameOn.allValued_bytes_eq {m m' : BitMemory} {x n : Nat} (same : m.SameOn { lo := x, len := n } m') :
    m'.allValued (8 * x) (8 * n) = m.allValued (8 * x) (8 * n) := by
  rw [← fieldSpan_bytes] at same
  exact same.allValued_eq

theorem sameOn_copyIn {src src' dst dst' : BitMemory} {p : Span} {o x n : Nat}
    (source : src.SameOn { lo := x, len := n } src') (same : dst.SameOn p dst') :
    (copyIn src o x n dst).SameOn p (copyIn src' o x n dst') := by
  refine fun a inside => BitMemory.byte_ext _ _ a (fun k hk => ?_) fun k hk => ?_
  · rw [bit_copyIn, bit_copyIn, BitMemory.bit_eq_of_byte (BitMemory.byte_at_bit (same a inside) hk)]
    refine ite_congr rfl (fun run => ?_) fun _ => rfl
    rw [← fieldSpan_bytes] at source
    exact BitMemory.bit_eq_of_byte (source _ (fieldSpan_has_bit (by omega)))
  · rw [hasValue_copyIn, hasValue_copyIn, BitMemory.hasValue_eq_of_byte (BitMemory.byte_at_bit (same a inside) hk)]

theorem sameOn_copyOut {src src' : BitMemory} {o n : Nat} (source : src.SameOn (fieldSpan o (8 * n)) src') (x : Nat)
    (dst dst' : BitMemory) :
    (copyOut src o x n dst).SameOn { lo := x, len := n } (copyOut src' o x n dst') := by
  intro a inside
  have run : x ≤ a ∧ a < x + n := (Span.has_iff _ a).mp inside
  have byteField : src.SameOn (fieldSpan (o + 8 * (a - x)) 8) src' := source.subfield (by omega) (by omega)
  rw [byte_copyOut, byte_copyOut, if_pos run, if_pos run, byteField.getBits_eq]

theorem sameOn_writeBytes (m n : BitMemory) (o : Nat) (l : List Byte) :
    (writeBytes m o l).SameOn { lo := o, len := l.length } (writeBytes n o l) := by
  intro a inside
  have written : o ≤ a ∧ a < o + l.length := (Span.has_iff _ a).mp inside
  rw [byte_writeBytes, byte_writeBytes, if_pos written, if_pos written]

/-- Two outcomes of one command that no one can tell apart by the response, the fault or the bytes of the write footprint. -/
inductive SameEffect (f : Touch) : Host.Outcome State Fault Refusal → Host.Outcome State Fault Refusal → Prop
  | next {t t' : State} (resp : t'.resp = t.resp) (b : t.b.SameOn f.writeB t'.b) (x : t.x.SameOn f.writeX t'.x) :
      SameEffect f (.next t) (.next t')
  | fault (r : Fault) : SameEffect f (.fault r) (.fault r)

/-- COMPLETE's response is the same over any state. -/
theorem sameEffect_respond {f : Touch} {s s' : State} (st : Status) (r n : Nat) (b : s.b.SameOn f.writeB s'.b)
    (x : s.x.SameOn f.writeX s'.x) : SameEffect f (.next (s.respond st r n)) (.next (s'.respond st r n)) :=
  .next rfl b x

theorem readTouch_writeB (limit w : Nat) (s : State) : (readTouch limit w s).writeB = Span.empty := by
  unfold readTouch
  split_ifs <;> rfl

theorem readTouch_writeX (limit w : Nat) (s : State) : (readTouch limit w s).writeX = Span.empty := by
  unfold readTouch
  split_ifs <;> rfl

theorem writeTouch_readB (limit w : Nat) (s : State) : (writeTouch limit w s).readB = (writeTouch limit w s).writeB := by
  unfold writeTouch
  split_ifs <;> rfl

theorem writeTouch_writeX (limit w : Nat) (s : State) : (writeTouch limit w s).writeX = Span.empty := by
  unfold writeTouch
  split_ifs <;> rfl

/-- With an empty write footprint only the response counts. -/
theorem sameEffect_of_no_write {f : Touch} {t t' : State} (resp : t'.resp = t.resp) (noB : f.writeB = Span.empty)
    (noX : f.writeX = Span.empty) : SameEffect f (.next t) (.next t') :=
  .next resp (noB ▸ BitMemory.sameOn_empty _ _) (noX ▸ BitMemory.sameOn_empty _ _)

section Operands
variable {s s' : State} (cfg : s'.cfg = s.cfg) (req : s'.req = s.req)
include req

theorem offset_of_req : s'.offset = s.offset := by rw [State.offset, State.offset, req]
theorem count_of_req : s'.count = s.count := by rw [State.count, State.count, req]
theorem xoff_of_req : s'.xoff = s.xoff := by rw [State.xoff, State.xoff, req]
theorem data_of_req (n : Nat) : s'.data n = s.data n := by rw [State.data, State.data, req]

include cfg

theorem fieldPastEnd_of_req (w : Nat) : s'.fieldPastEnd w = s.fieldPastEnd w := by
  rw [State.fieldPastEnd, State.fieldPastEnd, cfg, offset_of_req req]

theorem runPastEnd_of_req : s'.runPastEnd = s.runPastEnd := by
  rw [State.runPastEnd, State.runPastEnd, cfg, offset_of_req req, count_of_req req, xoff_of_req req]

theorem fieldRead_sameEffect {limit w : Nat} (result : Nat → Nat)
    (same : s.b.SameOn (readTouch limit w s).readB s'.b) :
    SameEffect (readTouch limit w s) (fieldRead limit w result s) (fieldRead limit w result s') := by
  unfold fieldRead
  rw [fieldPastEnd_of_req cfg req, offset_of_req req]
  have silent {t t' : State} (resp : t'.resp = t.resp) : SameEffect (readTouch limit w s) (.next t) (.next t') :=
    sameEffect_of_no_write resp (readTouch_writeB limit w s) (readTouch_writeX limit w s)
  by_cases width : w < 1 ∨ limit < w
  · rw [if_pos width, if_pos width]
    exact silent rfl
  rw [if_neg width, if_neg width]
  by_cases past : s.fieldPastEnd w = true
  · rw [if_pos past, if_pos past]
    exact silent rfl
  rw [if_neg past, if_neg past]
  rw [State.fieldPastEnd_iff] at past
  have field : s.b.SameOn (fieldSpan s.offset w) s'.b := by
    rwa [readTouch_inside (by omega) (by omega) (by omega)] at same
  rw [field.allValued_eq, field.getBits_eq]
  by_cases valued : s.b.allValued s.offset w = true
  · rw [if_pos valued, if_pos valued]
    exact silent rfl
  · rw [if_neg valued, if_neg valued]
    exact .fault _

theorem fieldWrite_sameEffect {limit w : Nat} (v next : Nat)
    (same : s.b.SameOn (writeTouch limit w s).readB s'.b) :
    SameEffect (writeTouch limit w s) (fieldWrite limit w v next s) (fieldWrite limit w v next s') := by
  rw [writeTouch_readB] at same
  have noX (m n : BitMemory) : m.SameOn (writeTouch limit w s).writeX n :=
    writeTouch_writeX limit w s ▸ BitMemory.sameOn_empty m n
  unfold fieldWrite
  rw [fieldPastEnd_of_req cfg req, offset_of_req req]
  split_ifs
  · exact sameEffect_respond _ _ _ same (noX _ _)
  · exact sameEffect_respond _ _ _ same (noX _ _)
  · exact sameEffect_respond _ _ _ same (noX _ _)
  · exact sameEffect_respond _ _ _ (BitMemory.sameOn_setBits same _ _ _) (noX _ _)

theorem wideRead_sameEffect {bits w : Nat} (same : s.b.SameOn (readTouch bits w s).readB s'.b) :
    SameEffect (readTouch bits w s) (wideRead bits w s) (wideRead bits w s') := by
  rw [wideRead_eq_fieldRead, wideRead_eq_fieldRead, cfg]
  exact fieldRead_sameEffect cfg req _ same

theorem wideWrite_sameEffect {bits w : Nat} (same : s.b.SameOn (writeTouch bits w s).readB s'.b) :
    SameEffect (writeTouch bits w s) (wideWrite bits w s) (wideWrite bits w s') := by
  rw [wideWrite_eq_fieldWrite, wideWrite_eq_fieldWrite, cfg, data_of_req req, offset_of_req req]
  exact fieldWrite_sameEffect cfg req _ _ same

theorem execRdbytes_sameEffect (same : s.b.SameOn (touch .rdbytes s).readB s'.b) :
    SameEffect (touch .rdbytes s) (execRdbytes s) (execRdbytes s') := by
  unfold execRdbytes
  rw [count_of_req req, xoff_of_req req, offset_of_req req, runPastEnd_of_req cfg req]
  by_cases past : s.runPastEnd = true
  · rw [touch_rdbytes_past past, if_pos past, if_pos past]
    split_ifs
    · exact sameEffect_of_no_write rfl rfl rfl
    · exact sameEffect_of_no_write rfl rfl rfl
  rw [if_neg past, if_neg past]
  rw [State.runPastEnd_iff] at past
  rw [touch_rdbytes_inside (by omega) (by omega)] at same ⊢
  have field : s.b.SameOn (fieldSpan s.offset (8 * s.count)) s'.b := same
  have run := sameOn_copyOut field s.xoff s.x s'.x
  rw [field.allValued_eq]
  split_ifs with none
  · rw [none] at run ⊢
    exact sameEffect_respond _ _ _ (BitMemory.sameOn_empty _ _) run
  · exact sameEffect_respond _ _ _ (BitMemory.sameOn_empty _ _) run
  · exact .fault _

theorem execWrbytes_sameEffect (sameB : s.b.SameOn (touch .wrbytes s).readB s'.b)
    (sameX : s.x.SameOn (touch .wrbytes s).readX s'.x) :
    SameEffect (touch .wrbytes s) (execWrbytes s) (execWrbytes s') := by
  unfold execWrbytes
  rw [count_of_req req, xoff_of_req req, offset_of_req req, runPastEnd_of_req cfg req]
  by_cases past : s.runPastEnd = true
  · rw [touch_wrbytes_past past, if_pos past, if_pos past]
    split_ifs
    · exact sameEffect_of_no_write rfl rfl rfl
    · exact sameEffect_of_no_write rfl rfl rfl
  rw [if_neg past, if_neg past]
  rw [State.runPastEnd_iff] at past
  rw [touch_wrbytes_inside (by omega) (by omega)] at sameB sameX ⊢
  have source : s.x.SameOn { lo := s.xoff, len := s.count } s'.x := sameX
  have field : s.b.SameOn (fieldSpan s.offset (8 * s.count)) s'.b := sameB
  have run := sameOn_copyIn (o := s.offset) source field
  rw [source.allValued_bytes_eq]
  split_ifs
  · exact sameEffect_respond _ _ _ field (BitMemory.sameOn_empty _ _)
  · exact sameEffect_respond _ _ _ run (BitMemory.sameOn_empty _ _)
  · exact .fault _

theorem execWrvar_sameEffect : SameEffect (touch .wrvar s) (execWrvar s) (execWrvar s') := by
  unfold execWrvar
  rw [cfg, data_of_req req, offset_of_req req]
  by_cases past : s.cfg.bufLen < s.offset + varLen (s.data 32)
  · rw [touch_wrvar_past past, if_pos past, if_pos past]
    exact sameEffect_of_no_write rfl rfl rfl
  · rw [touch_wrvar_inside (Nat.not_lt.mp past), if_neg past, if_neg past, ← length_varBytes _ (s.data_lt 32)]
    exact sameEffect_respond _ _ _ (sameOn_writeBytes _ _ _ _) (BitMemory.sameOn_empty _ _)

theorem execRdvar_sameEffect (same : s.b.SameOn (touch .rdvar s).readB s'.b) :
    SameEffect (touch .rdvar s) (execRdvar s) (execRdvar s') := by
  have loop : readVarint s.cfg s'.b s.offset 5 0 0 true = readVarint s.cfg s.b s.offset 5 0 0 true := by
    refine readVarint_congr rfl rfl 5 0 0 true fun j hj inside => same _ ?_
    obtain ⟨readB, -⟩ := touch_rdvar_covers s (s.offset + j)
    exact readB.mpr ⟨by omega, by omega, inside⟩
  unfold execRdvar
  rw [cfg, offset_of_req req, loop]
  cases readVarint s.cfg s.b s.offset 5 0 0 true with
  | done v n => exact sameEffect_of_no_write rfl rfl rfl
  | malformed => exact sameEffect_of_no_write rfl rfl rfl
  | bounds => exact sameEffect_of_no_write rfl rfl rfl
  | noValue => exact .fault _

/-- Memories that agree on the read footprint cannot be told apart by the command. -/
theorem exec_sameEffect (i : Instr) (sameB : s.b.SameOn (touch i s).readB s'.b)
    (sameX : s.x.SameOn (touch i s).readX s'.x) : SameEffect (touch i s) (exec i s) (exec i s') := by
  cases i with
  | rdbits w => exact fieldRead_sameEffect cfg req id sameB
  | wrbits w =>
    show SameEffect _ (execWrbits w s) (execWrbits w s')
    rw [execWrbits_eq_fieldWrite, execWrbits_eq_fieldWrite, data_of_req req]
    exact fieldWrite_sameEffect cfg req _ _ sameB
  | rdu16 w => exact wideRead_sameEffect cfg req sameB
  | rdu32 w => exact wideRead_sameEffect cfg req sameB
  | rdu64 w => exact wideRead_sameEffect cfg req sameB
  | wru16 w => exact wideWrite_sameEffect cfg req sameB
  | wru32 w => exact wideWrite_sameEffect cfg req sameB
  | wru64 w => exact wideWrite_sameEffect cfg req sameB
  | rdbytes => exact execRdbytes_sameEffect cfg req sameB
  | wrbytes => exact execWrbytes_sameEffect cfg req sameB sameX
  | wrvar => exact execWrvar_sameEffect cfg req
  | rdvar => exact execRdvar_sameEffect cfg req sameB

end Operands

/-- Settles O36: `exec_sameEffect`, read off for a next state and for a fault. -/
theorem readsStayInTheFootprint : Obligations.ReadsStayInTheFootprint := by
  intro i s s' cfg req sameB sameX
  have effect := exec_sameEffect cfg req i sameB sameX
  generalize exec i s = o at effect ⊢
  generalize exec i s' = o' at effect ⊢
  cases effect with
  | next resp b x =>
    refine ⟨fun t h => ?_, nofun⟩
    cases h
    exact ⟨_, rfl, resp, b, x⟩
  | fault r => exact ⟨nofun, fun _ h => h⟩

/-! ### Narrower reads that partition a field (20_memory.md rule R48) -/

/-- A slice of a field is a quotient and a remainder of the field's number. -/
theorem BitMemory.getBits_slice (m : BitMemory) {off w a n : Nat} (inside : a + n ≤ w) :
    m.getBits (off + a) n = m.getBits off w / 2 ^ a % 2 ^ n := by
  refine Nat.eq_of_testBit_eq fun k => ?_
  rw [Nat.testBit_mod_two_pow, Nat.testBit_div_two_pow, BitMemory.testBit_getBits, BitMemory.testBit_getBits]
  by_cases hk : k < n
  · rw [show off + a + k = off + (k + a) by omega]
    simp [hk, show k + a < w by omega]
  · simp [hk]

/-- A legal field fits RESULT. -/
theorem isFieldRead_width_le {i : Instr} (read : isFieldRead i = true) (legal : ¬ widthIllegal i) : i.nbitsField ≤ 64 := by
  have bound {lo hi : Nat} (range : widthRange i = some (lo, hi)) (le : hi ≤ 64) : i.nbitsField ≤ 64 := by
    rw [widthIllegal_iff range] at legal
    omega
  cases i with
  | rdbits w => exact bound rfl (by decide)
  | rdu16 w => exact bound rfl (by decide)
  | rdu32 w => exact bound rfl (by decide)
  | rdu64 w => exact bound rfl (by decide)
  | wrbits w => cases read
  | wru16 w => cases read
  | wru32 w => cases read
  | wru64 w => cases read
  | rdbytes => cases read
  | wrbytes => cases read
  | wrvar => cases read
  | rdvar => cases read

/-- The request at another bit offset. -/
def State.atOffset (s : State) (off : Nat) : State := { s with req := { s.req with offset := BitVec.ofNat 32 off } }

theorem State.atOffset_offset (s : State) {off : Nat} (small : off < 2 ^ 32) : (s.atOffset off).offset = off := by
  show (BitVec.ofNat 32 off).toNat = off
  rw [BitVec.toNat_ofNat, Nat.mod_eq_of_lt small]

/-- A legal field read that ENDIAN does not reorder (20_memory.md rule R48). -/
def PlainRead (e : Endian) (i : Instr) : Prop :=
  isFieldRead i = true ∧ ¬ widthIllegal i ∧ (e = .little ∨ isWide i = false)

theorem exec_plainRead {i : Instr} {s : State} {off : Nat} (plain : PlainRead s.cfg.endian i) (small : off < 2 ^ 32)
    (inside : off + i.nbitsField ≤ 8 * s.cfg.bufLen) (valued : s.b.allValued off i.nbitsField = true) :
    exec i (s.atOffset off) =
      .next ((s.atOffset off).finished (BitVec.ofNat 64 (s.b.getBits off i.nbitsField)) 0) := by
  obtain ⟨read, legal, mode⟩ := plain
  have here := s.atOffset_offset small
  have completes := fieldRead_completes (s := s.atOffset off) read legal mode
  rw [here] at completes
  exact completes inside valued

/-- A part that completes is noted, and the next one starts at its end. -/
theorem readParts_cons {part : Instr} {rest : List Instr} {off : Nat} {s t : State}
    (h : exec part (s.atOffset off) = .next t) :
    readParts (part :: rest) off s =
      (readParts rest (off + part.nbitsField) t).map (fun l => t.resp.result :: l) := by
  unfold State.atOffset at h
  rw [readParts, h]

/-- The slices the host notes: part after part, each at the sum of the widths before it. -/
theorem readParts_slices (parts : List Instr) (off : Nat) (s : State) (small : 8 * s.cfg.bufLen < 2 ^ 32)
    (plain : ∀ i ∈ parts, PlainRead s.cfg.endian i)
    (inside : off + (parts.map Instr.nbitsField).sum ≤ 8 * s.cfg.bufLen)
    (valued : ∀ k, k < (parts.map Instr.nbitsField).sum → s.b.hasValue (off + k) = true) :
    ∃ l, readParts parts off s = some l ∧ l.length = parts.length ∧
      ∀ (j : Nat) (i : Instr), parts[j]? = some i →
        l[j]? = some (BitVec.ofNat 64 (s.b.getBits (off + ((parts.take j).map Instr.nbitsField).sum) i.nbitsField)) := by
  induction parts generalizing off s with
  | nil => exact ⟨[], rfl, rfl, nofun⟩
  | cons part rest ih =>
    simp only [List.map_cons, List.sum_cons] at inside valued
    have first := exec_plainRead (off := off) (plain part List.mem_cons_self) (by omega) (by omega)
      ((s.b.allValued_iff off _).mpr fun k hk => valued k (by omega))
    obtain ⟨l, reads, len, slices⟩ :=
      ih (off + part.nbitsField) ((s.atOffset off).finished (BitVec.ofNat 64 (s.b.getBits off part.nbitsField)) 0) small
        (fun i mem => plain i (List.mem_cons_of_mem part mem)) (by show _ ≤ 8 * s.cfg.bufLen; omega)
        (fun k hk => by
          rw [Nat.add_assoc]
          exact valued _ (by omega))
    refine ⟨BitVec.ofNat 64 (s.b.getBits off part.nbitsField) :: l, ?_, by rw [List.length_cons, List.length_cons, len],
      fun j i at_ => ?_⟩
    · rw [readParts_cons first, reads]
      rfl
    · cases j with
      | zero =>
        cases at_
        rfl
      | succ j =>
        have slice := slices j i at_
        rw [Nat.add_assoc] at slice
        exact slice

/-- A part ends inside the whole. -/
theorem sum_take_add_le {parts : List Instr} {j : Nat} {i : Instr} (at_ : parts[j]? = some i) :
    ((parts.take j).map Instr.nbitsField).sum + i.nbitsField ≤ (parts.map Instr.nbitsField).sum := by
  obtain ⟨hj, rfl⟩ := List.getElem?_eq_some_iff.mp at_
  conv_rhs => rw [← List.take_append_drop j parts, List.drop_eq_getElem_cons hj]
  simp only [List.map_append, List.map_cons, List.sum_append, List.sum_cons]
  omega

/-- Settles O50: the parts are slices of the field's number, which is the result of the whole read. -/
theorem narrowReadsPartitionAField : Obligations.NarrowReadsPartitionAField := by
  intro whole parts s ok plain sum inside valued
  have small : 8 * s.cfg.bufLen < 2 ^ 32 := by
    have := ((sizesOk_iff s.cfg).mp ((Config.ok_iff s.cfg).mp ok).1).1
    omega
  obtain ⟨read, legal, mode⟩ := plain whole List.mem_cons_self
  have completes := fieldRead_completes read legal mode inside ((s.b.allValued_iff _ _).mpr valued)
  have lt := s.b.getBits_lt s.offset whole.nbitsField
  have result : (BitVec.ofNat 64 (s.b.getBits s.offset whole.nbitsField)).toNat = s.b.getBits s.offset whole.nbitsField := by
    rw [BitVec.toNat_ofNat]
    exact Nat.mod_eq_of_lt (lt.trans_le (Nat.pow_le_pow_right (by decide) (isFieldRead_width_le read legal)))
  obtain ⟨l, reads, len, slices⟩ := readParts_slices parts s.offset s small
    (fun i mem => plain i (List.mem_cons_of_mem whole mem)) (by omega) (fun k hk => valued k (by omega))
  refine ⟨_, l, completes, ?_, reads, len, fun j i at_ => ?_⟩
  · rw [State.finished_resp, result]
    exact lt
  · have fits := sum_take_add_le at_
    rw [State.finished_resp, result, slices j i at_, s.b.getBits_slice (fits.trans_eq sum)]

end Sys2Proof.Machine
end

section
/-! PROOFS of the family 30_encoding.md: decode and encode agree (rules R61, R63, R69, R70), illegal words (rules R65 to R67), and
the boolean pseudo-commands (rule R71). -/

namespace Sys2Proof.Machine

/-! ### The opcode map and its inverse -/

/-- A command is encodable exactly when its NBITS field is a 7-bit number (30_encoding.md rule R61). -/
theorem wellFormed_iff (i : Instr) : i.wellFormed = true ↔ i.nbitsField < 128 := by
  cases i with
  | rdbits n => exact decide_eq_true_iff
  | wrbits n => exact decide_eq_true_iff
  | rdu16 n => exact decide_eq_true_iff
  | rdu32 n => exact decide_eq_true_iff
  | rdu64 n => exact decide_eq_true_iff
  | wru16 n => exact decide_eq_true_iff
  | wru32 n => exact decide_eq_true_iff
  | wru64 n => exact decide_eq_true_iff
  | rdbytes => decide
  | wrbytes => decide
  | wrvar => decide
  | rdvar => decide

/-- The opcode map is a left inverse of the opcodes and widths it is written from (30_encoding.md rule R63). -/
theorem decodeOp_opcode (i : Instr) : decodeOp i.opcode i.nbitsField = .command i := by
  cases i <;> rfl

theorem widthless_command {nb : Nat} {i j : Instr} (h : widthless nb i = .command j) : nb = 0 ∧ j = i := by
  unfold widthless at h
  split_ifs at h with zero
  cases h
  exact ⟨zero, rfl⟩

/-- A command the opcode map selects carries the opcode and the width it was selected by: each entry of the map is one command's,
and only the widthless ones look at the width. -/
theorem decodeOp_command {op nb : Nat} {i : Instr} (h : decodeOp op nb = .command i) :
    i.opcode = op ∧ i.nbitsField = nb := by
  have withoutWidth {j : Instr} (noWidth : j.nbitsField = 0) (selected : widthless nb j = .command i) :
      i.opcode = j.opcode ∧ i.nbitsField = nb := by
    obtain ⟨zero, rfl⟩ := widthless_command selected
    exact ⟨rfl, noWidth.trans zero.symm⟩
  unfold decodeOp at h
  -- Case `n` is the map's row of opcode `n`: rows 3, 4, 11 and 12 have no width, row 13 is the reserved opcodes.
  split at h
  case h_3 => exact withoutWidth rfl h
  case h_4 => exact withoutWidth rfl h
  case h_11 => exact withoutWidth rfl h
  case h_12 => exact withoutWidth rfl h
  case h_13 => cases h
  all_goals
    cases h
    exact ⟨rfl, rfl⟩

/-! ### The fields of a word -/

theorem cmdNbits_lt (cmd : Word32) : cmdNbits cmd < 128 := (cmd.extractLsb' 4 7).isLt

/-- A word is its three fields: RSVD, NBITS and OP cover all 32 bits (30_encoding.md rule R61). -/
theorem toNat_eq_fields (cmd : Word32) : cmd.toNat = 2 ^ 11 * cmdRsvd cmd + 16 * cmdNbits cmd + cmdOp cmd := by
  have lt := cmd.isLt
  simp only [cmdRsvd, cmdNbits, cmdOp, BitVec.extractLsb'_toNat, Nat.shiftRight_eq_div_pow]
  omega

theorem word_ext {c d : Word32} (rsvd : cmdRsvd c = cmdRsvd d) (op : cmdOp c = cmdOp d)
    (nbits : cmdNbits c = cmdNbits d) : c = d := by
  refine BitVec.eq_of_toNat_eq ?_
  rw [toNat_eq_fields c, toNat_eq_fields d, rsvd, op, nbits]

/-- The fields of every well-formed command's word (30_encoding.md rule R70). -/
theorem encode_fields (i : Instr) : Laws.EncodeFields.Statement i := by
  cases i with
  | rdbits n => exact Laws.EncodeFields.rdbits n
  | wrbits n => exact Laws.EncodeFields.wrbits n
  | rdbytes => exact Laws.EncodeFields.rdbytes
  | wrbytes => exact Laws.EncodeFields.wrbytes
  | rdu16 n => exact Laws.EncodeFields.rdu16 n
  | rdu32 n => exact Laws.EncodeFields.rdu32 n
  | rdu64 n => exact Laws.EncodeFields.rdu64 n
  | wru16 n => exact Laws.EncodeFields.wru16 n
  | wru32 n => exact Laws.EncodeFields.wru32 n
  | wru64 n => exact Laws.EncodeFields.wru64 n
  | wrvar => exact Laws.EncodeFields.wrvar
  | rdvar => exact Laws.EncodeFields.rdvar

/-! ### Decode and encode -/

theorem decode_of_rsvd_zero {cmd : Word32} (rsvd : cmdRsvd cmd = 0) :
    decode cmd = decodeOp (cmdOp cmd) (cmdNbits cmd) :=
  if_neg (not_not_intro rsvd)

/-- What a word that is a command is made of: no reserved bit, and the command's opcode and width. -/
theorem decode_command {cmd : Word32} {i : Instr} (h : decode cmd = .command i) :
    cmdRsvd cmd = 0 ∧ cmdOp cmd = i.opcode ∧ cmdNbits cmd = i.nbitsField := by
  by_cases rsvd : cmdRsvd cmd = 0
  · rw [decode_of_rsvd_zero rsvd] at h
    obtain ⟨op, nbits⟩ := decodeOp_command h
    exact ⟨rsvd, op.symm, nbits.symm⟩
  · cases (if_pos rsvd : decode cmd = _).symm.trans h

/-- Settles O1: the word's fields are the command's opcode and width, and the opcode map takes those back. -/
theorem decodeOfEncode : Obligations.DecodeOfEncode := by
  intro i wf
  obtain ⟨rsvd, op, nbits⟩ := encode_fields i wf
  rw [decode_of_rsvd_zero rsvd, op, nbits]
  exact decodeOp_opcode i

/-- Settles O2: the word and the encoding of its command have the same three fields. -/
theorem encodeOfDecode : Obligations.EncodeOfDecode := by
  intro cmd i word
  obtain ⟨rsvd, op, nbits⟩ := decode_command word
  have wf : i.wellFormed = true := (wellFormed_iff i).mpr (nbits ▸ cmdNbits_lt cmd)
  obtain ⟨rsvd', op', nbits'⟩ := encode_fields i wf
  exact ⟨wf, word_ext (rsvd'.trans rsvd.symm) (op'.trans op.symm) (nbits'.trans nbits.symm)⟩

/-- Settles O4: the legal words are encodings of their commands (O1); the illegal ones are evaluated. -/
theorem vectorWordsDecode : Obligations.VectorWordsDecode :=
  ⟨decodeOfEncode (.rdbits 5) rfl, decodeOfEncode (.wrbits 3) rfl, decodeOfEncode .rdbytes rfl,
    decodeOfEncode .wrbytes rfl, decodeOfEncode (.rdu16 9) rfl, decodeOfEncode (.rdu32 32) rfl,
    decodeOfEncode (.rdu64 64) rfl, decodeOfEncode (.wru16 12) rfl, decodeOfEncode (.wru32 32) rfl,
    decodeOfEncode (.wru64 64) rfl, decodeOfEncode .wrvar rfl, decodeOfEncode .rdvar rfl,
    by decide, by decide, by decide, by decide⟩

/-! ### Illegal words -/

theorem complete_illegal {s : State} {why : IllegalReason} (word : decode s.req.cmd = .illegal why) :
    complete s = .next (s.failed .illegalCommand) := by
  rw [complete, word]
  exact raise_eq _ s

/-- A programming error is recorded unless an earlier one is (60_exceptions.md rule R147). -/
theorem recordFault_of_programmingError {st : Status} (error : st.isProgrammingError = true) (old : Option Status) :
    recordFault st old = old.or (some st) := by
  cases old with
  | some f => rfl
  | none => exact if_pos error

/-- Settles O6: the engine's turn while BUSY is COMPLETE, which fails with ILLEGAL_COMMAND. -/
theorem illegalWordCompletesWithItsStatus : Obligations.IllegalWordCompletesWithItsStatus := by
  intro s why ok busy next word
  rw [← recordFault_of_programmingError (st := .illegalCommand) rfl]
  calc step s = engineTurn { s with schedule := s.schedule.tail } := step_engine ok next
    _ = complete { s with schedule := s.schedule.tail } := engineTurn_busy busy
    _ = .next (State.failed { s with schedule := s.schedule.tail } .illegalCommand) := complete_illegal word

/-! ### The boolean pseudo-commands (30_encoding.md rule R71) -/

/-- Completing an assembled request executes its command. -/
theorem complete_request {i : Instr} (wf : i.wellFormed = true) (s : State) (off d n x : Nat) :
    complete { s with req := request i off d n x } = exec i { s with req := request i off d n x } :=
  complete_command (decodeOfEncode i wf)

/-- A legal WRBITS of a field inside `B` writes it (40_bit_packing.md rule R81). -/
theorem execWrbits_completes {w : Nat} {s : State} (lo : 1 ≤ w) (hi : w ≤ 8)
    (inside : s.offset + w ≤ 8 * s.cfg.bufLen) :
    execWrbits w s = .next ((s.withB (s.b.setBits s.offset w (s.data 8))).finished 0 0) := by
  rcases execWrbits_cases w s with ⟨g, _⟩ | ⟨g, _⟩ | ⟨_, _, g, _⟩ | ⟨_, _, _, e⟩
  · omega
  · omega
  · omega
  · exact e

/-- In a legal configuration every bit of `B` has a 32-bit offset (00_scope.md rule R7). -/
theorem offset_of_inside {c : Config} (ok : c.ok = true) {off : Nat} (inside : off < 8 * c.bufLen) :
    (BitVec.ofNat 32 off).toNat = off := by
  have small := ((sizesOk_iff c).mp ((Config.ok_iff c).mp ok).1).1
  rw [BitVec.toNat_ofNat]
  exact Nat.mod_eq_of_lt (by omega)

/-- WRBOOL writes the one bit, 1 for true and 0 for false. -/
theorem complete_wrbool {s : State} {off : Nat} (b : Bool) (ok : s.cfg.ok = true) (inside : off < 8 * s.cfg.bufLen) :
    complete { s with req := asmWrbool off b } =
      .next (({ s with req := asmWrbool off b }.withB (s.b.setBits off 1 b.toNat)).finished 0 0) := by
  have here : State.offset { s with req := asmWrbool off b } = off := offset_of_inside ok inside
  have value : State.data { s with req := asmWrbool off b } 8 = b.toNat := by cases b <;> rfl
  have writes : execWrbits 1 { s with req := asmWrbool off b } = _ :=
    execWrbits_completes (by decide) (by decide) (by rw [here]; exact inside)
  rw [here, value] at writes
  exact (complete_request rfl s _ _ _ _).trans writes

/-- RDBOOL reads the one bit. -/
theorem complete_rdbool {s : State} {off : Nat} (ok : s.cfg.ok = true) (inside : off < 8 * s.cfg.bufLen)
    (valued : s.b.allValued off 1 = true) :
    complete { s with req := asmRdbool off } =
      .next (State.finished { s with req := asmRdbool off } (BitVec.ofNat 64 (s.b.getBits off 1)) 0) := by
  have here : State.offset { s with req := asmRdbool off } = off := offset_of_inside ok inside
  have legal : ¬ widthIllegal (.rdbits 1) := by
    rw [widthIllegal_iff (lo := 1) (hi := 8) rfl]
    decide
  have reads := fieldRead_completes (s := { s with req := asmRdbool off }) (i := .rdbits 1) rfl legal (.inr rfl)
  rw [here] at reads
  exact (complete_request rfl s _ _ _ _).trans (reads inside valued)

/-- Settles O56: the bit WRBOOL wrote has a value, and RDBOOL's field is that bit. -/
theorem booleansRoundTrip : Obligations.BooleansRoundTrip := by
  intro s off b ok inside
  refine ⟨_, _, complete_wrbool b ok inside,
    complete_rdbool ok inside (BitMemory.allValued_setBits s.b off 1 b.toNat), ?_⟩
  rw [State.finished_resp, State.finished_b, State.withB_b, BitMemory.getBits_setBits]
  cases b <;> rfl

end Sys2Proof.Machine
end

section
/-! PROOFS of the family 40_bit_packing.md: RDBITS returns its field (rule R80), WRBITS sets it (rule R81), the two undo each
other (rule R83), and the shift-and-merge datapath does the same (rule R82). -/

namespace Sys2Proof.Machine

/-! ### RDBITS and WRBITS -/

theorem BitMemory.allValued_eq_false_iff (m : BitMemory) (off w : Nat) :
    m.allValued off w = false ↔ ∃ k, k < w ∧ m.hasValue (off + k) = false := by
  rw [← Bool.not_eq_true, BitMemory.allValued_iff]
  push Not
  simp only [Bool.not_eq_true]

/-- RDBITS of a legal field inside `B` whose bits all have a value returns it. -/
theorem exec_rdbits_completes {w : Nat} {s : State} (lo : 1 ≤ w) (hi : w ≤ 8)
    (inside : s.offset + w ≤ 8 * s.cfg.bufLen) (valued : s.b.allValued s.offset w = true) :
    exec (.rdbits w) s = .next (s.finished (BitVec.ofNat 64 (s.b.getBits s.offset w)) 0) := by
  have legal : ¬ widthIllegal (.rdbits w) := by
    rw [widthIllegal_iff (lo := 1) (hi := 8) rfl, Instr.nbitsField]
    omega
  exact fieldRead_completes (i := .rdbits w) rfl legal (.inr rfl) inside valued

/-- RDBITS of a legal field inside `B` with a bit that has no value faults (70_reset_and_hazards.md rule R163). -/
theorem execRdbits_faults {w : Nat} {s : State} (lo : 1 ≤ w) (hi : w ≤ 8)
    (inside : s.offset + w ≤ 8 * s.cfg.bufLen) (missing : s.b.allValued s.offset w = false) :
    execRdbits w s = .fault .readWithoutValue := by
  rcases execRdbits_cases w s with ⟨g, _⟩ | ⟨_, _, g, _⟩ | ⟨_, _, _, g, _⟩ | ⟨_, _, _, _, e⟩
  · omega
  · omega
  · cases missing.symm.trans g
  · exact e

/-- A number that fits the word keeps its bits. -/
theorem getLsbD_ofNat_of_lt {n w v : Nat} (lt : v < 2 ^ w) (fits : w ≤ n) (k : Nat) :
    (BitVec.ofNat n v).getLsbD k = v.testBit k := by
  rw [← BitVec.testBit_toNat, BitVec.toNat_ofNat, Nat.mod_eq_of_lt (lt.trans_le (Nat.pow_le_pow_right (by decide) fits))]

/-- Bit `k` of a word made of a field that fits it is bit `k` of the field, 0 above the width (00_scope.md rule R17). -/
theorem getLsbD_ofNat_getBits (m : BitMemory) (off : Nat) {n w : Nat} (fits : w ≤ n) (k : Nat) :
    (BitVec.ofNat n (m.getBits off w)).getLsbD k = (decide (k < w) && m.bit (off + k)) := by
  rw [getLsbD_ofNat_of_lt (m.getBits_lt off w) fits, BitMemory.testBit_getBits]

/-- Settles O17: with every bit valued RESULT is the field's number, and a bit without a value is the last check's. -/
theorem rdbitsReturnsTheField : Obligations.RdbitsReturnsTheField := by
  intro w s lo hi inside
  refine ⟨fun valued => ?_, fun missing => ?_⟩
  · exact ⟨_, exec_rdbits_completes lo hi inside ((s.b.allValued_iff _ _).mpr valued),
      getLsbD_ofNat_getBits s.b s.offset (by omega)⟩
  · exact execRdbits_faults lo hi inside ((s.b.allValued_eq_false_iff _ _).mpr missing)

/-- Settles O19: the memory is `setBits` of DATA's low byte, which holds DATA's bits for every legal width. -/
theorem wrbitsSetsTheField : Obligations.WrbitsSetsTheField := by
  intro w s lo hi inside
  refine ⟨_, execWrbits_completes lo hi inside, fun j => ⟨?_, BitMemory.hasValue_setBits _ _ _ _ _⟩⟩
  rw [BitMemory.bit_setBits]
  refine ite_congr rfl (fun field => ?_) fun _ => rfl
  rw [State.testBit_data, decide_eq_true (by omega), Bool.true_and]

/-- The low `w` bits of DATA as a word (00_scope.md rule R14). -/
theorem ofNat_data_mod {w bits : Nat} (s : State) (hi : w ≤ bits) :
    BitVec.ofNat 64 (s.data bits % 2 ^ w) = s.req.data &&& BitVec.ofNat 64 (mask w) := by
  rw [State.data, Nat.mod_mod_of_dvd _ (Nat.pow_dvd_pow 2 hi), mask, ← Nat.and_two_pow_sub_one_eq_mod, BitVec.ofNat_and,
    BitVec.ofNat_toNat, BitVec.setWidth_eq]

/-- Settles O44: RDBITS finds the field WRBITS wrote, every bit of it with a value. -/
theorem byteRoundTrip : Obligations.ByteRoundTrip := by
  intro w s lo hi inside
  have valued := s.b.allValued_setBits s.offset w (s.data 8)
  refine ⟨_, _, execWrbits_completes lo hi inside, exec_rdbits_completes lo hi inside valued, ?_, fun j outside => ?_⟩
  · rw [State.finished_resp, State.finished_b, State.withB_b, State.finished_offset, State.withB_offset,
      BitMemory.getBits_setBits, ofNat_data_mod s hi]
  · rw [State.finished_b, State.finished_b, State.withB_b, BitMemory.bit_setBits, BitMemory.hasValue_setBits,
      if_neg outside, if_neg outside]
    exact ⟨rfl, rfl⟩

/-! ### The masks and merges of the datapath, bit by bit (40_bit_packing.md rule R82) -/

theorem getLsbD_byteMask (w k : Nat) : (byteMask w).getLsbD k = (decide (k < 8) && decide (k < w)) := by
  rw [byteMask, mask, BitVec.getLsbD_ofNat, Nat.testBit_two_pow_sub_one]

/-- `AND 0xFF` drops nothing of a byte. -/
theorem full_and (v : Byte) : 0xFF &&& v = v := BitVec.allOnes_and

theorem and_full (v : Byte) : v &&& 0xFF = v := BitVec.and_allOnes

/-- A byte with its bits from `p` up to `p + w` taken from the low bits of `v`: the merge of a field inside one byte. -/
theorem getLsbD_merge_field (r v : Byte) {p w k : Nat} (hk : k < 8) (fits : ∀ i, w ≤ i → v.getLsbD i = false) :
    ((r &&& (byteMask p ||| (0xFF &&& ~~~byteMask (p + w)))) ||| (v <<< p)).getLsbD k =
      if p ≤ k ∧ k < p + w then v.getLsbD (k - p) else r.getLsbD k := by
  simp only [full_and, BitVec.getLsbD_or, BitVec.getLsbD_and, BitVec.getLsbD_not, getLsbD_byteMask, BitVec.getLsbD_shiftLeft]
  by_cases below : k < p
  · simp [hk, below, show ¬ p ≤ k by omega]
  · by_cases field : k < p + w
    · simp [hk, below, field, show p ≤ k by omega]
    · simp [hk, below, field, fits (k - p) (by omega)]

/-- A byte with its bits from `p` up taken from the low bits of `v`: the merge of a field's first byte. -/
theorem getLsbD_merge_above (r v : Byte) {p k : Nat} (hk : k < 8) :
    ((r &&& byteMask p) ||| ((v <<< p) &&& 0xFF)).getLsbD k = if p ≤ k then v.getLsbD (k - p) else r.getLsbD k := by
  simp only [and_full, BitVec.getLsbD_or, BitVec.getLsbD_and, getLsbD_byteMask, BitVec.getLsbD_shiftLeft]
  by_cases below : k < p
  · simp [hk, below, show ¬ p ≤ k by omega]
  · simp [hk, below, show p ≤ k by omega]

/-- A byte with its bits below `p` taken from the bits of `v` from `d` up: the merge of a field's second byte. -/
theorem getLsbD_merge_below (r v : Byte) {p d k : Nat} (hk : k < 8) (fits : ∀ i, d + p ≤ i → v.getLsbD i = false) :
    ((r &&& (0xFF &&& ~~~byteMask p)) ||| (v >>> d)).getLsbD k = if k < p then v.getLsbD (d + k) else r.getLsbD k := by
  simp only [full_and, BitVec.getLsbD_or, BitVec.getLsbD_and, BitVec.getLsbD_not, getLsbD_byteMask, BitVec.getLsbD_ushiftRight]
  by_cases field : k < p
  · simp [hk, field]
  · simp [hk, field, fits (d + k) (by omega)]

/-! ### The datapath equals the field read and the field write -/

/-- A bit of the memory in the byte and at the place it has. -/
theorem BitMemory.bit_eq_getLsbD {m : BitMemory} {j a k : Nat} (hk : k < 8) (place : j = 8 * a + k) :
    m.bit j = (m.value.read a).getLsbD k := by
  rw [value_bit m a k hk, place]

/-- The datapath's read is the field, bit by bit: a shift and a mask where one byte holds it, a merge where two do. -/
theorem getLsbD_datapathRead (m : BitMemory) {o w k : Nat} (hi : w ≤ 8) :
    (datapathRead m.value o w).getLsbD k = (decide (k < w) && m.bit (o + k)) := by
  rw [datapathRead]
  split_ifs with oneByte
  · rw [BitVec.getLsbD_and, BitVec.getLsbD_ushiftRight, getLsbD_byteMask]
    by_cases hk : k < w
    · rw [m.bit_eq_getLsbD (a := o / 8) (k := o % 8 + k) (by omega) (by omega)]
      simp [hk, show k < 8 by omega]
    · simp [hk]
  · rw [BitVec.getLsbD_or, BitVec.getLsbD_ushiftRight, BitVec.getLsbD_shiftLeft, BitVec.getLsbD_and, getLsbD_byteMask]
    by_cases first : k < 8 - o % 8
    · rw [m.bit_eq_getLsbD (a := o / 8) (k := o % 8 + k) (by omega) (by omega)]
      simp [first, show k < w by omega]
    · rw [BitVec.getLsbD_of_ge _ (o % 8 + k) (by omega)]
      by_cases hk : k < w
      · rw [m.bit_eq_getLsbD (a := o / 8 + 1) (k := k - (8 - o % 8)) (by omega) (by omega)]
        simp [first, hk, show k < 8 by omega, show k - (8 - o % 8) < 8 by omega,
          show k - (8 - o % 8) < w - (8 - o % 8) by omega]
      · simp [hk, show ¬ k - (8 - o % 8) < w - (8 - o % 8) by omega]

/-- The datapath's write sets the field's bits and leaves every other bit of every byte: one merge where one byte holds the
field, two where two do. -/
theorem getLsbD_datapathWrite (m : BitMemory) {o w a k : Nat} {v : Byte} (hi : w ≤ 8) (hk : k < 8)
    (fits : ∀ i, w ≤ i → v.getLsbD i = false) :
    ((datapathWrite m.value o w v).read a).getLsbD k =
      if o ≤ 8 * a + k ∧ 8 * a + k < o + w then v.getLsbD (8 * a + k - o) else m.bit (8 * a + k) := by
  rw [datapathWrite, ← value_bit m a k hk]
  by_cases oneByte : o % 8 + w ≤ 8
  · rw [if_pos oneByte, Memory.read_write]
    by_cases first : a = o / 8
    · rw [if_pos first, first, getLsbD_merge_field _ _ hk fits, show 8 * (o / 8) + k - o = k - o % 8 by omega]
      exact if_congr (by omega) rfl rfl
    · rw [if_neg first, if_neg (by omega)]
  · rw [if_neg oneByte, Memory.read_write, Memory.read_write]
    by_cases second : a = o / 8 + 1
    · rw [if_pos second, second, getLsbD_merge_below _ _ hk fun i high => fits i (by omega),
        show 8 * (o / 8 + 1) + k - o = 8 - o % 8 + k by omega]
      exact if_congr (by omega) rfl rfl
    · rw [if_neg second]
      by_cases first : a = o / 8
      · rw [if_pos first, first, getLsbD_merge_above _ _ hk, show 8 * (o / 8) + k - o = k - o % 8 by omega]
        exact if_congr (by omega) rfl rfl
      · rw [if_neg first, if_neg (by omega)]

/-- Bit `k` of `v AND mask(w)` as a byte. -/
theorem getLsbD_ofNat_and_mask (v : Nat) {w : Nat} (hi : w ≤ 8) (k : Nat) :
    (BitVec.ofNat 8 (v &&& mask w)).getLsbD k = (decide (k < w) && v.testBit k) := by
  have lt : mask w < 2 ^ w := Nat.sub_lt (Nat.two_pow_pos w) (by decide)
  rw [getLsbD_ofNat_of_lt (Nat.and_lt_two_pow v lt) hi, testBit_and_mask]

/-- Settles O54: both sides have the same bits, the field's bits of `B` for the read, and for the write the value's bits inside
the field and the old ones outside. -/
theorem bitDatapathEqualsTheFieldOperations : Obligations.BitDatapathEqualsTheFieldOperations := by
  intro m o w v _ hi
  refine ⟨BitVec.eq_of_getLsbD_eq fun k _ => ?_, fun a => BitVec.eq_of_getLsbD_eq fun k hk => ?_⟩
  · rw [getLsbD_datapathRead m hi, getLsbD_ofNat_getBits m o hi]
  · have fits : ∀ i, w ≤ i → (BitVec.ofNat 8 (v &&& mask w)).getLsbD i = false := fun i high => by
      rw [getLsbD_ofNat_and_mask v hi, decide_eq_false (by omega), Bool.false_and]
    rw [getLsbD_datapathWrite m hi hk fits, value_bit _ a k hk, BitMemory.bit_setBits]
    refine ite_congr rfl (fun field => ?_) fun _ => rfl
    rw [getLsbD_ofNat_and_mask v hi, decide_eq_true (by omega), Bool.true_and]

end Sys2Proof.Machine
end

section
/-! PROOFS of the family 41_byte_run.md: RDBYTES copies its run into `X` (rule R90), WRBYTES into `B` (rule R91), the bulk and
fixed-shift datapaths do the same (rule R92), and the two commands undo each other (rule R93). -/

namespace Sys2Proof.Machine

/-! ### RDBYTES and WRBYTES, by their checks -/

/-- RDBYTES of a run inside `B` and `X`, of any count: the check that each bit has a value decides (70_reset_and_hazards.md rule
R163), and a run of no bytes passes it. -/
theorem exec_rdbytes_inside {s : State} (inB : s.offset + 8 * s.count ≤ 8 * s.cfg.bufLen)
    (inX : s.xoff + s.count ≤ s.cfg.xferLen) :
    exec .rdbytes s =
      if s.b.allValued s.offset (8 * s.count) then
        .next ((s.withX (copyOut s.b s.offset s.xoff s.count s.x)).finished 0 0)
      else .fault .copyWithoutValue := by
  rcases execRdbytes_cases s with ⟨zero, e⟩ | ⟨_, past, _⟩ | ⟨_, _, _, valued, e⟩ | ⟨_, _, _, missing, e⟩
  · rw [zero]
    exact e
  · omega
  · rw [valued]
    exact e
  · rw [missing]
    exact e

/-- WRBYTES of a run inside `B` and `X`, of any count: the same check, on the bits of `X`. -/
theorem exec_wrbytes_inside {s : State} (inB : s.offset + 8 * s.count ≤ 8 * s.cfg.bufLen)
    (inX : s.xoff + s.count ≤ s.cfg.xferLen) :
    exec .wrbytes s =
      if s.x.allValued (8 * s.xoff) (8 * s.count) then
        .next ((s.withB (copyIn s.x s.offset s.xoff s.count s.b)).finished 0 0)
      else .fault .copyWithoutValue := by
  rcases execWrbytes_cases s with ⟨zero, e⟩ | ⟨_, past, _⟩ | ⟨_, _, _, valued, e⟩ | ⟨_, _, _, missing, e⟩
  · rw [zero]
    exact e
  · omega
  · rw [valued]
    exact e
  · rw [missing]
    exact e

/-! ### The run, bit by bit -/

/-- Bytes with the same bits and the same marks are the same, wherever they stand. -/
theorem BitMemory.byte_eq_of_bits {m n : BitMemory} {a c : Nat}
    (bits : ∀ k, k < 8 → m.bit (8 * a + k) = n.bit (8 * c + k))
    (marks : ∀ k, k < 8 → m.hasValue (8 * a + k) = n.hasValue (8 * c + k)) : m.byte a = n.byte c := by
  refine Prod.ext (BitVec.eq_of_getLsbD_eq fun k hk => ?_) (BitVec.eq_of_getLsbD_eq fun k hk => ?_)
  · exact (value_bit m a k hk).trans ((bits k hk).trans (value_bit n c k hk).symm)
  · exact (known_bit m a k hk).trans ((marks k hk).trans (known_bit n c k hk).symm)

section
variable {n i j : Nat} (hi : i < n) (hj : j < 8)
include hi hj

/-- Bit `j` of byte `i` of a run copied out of the buffer (41_byte_run.md rule R90). -/
theorem bit_copyOut (b : BitMemory) (o x : Nat) (dst : BitMemory) :
    (copyOut b o x n dst).bit (8 * (x + i) + j) = b.bit (o + 8 * i + j) := by
  rw [BitMemory.bit_of_byte, show (8 * (x + i) + j) / 8 = x + i by omega, show (8 * (x + i) + j) % 8 = j by omega,
    byte_copyOut, if_pos (by omega), getLsbD_ofNat_getBits _ _ (le_refl 8), decide_eq_true hj, Bool.true_and,
    Nat.add_sub_cancel_left]

theorem hasValue_copyOut (b : BitMemory) (o x : Nat) (dst : BitMemory) :
    (copyOut b o x n dst).hasValue (8 * (x + i) + j) = true := by
  have full : ∀ k, k < 8 → (0xFF : Byte).getLsbD k = true := by decide
  rw [BitMemory.hasValue_of_byte, show (8 * (x + i) + j) / 8 = x + i by omega, show (8 * (x + i) + j) % 8 = j by omega,
    byte_copyOut, if_pos (by omega)]
  exact full j hj

/-- Bit `j` of byte `i` of a run copied into the buffer (41_byte_run.md rule R91). -/
theorem bit_copyIn_run (src : BitMemory) (o x : Nat) (dst : BitMemory) :
    (copyIn src o x n dst).bit (o + 8 * i + j) = src.bit (8 * (x + i) + j) := by
  rw [bit_copyIn, if_pos (by omega), show 8 * x + (o + 8 * i + j - o) = 8 * (x + i) + j by omega]

end

/-- Settles O21: with every bit valued `X` is `copyOut` of the run, and a bit without a value fails the check. -/
theorem rdbytesCopiesTheRun : Obligations.RdbytesCopiesTheRun := by
  intro s _ inB inX
  rw [exec_rdbytes_inside inB inX]
  refine ⟨fun valued => ?_, fun missing => ?_⟩
  · refine ⟨_, if_pos ((s.b.allValued_iff _ _).mpr valued), fun i hi j hj => ?_, fun a outside => ?_⟩
    · exact ⟨bit_copyOut hi hj _ _ _ _, hasValue_copyOut hi hj _ _ _ _⟩
    · rw [byte_copyOut, if_neg outside]
  · rw [(s.b.allValued_eq_false_iff _ _).mpr missing]
    rfl

/-- Settles O22: with every bit valued `B` is `copyIn` of the run, and a bit without a value fails the check. -/
theorem wrbytesCopiesTheRun : Obligations.WrbytesCopiesTheRun := by
  intro s _ inB inX
  rw [exec_wrbytes_inside inB inX]
  refine ⟨fun valued => ?_, fun missing => ?_⟩
  · refine ⟨_, if_pos ((s.x.allValued_iff _ _).mpr valued), fun i hi j hj => ?_, fun j outside => ?_⟩
    · exact ⟨bit_copyIn_run hi hj _ _ _ _, by rw [hasValue_copyIn, if_pos (by omega)]⟩
    · rw [bit_copyIn, hasValue_copyIn, if_neg outside, if_neg outside]
      exact ⟨rfl, rfl⟩
  · rw [(s.x.allValued_eq_false_iff _ _).mpr missing]
    rfl

/-! ### Fidelity (41_byte_run.md rule R93) -/

theorem allValued_copyIn (src : BitMemory) (o x n : Nat) (dst : BitMemory) :
    (copyIn src o x n dst).allValued o (8 * n) = true := by
  rw [BitMemory.allValued_iff]
  intro k hk
  rw [hasValue_copyIn, if_pos (by omega)]

/-- A run with every bit valued, copied into a buffer and out of it again, is the same bytes. -/
theorem byte_copyOut_copyIn {src : BitMemory} {x n i : Nat} (hi : i < n)
    (valued : ∀ k, k < 8 * n → src.hasValue (8 * x + k) = true) (o x2 : Nat) (buf dst : BitMemory) :
    (copyOut (copyIn src o x n buf) o x2 n dst).byte (x2 + i) = src.byte (x + i) := by
  refine BitMemory.byte_eq_of_bits (fun k hk => ?_) fun k hk => ?_
  · rw [bit_copyOut hi hk, bit_copyIn_run hi hk]
  · rw [hasValue_copyOut hi hk, show 8 * (x + i) + k = 8 * x + (8 * i + k) by omega, valued _ (by omega)]

/-- Settles O45: the run WRBYTES wrote has every bit valued, and RDBYTES copies it back. -/
theorem byteRunFidelity : Obligations.ByteRunFidelity := by
  intro s x2 inB inX inX2 valued
  have writes := (exec_wrbytes_inside inB inX).trans (if_pos ((s.x.allValued_iff _ _).mpr valued))
  have filled := allValued_copyIn s.x s.offset s.xoff s.count s.b
  refine ⟨_, _, writes, Eq.trans (exec_rdbytes_inside inB inX2) (if_pos filled), rfl, fun i hi => ?_⟩
  exact byte_copyOut_copyIn hi valued s.offset x2.toNat s.b s.x

/-! ### The datapath of a run is the bit datapath at width 8 (41_byte_run.md rule R92, 40_bit_packing.md rule R82) -/

theorem and_byteMask_eight (v : Byte) : v &&& byteMask 8 = v := and_full v

theorem datapathRunByte_eq (m : Memory) (o i : Nat) : datapathRunByte m o i = datapathRead m (o + 8 * i) 8 := by
  rw [datapathRunByte, datapathRead, Nat.add_mul_mod_self_left, Nat.add_mul_div_left o i (by decide)]
  by_cases aligned : o % 8 = 0
  · rw [if_pos aligned, if_pos (by omega), aligned, BitVec.ushiftRight_zero, and_byteMask_eight]
  · rw [if_neg aligned, if_neg (by omega), show 8 - (8 - o % 8) = o % 8 by omega]

theorem datapathRunWrite_succ (src : Memory) (o x i : Nat) (m : Memory) :
    datapathRunWrite src o x (i + 1) m =
      datapathWrite (datapathRunWrite src o x i m) (o + 8 * i) 8 (src.read (x + i)) := by
  have nothingKept : byteMask 0 ||| (0xFF &&& ~~~byteMask (0 + 8)) = 0#8 := by decide
  rw [datapathRunWrite, datapathWrite, Nat.add_mul_mod_self_left, Nat.add_mul_div_left o i (by decide)]
  by_cases aligned : o % 8 = 0
  · rw [if_pos aligned, if_pos (by omega), aligned, nothingKept, BitVec.and_zero, BitVec.zero_or, BitVec.shiftLeft_zero]
  · rw [if_neg aligned, if_neg (by omega), show 8 - (8 - o % 8) = o % 8 by omega]

/-- The bit datapath's write reads the memory only at its addresses. -/
theorem read_datapathWrite_congr {m n : Memory} (same : ∀ a, m.read a = n.read a) (o w : Nat) (v : Byte) (a : Nat) :
    (datapathWrite m o w v).read a = (datapathWrite n o w v).read a := by
  rw [datapathWrite, datapathWrite]
  split_ifs <;> simp only [Memory.read_write, same]

/-- A whole byte written by the bit datapath (40_bit_packing.md rule R82 at width 8). -/
theorem read_datapathWrite_byte (m : BitMemory) (o : Nat) (v : Byte) (a : Nat) :
    (datapathWrite m.value o 8 v).read a = (m.setBits o 8 v.toNat).value.read a := by
  have byte : BitVec.ofNat 8 (v.toNat &&& mask 8) = v := by
    rw [BitVec.ofNat_and, BitVec.ofNat_toNat, BitVec.setWidth_eq]
    exact and_byteMask_eight v
  have fields := (bitDatapathEqualsTheFieldOperations m o 8 v.toNat (by decide) (by decide)).2 a
  rwa [byte] at fields

theorem read_datapathRunWrite (src dst : BitMemory) (o x n a : Nat) :
    (datapathRunWrite src.value o x n dst.value).read a = (copyIn src o x n dst).value.read a := by
  induction n generalizing a with
  | zero => rfl
  | succ i ih =>
    rw [datapathRunWrite_succ, read_datapathWrite_congr ih]
    exact read_datapathWrite_byte _ _ _ a

/-- Settles O55: each byte of a run goes through the bit datapath at width 8, which O54 settles. -/
theorem runDatapathEqualsTheCopies : Obligations.RunDatapathEqualsTheCopies := by
  refine fun src dst o x n => ⟨fun i => ?_, read_datapathRunWrite src dst o x n⟩
  rw [datapathRunByte_eq]
  exact (bitDatapathEqualsTheFieldOperations src (o + 8 * i) 8 0 (by decide) (by decide)).1

end Sys2Proof.Machine
end

section
/-! PROOFS of the family 42_wide_integer.md: the wide reads and writes by their checks and bit by bit (rules R100 and R104), the
round trips (rules R108 and R109), the byte order of a big-endian write (rule R110), and chained writes (rule R111). -/

namespace Sys2Proof.Machine

/-! ### The six wide commands -/

/-- The commands of one type width, whichever of the three it is. -/
theorem wideCommands_spec {w : Nat} {c : Nat × Instr × Instr} (mem : c ∈ wideCommands w) :
    isTypeWidth c.1 ∧ (∀ s, exec c.2.1 s = wideRead c.1 w s) ∧ ∀ s, exec c.2.2 s = wideWrite c.1 w s := by
  simp only [wideCommands, List.mem_cons, List.not_mem_nil, or_false] at mem
  rcases mem with rfl | rfl | rfl
  · exact ⟨.inl rfl, fun _ => rfl, fun _ => rfl⟩
  · exact ⟨.inr (.inl rfl), fun _ => rfl, fun _ => rfl⟩
  · exact ⟨.inr (.inr rfl), fun _ => rfl, fun _ => rfl⟩

section
variable {bits w : Nat} {s : State}

theorem wideRead_illegal (illegal : w < 1 ∨ bits < w) : wideRead bits w s = .next (s.failed .contractViolation) :=
  if_pos illegal

theorem wideRead_pastEnd (lo : 1 ≤ w) (hi : w ≤ bits) (past : 8 * s.cfg.bufLen < s.offset + w) :
    wideRead bits w s = .next (s.failed .boundsViolation) := by
  rw [wideRead, if_neg (by omega), if_pos ((s.fieldPastEnd_iff w).mpr past), raise_eq]

/-- A wide read of a legal field inside `B`: the check that each bit has a value decides (70_reset_and_hazards.md rule R163). -/
theorem wideRead_inside (lo : 1 ≤ w) (hi : w ≤ bits) (inside : s.offset + w ≤ 8 * s.cfg.bufLen) :
    wideRead bits w s =
      if s.b.allValued s.offset w then
        .next (s.finished (BitVec.ofNat 64 (reorder s.cfg.endian bits (s.b.getBits s.offset w))) 0)
      else .fault .readWithoutValue := by
  rcases wideRead_cases bits w s with ⟨g, _⟩ | ⟨_, _, g, _⟩ | ⟨_, _, _, valued, e⟩ | ⟨_, _, _, missing, e⟩
  · omega
  · omega
  · rw [valued]
    exact e
  · rw [missing]
    exact e

theorem wideWrite_illegal (illegal : bits < w) : wideWrite bits w s = .next (s.failed .contractViolation) :=
  if_pos illegal

theorem wideWrite_zero : wideWrite bits 0 s = .next (s.finished 0 s.req.offset) := by
  rw [wideWrite, if_neg (Nat.not_lt_zero bits), if_pos rfl, State.respond_ok, State.offset, BitVec.ofNat_toNat,
    BitVec.setWidth_eq]
  rfl

theorem wideWrite_pastEnd (lo : 1 ≤ w) (hi : w ≤ bits) (past : 8 * s.cfg.bufLen < s.offset + w) :
    wideWrite bits w s = .next (s.failed .boundsViolation) := by
  rw [wideWrite, if_neg (by omega), if_neg (by omega), if_pos ((s.fieldPastEnd_iff w).mpr past), raise_eq]

/-- A wide write of a legal field inside `B`. -/
theorem wideWrite_inside (lo : 1 ≤ w) (hi : w ≤ bits) (inside : s.offset + w ≤ 8 * s.cfg.bufLen) :
    wideWrite bits w s =
      .next ((s.withB (s.b.setBits s.offset w (reorder s.cfg.endian bits (s.data bits)))).finished 0
        (BitVec.ofNat 32 (s.offset + w))) := by
  rcases wideWrite_cases bits w s with ⟨g, _⟩ | ⟨_, g, _⟩ | ⟨_, _, g, _⟩ | ⟨_, _, _, e⟩
  · omega
  · omega
  · omega
  · exact e

end

/-- In a legal configuration every bit offset up to the end of `B` fits 32 bits (00_scope.md rule R7). -/
theorem offset_of_le {c : Config} (ok : c.ok = true) {off : Nat} (le : off ≤ 8 * c.bufLen) :
    (BitVec.ofNat 32 off).toNat = off := by
  have small := ((sizesOk_iff c).mp ((Config.ok_iff c).mp ok).1).1
  rw [BitVec.toNat_ofNat]
  exact Nat.mod_eq_of_lt (by omega)

/-! ### RESULT and the field, bit by bit -/

/-- RESULT in BE mode: bit `k` is the field's bit at the same place of the mirrored byte (00_scope.md rule R18). -/
theorem getLsbD_bswap_getBits {bits : Nat} (type : isTypeWidth bits) (m : BitMemory) (off w k : Nat) :
    (BitVec.ofNat 64 (bswap bits (m.getBits off w))).getLsbD k =
      (decide (k < bits) && decide (8 * (bits / 8 - 1 - k / 8) + k % 8 < w) &&
        m.bit (off + (8 * (bits / 8 - 1 - k / 8) + k % 8))) := by
  rw [getLsbD_ofNat_of_lt (bswap_lt type _) type.le, testBit_bswap type, BitMemory.testBit_getBits, Bool.and_assoc]

/-- Settles O18: the checks in their order, then the field's number in LE mode and its reversal in BE mode. -/
theorem wideReadsReturnTheField : Obligations.WideReadsReturnTheField := by
  intro w s c mem
  obtain ⟨type, read, -⟩ := wideCommands_spec mem
  rw [read]
  refine ⟨wideRead_illegal, wideRead_pastEnd, fun lo hi inside valued => ?_, fun lo hi inside missing => ?_⟩
  · refine ⟨_, (wideRead_inside lo hi inside).trans (if_pos ((s.b.allValued_iff _ _).mpr valued)),
      fun little => ?_, fun big => ?_⟩
    · rw [little]
      exact getLsbD_ofNat_getBits s.b s.offset (hi.trans type.le)
    · rw [big]
      exact getLsbD_bswap_getBits type s.b s.offset w
  · rw [wideRead_inside lo hi inside, (s.b.allValued_eq_false_iff _ _).mpr missing]
    rfl

/-- Bit `k` of the reversed source is DATA's bit at the same place of the mirrored byte. -/
theorem testBit_bswap_data {bits : Nat} (type : isTypeWidth bits) (s : State) {k : Nat} (hk : k < bits) :
    (bswap bits (s.data bits)).testBit k = s.req.data.getLsbD (8 * (bits / 8 - 1 - k / 8) + k % 8) := by
  have whole := type.eight_mul
  have mirrored : 8 * (bits / 8 - 1 - k / 8) + k % 8 < bits := by omega
  rw [testBit_bswap type, State.testBit_data, decide_eq_true hk, decide_eq_true mirrored, Bool.true_and, Bool.true_and]

/-- Settles O20: the checks in their order, then `setBits` of the source, reversed in BE mode. -/
theorem wideWritesSetTheField : Obligations.WideWritesSetTheField := by
  intro w s c mem
  obtain ⟨type, -, write⟩ := wideCommands_spec mem
  rw [write]
  refine ⟨wideWrite_illegal, ?_, wideWrite_pastEnd, fun lo hi inside ok => ?_⟩
  · rintro rfl
    exact wideWrite_zero
  · refine ⟨_, _, wideWrite_inside lo hi inside, offset_of_le ok inside, fun j =>
      ⟨fun little => ?_, fun big => ?_, BitMemory.hasValue_setBits _ _ _ _ _⟩⟩
    · rw [BitMemory.bit_setBits, little]
      refine ite_congr rfl (fun field => ?_) fun _ => rfl
      rw [reorder, State.testBit_data, decide_eq_true (by omega), Bool.true_and]
    · rw [BitMemory.bit_setBits, big]
      exact ite_congr rfl (fun field => testBit_bswap_data type s (by omega)) fun _ => rfl

/-! ### Round trips (42_wide_integer.md rules R108 and R109) -/

/-- Writing and reading reorder the bytes twice, which is nothing in LE mode and, at full width, in BE mode. -/
theorem reorder_mod_reorder {e : Endian} {bits w : Nat} (type : isTypeWidth bits) (mode : e = .little ∨ w = bits)
    (v : Nat) : reorder e bits (reorder e bits v % 2 ^ w) = v % 2 ^ w := by
  cases e with
  | little => rfl
  | big =>
    obtain rfl : w = bits := mode.resolve_left nofun
    rw [reorder, reorder, Nat.mod_eq_of_lt (bswap_lt type v), bswap_bswap type]

/-- WRU`N` then RDU`N` of one field: RESULT is the written field, reordered as the mode says. -/
theorem wideWrite_then_wideRead {w : Nat} {c : Nat × Instr × Instr} {s : State} (mem : c ∈ wideCommands w) (lo : 1 ≤ w)
    (hi : w ≤ c.1) (inside : s.offset + w ≤ 8 * s.cfg.bufLen) :
    ∃ t u, exec c.2.2 s = .next t ∧ exec c.2.1 t = .next u ∧
      u.resp =
        { valid := true, status := 0, next := 0,
          result := BitVec.ofNat 64 (reorder s.cfg.endian c.1 (reorder s.cfg.endian c.1 (s.data c.1) % 2 ^ w)) } ∧
      u.b = s.b.setBits s.offset w (reorder s.cfg.endian c.1 (s.data c.1)) := by
  obtain ⟨-, read, write⟩ := wideCommands_spec mem
  have valued := s.b.allValued_setBits s.offset w (reorder s.cfg.endian c.1 (s.data c.1))
  refine ⟨_, _, (write s).trans (wideWrite_inside lo hi inside),
    Eq.trans (read _) (Eq.trans (wideRead_inside lo hi inside) (if_pos valued)), ?_, rfl⟩
  rw [State.finished_resp, State.finished_b, State.withB_b, State.finished_offset, State.withB_offset,
    BitMemory.getBits_setBits, State.finished_cfg, State.withB_cfg]

/-- Settles O46: the two reorderings cancel, and `setBits` leaves every bit outside the field. -/
theorem wideRoundTrip : Obligations.WideRoundTrip := by
  intro w s c mem lo hi inside mode
  obtain ⟨t, u, writes, reads, resp, b⟩ := wideWrite_then_wideRead mem lo hi inside
  refine ⟨t, u, writes, reads, ?_, fun j outside => ?_⟩
  · rw [resp, reorder_mod_reorder (wideCommands_spec mem).1 mode, ofNat_data_mod s hi]
  · rw [b, BitMemory.bit_setBits, BitMemory.hasValue_setBits, if_neg outside, if_neg outside]
    exact ⟨rfl, rfl⟩

/-- Settles O47: the two reorderings are reversals with the mask between them, and the outer one fits RESULT. -/
theorem bigEndianPartialWidth : Obligations.BigEndianPartialWidth := by
  intro w s c mem lo below inside big
  obtain ⟨t, u, writes, reads, resp, -⟩ := wideWrite_then_wideRead mem lo below.le inside
  have type := (wideCommands_spec mem).1
  have fits : bswap c.1 (bswap c.1 (s.data c.1) % 2 ^ w) < 2 ^ 64 :=
    (bswap_lt type _).trans_le (Nat.pow_le_pow_right (by decide) type.le)
  refine ⟨t, u, writes, reads, by rw [resp], ?_⟩
  rw [resp, big, mask, Nat.and_two_pow_sub_one_eq_mod]
  exact (BitVec.toNat_ofNat _ _).trans (Nat.mod_eq_of_lt fits)

/-! ### Byte order (42_wide_integer.md rule R110) -/

/-- A bit of a field just written. -/
theorem BitMemory.bit_setBits_field (m : BitMemory) {off w k : Nat} (hk : k < w) (v : Nat) :
    (m.setBits off w v).bit (off + k) = v.testBit k := by
  rw [BitMemory.bit_setBits, if_pos (by omega), Nat.add_sub_cancel_left]

/-- Settles O48: both writes are `setBits` of the field, and the source of the BE one is reversed. -/
theorem bigEndianReversesTheBytes : Obligations.BigEndianReversesTheBytes := by
  intro s w c mem full inside
  obtain ⟨type, -, write⟩ := wideCommands_spec mem
  have whole := type.eight_mul
  have lo : 1 ≤ w := by rcases type with h | h | h <;> omega
  have writes (e : Endian) := (write (s.inMode e)).trans (wideWrite_inside lo full.le inside)
  refine ⟨_, _, writes .little, writes .big, fun j k hj hk => ?_⟩
  have bigBit : 8 * j + k < w := by omega
  have littleBit : 8 * (c.1 / 8 - 1 - j) + k < w := by omega
  have byteIndex : (8 * j + k) / 8 = j := by omega
  have bitIndex : (8 * j + k) % 8 = k := by omega
  have mirrored : (bswap c.1 (s.data c.1)).testBit (8 * j + k) = (s.data c.1).testBit (8 * (c.1 / 8 - 1 - j) + k) := by
    rw [testBit_bswap type, byteIndex, bitIndex, decide_eq_true (full ▸ bigBit), Bool.true_and]
  rw [Nat.add_assoc, Nat.add_assoc]
  exact (BitMemory.bit_setBits_field _ bigBit _).trans (mirrored.trans (BitMemory.bit_setBits_field _ littleBit _).symm)

/-! ### Chained writes (42_wide_integer.md rule R111) -/

/-- A field with commands of its width, of a width from 1 up to the type width. -/
def WideField.Legal (f : WideField) : Prop :=
  f.commands ∈ wideCommands f.width ∧ 1 ≤ f.width ∧ f.width ≤ f.commands.1

/-- The number WRU`N` takes the field's bits from. -/
def WideField.source (e : Endian) (f : WideField) : Nat :=
  reorder e f.commands.1 (f.value.toNat % 2 ^ f.commands.1)

/-- What RDU`N` makes of the field's bits. -/
def WideField.readBack (e : Endian) (f : WideField) : Word64 :=
  BitVec.ofNat 64 (reorder e f.commands.1 (f.source e % 2 ^ f.width))

/-- The memory holds the fields end to end from `off` up, every bit with a value. -/
def HoldsFields (e : Endian) (m : BitMemory) : List WideField → Nat → Prop
  | [], _ => True
  | f :: rest, off =>
    m.allValued off f.width = true ∧ m.getBits off f.width = f.source e % 2 ^ f.width ∧
      HoldsFields e m rest (off + f.width)

theorem totalWidth_cons (f : WideField) (rest : List WideField) :
    totalWidth (f :: rest) = f.width + totalWidth rest := by
  rw [totalWidth, List.map_cons, List.sum_cons, totalWidth]

/-- The request of one write of the chain. -/
def State.atField (s : State) (off : Word32) (f : WideField) : State :=
  { s with req := { s.req with offset := off, data := f.value } }

/-- The state after one write of the chain. -/
def State.afterField (s : State) (off : Word32) (f : WideField) : State :=
  ((s.atField off f).withB (s.b.setBits off.toNat f.width (f.source s.cfg.endian))).finished 0
    (BitVec.ofNat 32 (off.toNat + f.width))

/-- A field that fits is written, and the next one starts at RESP.NEXT (70_reset_and_hazards.md rule R168). -/
theorem writeFields_cons {f : WideField} {off : Word32} {s : State} (legal : f.Legal)
    (inside : off.toNat + f.width ≤ 8 * s.cfg.bufLen) (rest : List WideField) :
    writeFields (f :: rest) off s = writeFields rest (BitVec.ofNat 32 (off.toNat + f.width)) (s.afterField off f) := by
  obtain ⟨mem, lo, hi⟩ := legal
  have writes : exec f.commands.2.2 (s.atField off f) = .next (s.afterField off f) :=
    ((wideCommands_spec mem).2.2 _).trans (wideWrite_inside lo hi inside)
  unfold State.atField at writes
  rw [writeFields, writes]
  rfl

/-- A field read that completes is noted, and the next one starts at its end. -/
theorem readFields_cons {f : WideField} {off : Nat} {s t : State} (h : exec f.commands.2.1 (s.atOffset off) = .next t)
    (rest : List WideField) :
    readFields (f :: rest) off s = (readFields rest (off + f.width) t).map (fun l => t.resp.result :: l) := by
  unfold State.atOffset at h
  rw [readFields, h]

/-- Each write of the chain leaves the bits below its offset, so the fields before it, as they were. -/
theorem writeFields_holdsFields (fields : List WideField) (off : Word32) (s : State) (ok : s.cfg.ok = true)
    (legal : ∀ f ∈ fields, f.Legal) (inside : off.toNat + totalWidth fields ≤ 8 * s.cfg.bufLen) :
    ∃ t, writeFields fields off s = .next t ∧ t.cfg = s.cfg ∧
      (∀ j, j < off.toNat → t.b.bit j = s.b.bit j ∧ t.b.hasValue j = s.b.hasValue j) ∧
      HoldsFields s.cfg.endian t.b fields off.toNat := by
  induction fields generalizing off s with
  | nil => exact ⟨s, rfl, rfl, fun _ _ => ⟨rfl, rfl⟩, trivial⟩
  | cons f rest ih =>
    rw [totalWidth_cons] at inside
    have next : (BitVec.ofNat 32 (off.toNat + f.width)).toNat = off.toNat + f.width := offset_of_le ok (by omega)
    obtain ⟨t, writes, cfg, below, holds⟩ :=
      ih (BitVec.ofNat 32 (off.toNat + f.width)) (s.afterField off f) ok
        (fun g mem => legal g (List.mem_cons_of_mem f mem)) (by rw [next]; exact (Nat.add_assoc _ _ _).trans_le inside)
    rw [next] at below holds
    have afterB : (s.afterField off f).b = s.b.setBits off.toNat f.width (f.source s.cfg.endian) := rfl
    rw [afterB] at below
    refine ⟨t, (writeFields_cons (legal f List.mem_cons_self) (by omega) rest).trans writes, cfg, fun j hj => ?_,
      ?_, ?_, holds⟩
    · obtain ⟨bit, mark⟩ := below j (by omega)
      rw [bit, mark, BitMemory.bit_setBits, BitMemory.hasValue_setBits, if_neg (by omega), if_neg (by omega)]
      exact ⟨rfl, rfl⟩
    · refine (t.b.allValued_iff _ _).mpr fun k hk => ?_
      rw [(below _ (by omega)).2, BitMemory.hasValue_setBits, if_pos (by omega)]
    · rw [BitMemory.getBits_congr _ _ _ _ _ fun k hk => (below _ (Nat.add_lt_add_left hk _)).1, BitMemory.getBits_setBits]

/-- Fields the memory holds are read back in order. -/
theorem readFields_of_holdsFields (fields : List WideField) (off : Nat) (s : State) (ok : s.cfg.ok = true)
    (legal : ∀ f ∈ fields, f.Legal) (inside : off + totalWidth fields ≤ 8 * s.cfg.bufLen)
    (holds : HoldsFields s.cfg.endian s.b fields off) :
    readFields fields off s = some (fields.map (WideField.readBack s.cfg.endian)) := by
  induction fields generalizing off s with
  | nil => rfl
  | cons f rest ih =>
    rw [totalWidth_cons] at inside
    obtain ⟨valued, number, holdsRest⟩ := holds
    obtain ⟨mem, lo, hi⟩ := legal f List.mem_cons_self
    have here : (s.atOffset off).offset = off := offset_of_le ok (by omega)
    have read := wideRead_inside (s := s.atOffset off) lo hi (by rw [here]; show _ ≤ 8 * s.cfg.bufLen; omega)
    have result : BitVec.ofNat 64 (reorder s.cfg.endian f.commands.1 (s.b.getBits off f.width)) =
        f.readBack s.cfg.endian := by rw [number, WideField.readBack]
    rw [here] at read
    have reads : exec f.commands.2.1 (s.atOffset off) = .next ((s.atOffset off).finished (f.readBack s.cfg.endian) 0) :=
      result ▸ ((wideCommands_spec mem).2.1 _).trans (read.trans (if_pos valued))
    have readsRest := ih (off + f.width) ((s.atOffset off).finished (f.readBack s.cfg.endian) 0) ok
      (fun g mem => legal g (List.mem_cons_of_mem f mem)) ((Nat.add_assoc _ _ _).trans_le inside) holdsRest
    rw [readFields_cons reads, readsRest]
    rfl

/-- A field comes back masked to its width where the two reorderings cancel (42_wide_integer.md rule R108). -/
theorem WideField.readBack_eq {e : Endian} {f : WideField} (legal : f.Legal)
    (mode : e = .little ∨ f.width = f.commands.1) : f.readBack e = f.value &&& BitVec.ofNat 64 (mask f.width) := by
  obtain ⟨mem, -, hi⟩ := legal
  rw [WideField.readBack, WideField.source, reorder_mod_reorder (wideCommands_spec mem).1 mode]
  exact ofNat_data_mod (State.reset.atField 0 f) hi

/-- Settles O49: the writes leave the fields end to end, and the reads return each of them. -/
theorem chainedWritesReadBack : Obligations.ChainedWritesReadBack := by
  intro fields off s ok legal inside
  obtain ⟨t, writes, cfg, -, holds⟩ := writeFields_holdsFields fields off s ok legal inside
  rw [← cfg] at ok inside holds
  refine ⟨t, _, writes, readFields_of_holdsFields fields off.toNat t ok legal inside holds, List.length_map _,
    fun i f at_ mode => ?_⟩
  rw [← cfg] at mode
  rw [List.getElem?_map, at_, Option.map_some, WideField.readBack_eq (legal f (List.mem_of_getElem? at_)) mode]

end Sys2Proof.Machine
end

section
/-! PROOFS of the family 43_varint.md: the length and the closed form of an encoding (rules R120, R123), WRVAR writes it (rule
R121), RDVAR decodes a stream or faults (rule R122), and the two undo each other (rule R124). -/

namespace Sys2Proof.Machine

/-! ### The length of an encoding (43_varint.md rule R123) -/

/-- An encoding has at most `j` bytes exactly when the value has at most `7 * j` bits. -/
theorem varLen_le_iff {v : Nat} (lt : v < 2 ^ 32) (j : Nat) : varLen v ≤ j ↔ 1 ≤ j ∧ v < 2 ^ (7 * j) := by
  rcases Nat.lt_or_ge j 5 with small | large
  · unfold varLen
    interval_cases j <;> split_ifs <;> omega
  · have fits : v < 2 ^ (7 * j) := lt.trans_le (Nat.pow_le_pow_right (by decide) (by omega))
    exact iff_of_true ((varLen_le v).2.trans large) ⟨by omega, fits⟩

theorem lt_two_pow_varLen {v : Nat} (lt : v < 2 ^ 32) : v < 2 ^ (7 * varLen v) :=
  ((varLen_le_iff lt _).mp le_rfl).2

theorem varLen_eq_max {v : Nat} (lt : v < 2 ^ 32) : varLen v = max 1 ((Nat.size v + 6) / 7) := by
  refine eq_of_forall_ge_iff fun j => ?_
  rw [varLen_le_iff lt, ← Nat.size_le, max_le_iff]
  omega

/-! ### The bytes of an encoding (43_varint.md rules R120 and R121) -/

/-- Dropping the first seven bits of the value drops the first byte of the encoding. -/
theorem varByte_succ (len v i : Nat) : varByte (len + 1) v (i + 1) = varByte len (v >>> 7) i := by
  have last : i + 1 < len + 1 - 1 ↔ i < len - 1 := by omega
  have rest : v >>> 7 >>> (7 * i) = v >>> (7 * (i + 1)) := by rw [← Nat.shiftRight_add, Nat.mul_succ, Nat.add_comm]
  simp only [varByte, last, rest]

/-- The last byte holds the seven bits that are left, its bit 7 clear. -/
theorem varByte_one {v : Nat} (lt : v < 2 ^ 7) : varByte 1 v 0 = BitVec.ofNat 8 v := by
  have low : v &&& 0x7F = v := (Nat.and_two_pow_sub_one_eq_mod v 7).trans (Nat.mod_eq_of_lt lt)
  rw [varByte, if_neg (Nat.lt_irrefl 0), Nat.mul_zero, Nat.shiftRight_zero, low, Nat.zero_or]

/-- The loop makes the closed form, for a value its bytes can hold. -/
theorem getElem?_varBytes {fuel v : Nat} (lt : v < 2 ^ (7 * (fuel + 1))) {i : Nat} (hi : i < (varBytes fuel v).length) :
    (varBytes fuel v)[i]? = some (varByte (varBytes fuel v).length v i) := by
  induction fuel generalizing v i with
  | zero =>
    obtain rfl : i = 0 := Nat.lt_one_iff.mp hi
    exact congrArg some (varByte_one lt).symm
  | succ fuel ih =>
    rw [varBytes] at hi ⊢
    split_ifs at hi ⊢ with more
    · have rest : v >>> 7 < 2 ^ (7 * (fuel + 1)) := by
        rw [Nat.shiftRight_eq_div_pow, Nat.div_lt_iff_lt_mul (by decide), ← Nat.pow_add]
        exact lt
      rw [List.length_cons] at hi ⊢
      cases i with
      | zero =>
        have continued : 0 < (varBytes fuel (v >>> 7)).length := (length_varBytes_le fuel (v >>> 7)).1
        rw [List.getElem?_cons_zero, varByte, Nat.add_sub_cancel, if_pos continued, Nat.or_comm]
        rfl
      | succ i => rw [List.getElem?_cons_succ, ih rest (by omega), varByte_succ]
    · obtain rfl : i = 0 := Nat.lt_one_iff.mp hi
      exact congrArg some (varByte_one (Nat.lt_of_not_le more)).symm

/-- Byte `i` of the encoding of a 32-bit value is `E(v)[i]`. -/
theorem getElem?_varBytes_varLen {v : Nat} (lt : v < 2 ^ 32) {i : Nat} (hi : i < varLen v) :
    (varBytes 4 v)[i]? = some (varByte (varLen v) v i) := by
  rw [← length_varBytes v lt] at hi ⊢
  exact getElem?_varBytes (lt.trans (by decide)) hi

/-- Settles O52: both sides of the length formula bound the value by the same powers of two, and the loop makes the closed
form. -/
theorem varintLengthAndBytes : Obligations.VarintLengthAndBytes :=
  fun v lt => ⟨varLen_eq_max lt, length_varBytes v lt, fun _ => getElem?_varBytes_varLen lt⟩

/-! ### WRVAR -/

/-- Every byte of a memory with an encoding written to it. -/
theorem byte_writeBytes_varBytes {v : Nat} (lt : v < 2 ^ 32) (m : BitMemory) (o a : Nat) :
    (writeBytes m o (varBytes 4 v)).byte a =
      if o ≤ a ∧ a < o + varLen v then (varByte (varLen v) v (a - o), 0xFF) else m.byte a := by
  rw [byte_writeBytes, length_varBytes v lt]
  refine ite_congr rfl (fun inside => ?_) fun _ => rfl
  rw [List.getD_eq_getElem?_getD, getElem?_varBytes_varLen lt (by omega), Option.getD_some]

/-- WRVAR completes where the encoding fits. -/
theorem exec_wrvar_completes {s : State} (inside : s.offset + varLen (s.data 32) ≤ s.cfg.bufLen) :
    exec .wrvar s =
      .next ((s.withB (writeBytes s.b s.offset (varBytes 4 (s.data 32)))).finished 0
        (BitVec.ofNat 32 (varLen (s.data 32)))) := by
  rcases execWrvar_cases s with ⟨past, _⟩ | ⟨_, e⟩
  · omega
  · exact e

/-- Settles O23: the memory WRVAR leaves, byte by byte. -/
theorem wrvarWritesTheEncoding : Obligations.WrvarWritesTheEncoding :=
  fun s inside => ⟨_, exec_wrvar_completes inside, byte_writeBytes_varBytes (s.data_lt 32) s.b s.offset⟩

/-! ### RDVAR -/

section
variable {n : Nat} {s : State} (hn : n < 5) (before : ∀ j, j < n → continues s.cfg s.b s.offset j)
include hn before

theorem exec_rdvar_of_done {v c : Nat} (ends : VarEnds s.cfg s.b s.offset n (.done v c)) :
    exec .rdvar s = .next (s.finished (BitVec.ofNat 64 v) (BitVec.ofNat 32 (s.offset + c))) := by
  show execRdvar s = _
  rw [execRdvar, readVarint_eq (by omega) before ends, ← State.respond_ok]

theorem exec_rdvar_of_noValue (ends : VarEnds s.cfg s.b s.offset n .noValue) :
    exec .rdvar s = .fault .readWithoutValue := by
  show execRdvar s = _
  rw [execRdvar, readVarint_eq (by omega) before ends]

end

/-! ### Which bits of a stream matter to RDVAR (70_reset_and_hazards.md rule R163; log entry 10) -/

section
variable {c : Config} {m : BitMemory} {o n : Nat} (hn : n < 5)

/-- Valued continuation bits that are set carry the loop to byte `n`. -/
theorem continues_of_bits (inside : o + n < c.bufLen) (marked : ∀ i, i < n → m.hasValue (8 * (o + i) + 7) = true)
    (continued : ∀ i, i < n → m.bit (8 * (o + i) + 7) = true) : ∀ j, j < n → continues c m o j :=
  fun j hj => (continues_iff c m o j).mpr ⟨by omega, marked j hj, continued j hj⟩

/-- A fifth byte none of whose bits 4 to 6 is known to be set is not certain to be rejected. -/
theorem not_rejectsFifth (small : n = 4 → c.topBits = .reject → ∀ k, 36 ≤ k → k < 39 → m.hasValue (8 * o + k) = true →
      m.bit (8 * o + k) = false) : ¬ rejectsFifth c m o n := by
  rw [rejectsFifth_iff]
  rintro ⟨rfl, reject, k, lo, hi, marked, one⟩
  rw [show 8 * (o + 4) + k = 8 * o + (32 + k) by omega] at marked one
  cases one.symm.trans (small rfl reject (32 + k) (by omega) (by omega) marked)

include hn

/-- A payload bit that reaches the value has its own if all of them have. -/
theorem hasValue_of_varValued (valued : varValued m o (n + 1) = true) {k : Nat} (hk : k < 8 * (n + 1)) (reaches : k < 36)
    (payload : k % 8 ≠ 7) : m.hasValue (8 * o + k) = true := by
  have bit := (varValued_iff m o (n + 1) (by omega)).mp valued (7 * (k / 8) + k % 8) (by omega) (by omega)
  rwa [show 8 * (o + (7 * (k / 8) + k % 8) / 7) + (7 * (k / 8) + k % 8) % 7 = 8 * o + k by omega] at bit

/-- A bit that matters and has no value is a payload bit, where every bit 7 has its value and the REJECT check has its bits. -/
theorem varValued_eq_false (marked : ∀ i, i < n + 1 → m.hasValue (8 * (o + i) + 7) = true)
    (known : ¬ fifthUnvalued c m o n) {k : Nat} (hk : k < 8 * (n + 1)) (matters : k < 36 ∨ k = 39 ∨ c.topBits = .reject)
    (missing : m.hasValue (8 * o + k) = false) : varValued m o (n + 1) = false := by
  have payload : k % 8 ≠ 7 := fun seven => by
    have mark := marked (k / 8) (by omega)
    rw [show 8 * (o + k / 8) + 7 = 8 * o + k by omega] at mark
    cases missing.symm.trans mark
  have reaches : k < 36 := by
    rcases matters with low | rfl | reject
    · exact low
    · exact absurd rfl payload
    · by_contra top
      refine known ((fifthUnvalued_iff c m o n).mpr ⟨by omega, reject, k - 32, by omega, by omega, ?_⟩)
      rwa [show 8 * (o + n) + (k - 32) = 8 * o + k by omega]
  refine (Bool.not_eq_true _).mp fun valued => ?_
  cases missing.symm.trans (hasValue_of_varValued hn valued hk reaches payload)

/-- A stream whose bits that matter all have a value, and whose fifth byte is not rejected, is decoded. -/
theorem varEnds_done (inside : o + n < c.bufLen) (clear : m.bit (8 * (o + n) + 7) = false)
    (valued : ∀ k, k < 8 * (n + 1) → (k < 36 ∨ k = 39 ∨ c.topBits = .reject) → m.hasValue (8 * o + k) = true)
    (accepted : ¬ rejectsFifth c m o n) : VarEnds c m o n (.done (varPayload m o (n + 1)) (n + 1)) := by
  have mark : m.hasValue (8 * (o + n) + 7) = true := by
    rw [Nat.mul_add, Nat.add_assoc]
    exact valued (8 * n + 7) (by omega) (by omega)
  have known : ¬ fifthUnvalued c m o n := by
    rw [fifthUnvalued_iff]
    rintro ⟨rfl, reject, k, lo, hi, missing⟩
    rw [Nat.mul_add, Nat.add_assoc] at missing
    cases missing.symm.trans (valued (8 * 4 + k) (by omega) (.inr (.inr reject)))
  refine .done inside accepted ((known_bit m _ 7 (by decide)).trans mark) ((value_bit m _ 7 (by decide)).trans clear) known
    ((varValued_iff m o (n + 1) (by omega)).mpr fun k value here => ?_)
  rw [Nat.mul_add, Nat.add_assoc]
  exact valued (8 * (k / 7) + k % 7) (by omega) (.inl (by omega))

/-- Without the value of a bit that matters, a last byte that is not certain to be rejected ends the loop in a fault. -/
theorem varEnds_noValue (inside : o + n < c.bufLen) (accepted : ¬ rejectsFifth c m o n)
    (marked : ∀ i, i < n → m.hasValue (8 * (o + i) + 7) = true)
    (missing : m.hasValue (8 * (o + n) + 7) = false ∨
      (m.bit (8 * (o + n) + 7) = false ∧
        ∃ k, k < 8 * (n + 1) ∧ (k < 36 ∨ k = 39 ∨ c.topBits = .reject) ∧ m.hasValue (8 * o + k) = false)) :
    VarEnds c m o n .noValue := by
  cases mark : m.hasValue (8 * (o + n) + 7) with
  | false => exact .unknownEnd inside accepted ((known_bit m _ 7 (by decide)).trans mark)
  | true =>
    rcases missing with unmarked | ⟨clear, k, hk, matters, missing⟩
    · cases mark.symm.trans unmarked
    have last : byteBit (m.known.read (o + n)) 7 = true := (known_bit m _ 7 (by decide)).trans mark
    have ended : byteBit (m.value.read (o + n)) 7 = false := (value_bit m _ 7 (by decide)).trans clear
    by_cases unknown : fifthUnvalued c m o n
    · exact .unknownReject inside accepted last ended unknown
    · have allMarked : ∀ i, i < n + 1 → m.hasValue (8 * (o + i) + 7) = true :=
        Nat.forall_lt_succ_right.mpr ⟨marked, mark⟩
      exact .unknownPayload inside accepted last ended unknown
        (varValued_eq_false hn allMarked unknown hk matters missing)

end

/-- Settles O24: a stream with its values ends with `VarEnds.done`, one that lacks a value that matters with `VarEnds.noValue`. -/
theorem rdvarReturnsTheValue : Obligations.RdvarReturnsTheValue := by
  intro n s hn inside continued
  refine ⟨fun clear valued small => ?_, fun marked small missing => ?_⟩
  · have marked : ∀ i, i < n → s.b.hasValue (8 * (s.offset + i) + 7) = true := fun i hi => by
      rw [Nat.mul_add, Nat.add_assoc]
      exact valued (8 * i + 7) (by omega) (by omega)
    have accepted : ¬ rejectsFifth s.cfg s.b s.offset n :=
      not_rejectsFifth fun fifth reject k lo hi _ => small fifth reject k lo hi
    have before := continues_of_bits inside marked continued
    refine ⟨_, exec_rdvar_of_done hn before (varEnds_done hn inside clear valued accepted), fun k => ?_⟩
    rw [getLsbD_ofNat_of_lt (varPayload_lt _ _ _) (by decide), testBit_varPayload]
  · exact exec_rdvar_of_noValue hn (continues_of_bits inside marked continued)
      (varEnds_noValue hn inside (not_rejectsFifth small) marked missing)

/-! ### Round trip (43_varint.md rule R124) -/

/-- Bit 7 of a byte of an encoding says whether another byte follows, the other bits are the value's (43_varint.md rule R120). -/
theorem getLsbD_varByte (len v i : Nat) {k : Nat} (hk : k < 8) :
    (varByte len v i).getLsbD k = if k = 7 then decide (i < len - 1) else v.testBit (7 * i + k) := by
  have low : (0x7F : Nat).testBit k = decide (k < 7) := Nat.testBit_two_pow_sub_one 7 k
  have top : (0x80 : Nat).testBit k = decide (7 = k) := Nat.testBit_two_pow (n := 7)
  have more : (if i < len - 1 then 0x80 else 0).testBit k = (decide (7 = k) && decide (i < len - 1)) := by
    split_ifs with h <;> simp [top, h]
  rw [varByte, BitVec.getLsbD_ofNat, decide_eq_true hk, Bool.true_and, Nat.testBit_or, Nat.testBit_and,
    Nat.testBit_shiftRight, low, more]
  by_cases seven : k = 7
  · simp [seven]
  · simp [seven, Ne.symm seven, show k < 7 by omega]

/-- A number has no bit above a power of two that bounds it. -/
theorem testBit_of_lt_two_pow {v w k : Nat} (lt : v < 2 ^ w) (above : w ≤ k) : v.testBit k = false :=
  Nat.testBit_lt_two_pow (lt.trans_le (Nat.pow_le_pow_right (by decide) above))

section
variable {v : Nat} (lt : v < 2 ^ 32) (m : BitMemory) (o : Nat) {i k : Nat} (hi : i < varLen v) (hk : k < 8)
include lt hi hk

/-- Bit `k` of byte `i` of an encoding in memory. -/
theorem bit_writeBytes_varBytes : (writeBytes m o (varBytes 4 v)).bit (8 * (o + i) + k) =
    if k = 7 then decide (i < varLen v - 1) else v.testBit (7 * i + k) := by
  rw [BitMemory.bit_of_byte, show (8 * (o + i) + k) / 8 = o + i by omega, show (8 * (o + i) + k) % 8 = k by omega,
    byte_writeBytes_varBytes lt, if_pos (by omega), Nat.add_sub_cancel_left, getLsbD_varByte _ _ _ hk]

theorem hasValue_writeBytes_varBytes : (writeBytes m o (varBytes 4 v)).hasValue (8 * (o + i) + k) = true := by
  have full : ∀ k, k < 8 → (0xFF : Byte).getLsbD k = true := by decide
  rw [BitMemory.hasValue_of_byte, show (8 * (o + i) + k) / 8 = o + i by omega, show (8 * (o + i) + k) % 8 = k by omega,
    byte_writeBytes_varBytes lt, if_pos (by omega)]
  exact full k hk

end

/-- Decoding an encoding in memory gives the value back. -/
theorem varPayload_writeBytes_varBytes {v : Nat} (lt : v < 2 ^ 32) (m : BitMemory) (o : Nat) :
    varPayload (writeBytes m o (varBytes 4 v)) o (varLen v) = v := by
  refine Nat.eq_of_testBit_eq fun k => ?_
  rw [testBit_varPayload]
  by_cases value : k < 32
  · by_cases here : k < 7 * varLen v
    · rw [decide_eq_true value, decide_eq_true here, Bool.true_and, Bool.true_and,
        bit_writeBytes_varBytes lt m o (by omega) (by omega), if_neg (by omega), show 7 * (k / 7) + k % 7 = k by omega]
    · rw [testBit_of_lt_two_pow (lt_two_pow_varLen lt) (by omega), decide_eq_false here, Bool.and_false, Bool.false_and]
  · rw [testBit_of_lt_two_pow lt (by omega), decide_eq_false value, Bool.false_and, Bool.false_and]

/-- An encoding in memory is a stream of `varLen v - 1` continuation bytes that RDVAR decodes, under both treatments of the
top bits: a 32-bit value leaves bits 4 to 6 of a fifth byte clear. -/
theorem exec_rdvar_of_encoding {v : Nat} {s : State} (lt : v < 2 ^ 32) (inside : s.offset + varLen v ≤ s.cfg.bufLen)
    {m : BitMemory} (encoded : s.b = writeBytes m s.offset (varBytes 4 v)) :
    exec .rdvar s = .next (s.finished (BitVec.ofNat 64 v) (BitVec.ofNat 32 (s.offset + varLen v))) := by
  obtain ⟨n, len⟩ : ∃ n, varLen v = n + 1 := ⟨varLen v - 1, (Nat.sub_add_cancel (varLen_le v).1).symm⟩
  have hn : n < 5 := by have := varLen_le v; omega
  have bit : ∀ i k, i < n + 1 → k < 8 → s.b.bit (8 * (s.offset + i) + k) =
      if k = 7 then decide (i < n) else v.testBit (7 * i + k) := fun i k hi hk => by
    rw [encoded, bit_writeBytes_varBytes lt _ _ (len ▸ hi) hk, len, Nat.add_sub_cancel]
  have valued : ∀ i k, i < n + 1 → k < 8 → s.b.hasValue (8 * (s.offset + i) + k) = true := fun i k hi hk => by
    rw [encoded, hasValue_writeBytes_varBytes lt _ _ (len ▸ hi) hk]
  have before := continues_of_bits (c := s.cfg) (n := n) (by omega) (fun i hi => valued i 7 (by omega) (by decide))
    fun i hi => by rw [bit i 7 (by omega) (by decide), if_pos rfl, decide_eq_true hi]
  have accepted : ¬ rejectsFifth s.cfg s.b s.offset n := by
    refine not_rejectsFifth fun fifth _ k lo hi _ => ?_
    rw [show 8 * s.offset + k = 8 * (s.offset + 4) + (k - 32) by omega, bit 4 _ (by omega) (by omega), if_neg (by omega)]
    exact testBit_of_lt_two_pow lt (by omega)
  have ends := varEnds_done hn (by omega)
    (by rw [bit n 7 (by omega) (by decide), if_pos rfl, decide_eq_false (Nat.lt_irrefl n)])
    (fun k hk _ => by
      rw [show 8 * s.offset + k = 8 * (s.offset + k / 8) + k % 8 by omega]
      exact valued _ _ (by omega) (by omega))
    accepted
  have payload : varPayload s.b s.offset (n + 1) = v := by rw [encoded, ← len, varPayload_writeBytes_varBytes lt]
  rw [payload, ← len] at ends
  exact exec_rdvar_of_done hn before ends

/-- Settles O51: RDVAR decodes the encoding WRVAR wrote. -/
theorem varintRoundTrip : Obligations.VarintRoundTrip := by
  intro s inside
  exact ⟨_, _, exec_wrvar_completes inside, exec_rdvar_of_encoding (s.data_lt 32) inside rfl, rfl⟩

end Sys2Proof.Machine
end

section
/-! PROOFS of the family 60_exceptions.md: illegal words (rule R141), the width check (rule R142), the bounds check (rule R143),
malformed varints (rule R144), the order of the checks (rule R145), and failures (rules R146, R147 and R155). -/

namespace Sys2Proof.Machine

/-! ### What each check reports (60_exceptions.md rule R145) -/

/-- What a byte run comes to, where `valued` says that every bit it copies has a value, and `m` and `x` are the memories
after it. -/
def byteRun (valued : Bool) (m x : BitMemory) (s : State) : Host.Outcome State Fault Refusal :=
  if s.count = 0 then .next (s.respond .ok 0 0)
  else if s.runPastEnd then raise .boundsViolation s
  else if valued then .next (({ s with b := m, x := x } : State).respond .ok 0 0)
  else .fault .copyWithoutValue

theorem execRdbytes_eq_byteRun (s : State) :
    execRdbytes s =
      byteRun (s.b.allValued s.offset (8 * s.count)) s.b (copyOut s.b s.offset s.xoff s.count s.x) s := rfl

theorem execWrbytes_eq_byteRun (s : State) :
    execWrbytes s =
      byteRun (s.x.allValued (8 * s.xoff) (8 * s.count)) (copyIn s.x s.offset s.xoff s.count s.b) s.x s := rfl

/-- Why a command fails, and with which status: its width check, its bounds check or, for RDVAR alone, its decoding loop. -/
inductive Fails (i : Instr) (s : State) : Status → Prop
  | width (illegal : widthIllegal i) : Fails i s .contractViolation
  | bounds (legal : ¬ widthIllegal i) (past : boundsIllegal i s) : Fails i s .boundsViolation
  | streamEnds (rdvar : i = .rdvar) : Fails i s .boundsViolation
  | malformed (rdvar : i = .rdvar) : Fails i s .malformedVarint

/-- What a command comes to by its checks: a failure of one of them, or a success or a fault past all of them. -/
inductive Checked (i : Instr) (s : State) : Host.Outcome State Fault Refusal → Prop
  | failed (st : Status) (why : Fails i s st) : Checked i s (.next (s.failed st))
  | done (legal : ¬ widthIllegal i) (inside : ¬ boundsIllegal i s) (m x : BitMemory) (r : Word64) (n : Word32) :
      Checked i s (.next ({ s with b := m, x := x }.finished r n))
  | fault (legal : ¬ widthIllegal i) (inside : ¬ boundsIllegal i s) (f : Fault) : Checked i s (.fault f)

section
variable {i : Instr} {s : State}

/-- A success that leaves both memories as they were. -/
theorem Checked.unchanged (legal : ¬ widthIllegal i) (inside : ¬ boundsIllegal i s) (r : Word64) (n : Word32) :
    Checked i s (.next (s.finished r n)) :=
  .done legal inside s.b s.x r n

theorem fieldRead_checked {limit w : Nat} (result : Nat → Nat) (range : widthRange i = some (1, limit))
    (width : i.nbitsField = w) (bounds : boundsIllegal i s ↔ 8 * s.cfg.bufLen < s.offset + w) :
    Checked i s (fieldRead limit w result s) := by
  have illegal := width ▸ widthIllegal_iff range
  rw [← State.fieldPastEnd_iff] at bounds
  unfold fieldRead
  split_ifs with outside past valued
  · exact .failed _ (.width (illegal.mpr outside))
  · exact .failed _ (.bounds (illegal.not.mpr outside) (bounds.mpr past))
  · rw [State.respond_ok]
    exact .unchanged (illegal.not.mpr outside) (bounds.not.mpr past) _ _
  · exact .fault (illegal.not.mpr outside) (bounds.not.mpr past) _

theorem fieldWrite_checked {limit w : Nat} (v next : Nat) (range : widthRange i = some (0, limit))
    (width : i.nbitsField = w) (bounds : boundsIllegal i s ↔ 1 ≤ w ∧ 8 * s.cfg.bufLen < s.offset + w) :
    Checked i s (fieldWrite limit w v next s) := by
  have illegal : widthIllegal i ↔ limit < w := by
    rw [widthIllegal_iff range, width]
    omega
  rw [← State.fieldPastEnd_iff] at bounds
  unfold fieldWrite
  split_ifs with outside zero past
  · exact .failed _ (.width (illegal.mpr outside))
  · rw [State.respond_ok]
    exact .unchanged (illegal.not.mpr outside) (by rw [bounds]; omega) _ _
  · exact .failed _ (.bounds (illegal.not.mpr outside) (bounds.mpr ⟨by omega, past⟩))
  · rw [State.respond_ok]
    exact .done (illegal.not.mpr outside) (fun h => past (bounds.mp h).2) _ s.x _ _

theorem byteRun_checked (valued : Bool) (m x : BitMemory) (range : widthRange i = none)
    (bounds : boundsIllegal i s ↔ 1 ≤ s.count ∧
      (8 * s.cfg.bufLen < s.offset + 8 * s.count ∨ s.cfg.xferLen < s.xoff + s.count)) :
    Checked i s (byteRun valued m x s) := by
  have legal := not_widthIllegal_of_widthless range
  rw [← State.runPastEnd_iff] at bounds
  unfold byteRun
  split_ifs with zero past
  · rw [State.respond_ok]
    exact .unchanged legal (by rw [bounds]; omega) _ _
  · exact .failed _ (.bounds legal (bounds.mpr ⟨by omega, past⟩))
  · rw [State.respond_ok]
    exact .done legal (fun h => past (bounds.mp h).2) m x _ _
  · exact .fault legal (fun h => past (bounds.mp h).2) _

theorem wideRead_checked {bits w : Nat} (range : widthRange i = some (1, bits)) (width : i.nbitsField = w)
    (bounds : boundsIllegal i s ↔ 8 * s.cfg.bufLen < s.offset + w) : Checked i s (wideRead bits w s) :=
  wideRead_eq_fieldRead bits w s ▸ fieldRead_checked _ range width bounds

theorem wideWrite_checked {bits w : Nat} (range : widthRange i = some (0, bits)) (width : i.nbitsField = w)
    (bounds : boundsIllegal i s ↔ 1 ≤ w ∧ 8 * s.cfg.bufLen < s.offset + w) : Checked i s (wideWrite bits w s) :=
  wideWrite_eq_fieldWrite bits w s ▸ fieldWrite_checked _ _ range width bounds

end

theorem execWrbits_checked (w : Nat) (s : State) : Checked (.wrbits w) s (execWrbits w s) :=
  execWrbits_eq_fieldWrite w s ▸ fieldWrite_checked _ _ rfl rfl Iff.rfl

theorem execRdbytes_checked (s : State) : Checked .rdbytes s (execRdbytes s) :=
  execRdbytes_eq_byteRun s ▸ byteRun_checked _ _ _ rfl Iff.rfl

theorem execWrbytes_checked (s : State) : Checked .wrbytes s (execWrbytes s) :=
  execWrbytes_eq_byteRun s ▸ byteRun_checked _ _ _ rfl Iff.rfl

theorem execWrvar_checked (s : State) : Checked .wrvar s (execWrvar s) := by
  have legal := not_widthIllegal_of_widthless (i := .wrvar) rfl
  rcases execWrvar_cases s with ⟨past, e⟩ | ⟨inside, e⟩ <;> rw [e]
  · exact .failed _ (.bounds legal past)
  · exact .done legal (Nat.not_lt.mpr inside) _ s.x _ _

theorem execRdvar_checked (s : State) : Checked .rdvar s (execRdvar s) := by
  have legal := not_widthIllegal_of_widthless (i := .rdvar) rfl
  rcases execRdvar_cases s with ⟨_, _, _, e⟩ | ⟨_, e⟩ | ⟨_, e⟩ | ⟨_, e⟩ <;> rw [e]
  · exact .unchanged legal id _ _
  · exact .failed _ (.malformed rfl)
  · exact .failed _ (.streamEnds rfl)
  · exact .fault legal id _

/-- Every command ends as its checks say. -/
theorem exec_checked (i : Instr) (s : State) : Checked i s (exec i s) := by
  cases i with
  | rdbits w => exact fieldRead_checked id rfl rfl Iff.rfl
  | wrbits w => exact execWrbits_checked w s
  | rdbytes => exact execRdbytes_checked s
  | wrbytes => exact execWrbytes_checked s
  | rdu16 w => exact wideRead_checked rfl rfl Iff.rfl
  | rdu32 w => exact wideRead_checked rfl rfl Iff.rfl
  | rdu64 w => exact wideRead_checked rfl rfl Iff.rfl
  | wru16 w => exact wideWrite_checked rfl rfl Iff.rfl
  | wru32 w => exact wideWrite_checked rfl rfl Iff.rfl
  | wru64 w => exact wideWrite_checked rfl rfl Iff.rfl
  | wrvar => exact execWrvar_checked s
  | rdvar => exact execRdvar_checked s

/-- A failing status says which check failed. -/
theorem exec_fails {i : Instr} {s t : State} {st : Status} (error : st ≠ .ok) (h : exec i s = .next t)
    (status : t.resp.status = st.code) : Fails i s st := by
  have checked := exec_checked i s
  rw [h] at checked
  cases checked with
  | failed _ why => exact Status.code_inj status ▸ why
  | done => exact absurd (Status.code_inj (a := .ok) status).symm error

/-! ### Width and bounds violations (60_exceptions.md rules R142 and R143) -/

theorem exec_of_widthIllegal {i : Instr} (illegal : widthIllegal i) (s : State) :
    exec i s = .next (s.failed .contractViolation) := by
  have checked := exec_checked i s
  generalize exec i s = o at checked ⊢
  cases checked with
  | failed _ why =>
    cases why with
    | width => rfl
    | bounds legal => exact absurd illegal legal
    | streamEnds rdvar => exact absurd (rdvar ▸ illegal) (not_widthIllegal_of_widthless rfl)
    | malformed rdvar => exact absurd (rdvar ▸ illegal) (not_widthIllegal_of_widthless rfl)
  | done legal => exact absurd illegal legal
  | fault legal => exact absurd illegal legal

theorem exec_of_boundsIllegal {i : Instr} {s : State} (legal : ¬ widthIllegal i) (past : boundsIllegal i s) :
    exec i s = .next (s.failed .boundsViolation) := by
  have checked := exec_checked i s
  generalize exec i s = o at checked ⊢
  cases checked with
  | failed _ why =>
    cases why with
    | width illegal => exact absurd illegal legal
    | bounds => rfl
    | streamEnds => rfl
    | malformed rdvar => exact (rdvar ▸ past : boundsIllegal .rdvar s).elim
  | done _ inside => exact absurd past inside
  | fault _ inside => exact absurd past inside

/-- Settles O26: the width check comes first, and no other check reports its status. -/
theorem contractViolationExactly : Obligations.ContractViolationExactly := by
  refine fun i s => ⟨fun illegal => exec_of_widthIllegal illegal s, fun t h status => ?_⟩
  cases exec_fails (st := .contractViolation) nofun h status with
  | width illegal => exact illegal

/-- Settles O27: with a legal width the bounds check decides; RDVAR is the one command that reports its status otherwise. -/
theorem boundsViolationExactly : Obligations.BoundsViolationExactly := by
  refine fun i s notRdvar => ⟨exec_of_boundsIllegal, fun t h status => ?_⟩
  cases exec_fails (st := .boundsViolation) nofun h status with
  | bounds legal past => exact ⟨past, legal⟩
  | streamEnds rdvar => exact absurd rdvar notRdvar

/-! ### Illegal words (60_exceptions.md rule R141) -/

/-! A command word's fields by its number (30_encoding.md rule R61). -/

theorem cmdOp_eq (cmd : Word32) : cmdOp cmd = cmd.toNat % 16 := by
  rw [cmdOp, BitVec.extractLsb'_toNat, Nat.shiftRight_zero]

theorem cmdOp_lt (cmd : Word32) : cmdOp cmd < 16 := (cmd.extractLsb' 0 4).isLt

theorem cmdNbits_eq (cmd : Word32) : cmdNbits cmd = cmd.toNat / 16 % 128 := by
  rw [cmdNbits, BitVec.extractLsb'_toNat, Nat.shiftRight_eq_div_pow]

theorem cmdRsvd_eq (cmd : Word32) : cmdRsvd cmd = cmd.toNat / 2 ^ 11 := by
  rw [cmdRsvd, BitVec.extractLsb'_toNat, Nat.shiftRight_eq_div_pow]
  have lt := cmd.isLt
  exact Nat.mod_eq_of_lt (by omega)

theorem widthless_illegal_iff (nb : Nat) (i : Instr) : (∃ why, widthless nb i = .illegal why) ↔ nb ≠ 0 := by
  unfold widthless
  split_ifs with zero <;> simp [zero]

/-- The rows of the opcode map that are illegal, for every opcode OP can hold (30_encoding.md rules R65 and R66). -/
theorem decodeOp_illegal_iff {op : Nat} (lt : op < 16) (nb : Nat) :
    (∃ why, decodeOp op nb = .illegal why) ↔
      op ∈ [0x0, 0xD, 0xE, 0xF] ∨ (op ∈ [0x3, 0x4, 0xB, 0xC] ∧ nb ≠ 0) := by
  interval_cases op <;> simp [decodeOp, widthless_illegal_iff]

theorem decode_illegal_iff (cmd : Word32) :
    (∃ why, decode cmd = .illegal why) ↔
      cmdRsvd cmd ≠ 0 ∨ cmdOp cmd ∈ [0x0, 0xD, 0xE, 0xF] ∨
        (cmdOp cmd ∈ [0x3, 0x4, 0xB, 0xC] ∧ cmdNbits cmd ≠ 0) := by
  by_cases rsvd : cmdRsvd cmd = 0
  · rw [decode_of_rsvd_zero rsvd, decodeOp_illegal_iff (cmdOp_lt cmd)]
    simp [rsvd]
  · exact iff_of_true ⟨_, if_pos rsvd⟩ (.inl rsvd)

/-- Settles O3: decode takes the reserved bits, the opcode map's rows and the widths in order; no command's check reports
ILLEGAL_COMMAND. -/
theorem illegalWordsAreTheReservedOnes : Obligations.IllegalWordsAreTheReservedOnes := by
  intro cmd
  refine ⟨by rw [decode_illegal_iff, cmdRsvd_eq, cmdOp_eq, cmdNbits_eq], ?_⟩
  rintro s rfl
  refine ⟨fun ⟨_, word⟩ => complete_illegal word, fun t h status => ?_⟩
  cases word : decode s.req.cmd with
  | illegal why => exact ⟨why, rfl⟩
  | command i => cases exec_fails (st := .illegalCommand) nofun ((complete_command word).symm.trans h) status

/-! ### RDVAR's decoding loop (60_exceptions.md rules R143 to R145) -/

section
variable {n : Nat} {s : State} (hn : n < 5) (before : ∀ j, j < n → continues s.cfg s.b s.offset j)
include hn before

theorem exec_rdvar_of_malformed (ends : VarEnds s.cfg s.b s.offset n .malformed) :
    exec .rdvar s = .next (s.failed .malformedVarint) := by
  show execRdvar s = _
  rw [execRdvar, readVarint_eq (by omega) before ends]
  rfl

theorem exec_rdvar_of_bounds (ends : VarEnds s.cfg s.b s.offset n .bounds) :
    exec .rdvar s = .next (s.failed .boundsViolation) := by
  show execRdvar s = _
  rw [execRdvar, readVarint_eq (by omega) before ends]
  rfl

end

/-- Settles O28: the loop ends after four continuation bytes, at a fifth one or at a fifth byte certain to be rejected. -/
theorem malformedVarintsAreReported : Obligations.MalformedVarintsAreReported := by
  refine ⟨fun s inside marked => ?_, fun s inside reject marked ⟨k, lo, hi, valued, one⟩ => ?_, fun i s t h status => ?_⟩
  · have continued : ∀ j, j < 5 → continues s.cfg s.b s.offset j := fun j hj =>
      (continues_iff _ _ _ j).mpr ⟨by omega, marked j hj⟩
    exact exec_rdvar_of_malformed (by decide) (fun j hj => continued j (by omega)) (.endless (continued 4 (by decide)) rfl)
  · have continued : ∀ j, j < 4 → continues s.cfg s.b s.offset j := fun j hj =>
      (continues_iff _ _ _ j).mpr ⟨by omega, marked j hj⟩
    have rejected : rejectsFifth s.cfg s.b s.offset 4 := by
      rw [show 8 * s.offset + k = 8 * (s.offset + 4) + (k - 32) by omega] at valued one
      exact (rejectsFifth_iff _ _ _ 4).mpr ⟨rfl, reject, k - 32, by omega, by omega, valued, one⟩
    exact exec_rdvar_of_malformed (by decide) continued (.rejected (by omega) rejected)
  · cases exec_fails (st := .malformedVarint) nofun h status with
    | malformed rdvar => exact rdvar

/-- Settles O29: the loop reaches byte `n`, which `B` does not have. -/
theorem rdvarStopsAtTheEnd : Obligations.RdvarStopsAtTheEnd := by
  intro n s hn reaches past marked
  refine exec_rdvar_of_bounds hn (fun j hj => ?_) (.bounds past)
  exact (continues_iff _ _ _ j).mpr ⟨by omega, marked j hj⟩

/-! ### Failures (60_exceptions.md rules R146 and R147) -/

/-- A completing word that reports a status other than OK leaves the state of that failure. -/
theorem complete_failed {s t : State} (h : complete s = .next t) (failed : t.resp.status ≠ 0) :
    ∃ st, t = s.failed st := by
  rcases (complete_ends s).next_cases h with ⟨st, _, rfl⟩ | ⟨m, x, r, n, rfl⟩
  · exact ⟨st, rfl⟩
  · exact absurd rfl failed

/-- Settles O30: a failure is `State.failed`. -/
theorem failuresChangeNothing : Obligations.FailuresChangeNothing := by
  intro s t h failed
  obtain ⟨st, rfl⟩ := complete_failed h failed
  rfl

/-- Settles O32: a failure leaves the configuration and the memories, on which the next command's outcome depends (O33). -/
theorem failuresAreNotSticky : Obligations.FailuresAreNotSticky := by
  intro s t r h failed
  obtain ⟨st, rfl⟩ := complete_failed h failed
  obtain ⟨next, fault⟩ :=
    outcomeDependsOnRequestAndMemoriesOnly { s with req := r } { s.failed st with req := r } rfl rfl rfl rfl
  refine ⟨fun u hu => ?_, fault⟩
  obtain ⟨v, hv, resp, b, x, -⟩ := next u hu
  exact ⟨v, hv, resp, b, x⟩

/-- A completing word reports some status and records it as `recordFault` does, OK included. -/
theorem complete_records {s t : State} (h : complete s = .next t) :
    ∃ st : Status, t.resp.status = st.code ∧ t.runFault = recordFault st s.runFault := by
  rcases (complete_ends s).next_cases h with ⟨st, _, rfl⟩ | ⟨m, x, r, n, rfl⟩
  · exact ⟨st, rfl, rfl⟩
  · exact ⟨.ok, rfl, (recordFault_ok s.runFault).symm⟩

theorem recordFault_none_eq_some_iff (st f : Status) :
    recordFault st none = some f ↔ st.isProgrammingError = true ∧ st = f := by
  rw [recordFault, Option.ite_none_right_eq_some, Option.some.injEq]

/-- The class "programming error" is codes 1 to 3 (60_exceptions.md rule R140). -/
theorem Status.isProgrammingError_iff (st : Status) :
    st.isProgrammingError = true ↔ st.code = 1 ∨ st.code = 2 ∨ st.code = 3 := by
  cases st <;> decide

/-- Settles O31: an earlier record stays, and without one the reported status is recorded when it is of codes 1 to 3. -/
theorem programmingErrorsAreRecorded : Obligations.ProgrammingErrorsAreRecorded := by
  intro s t h
  obtain ⟨st, status, record⟩ := complete_records h
  rw [status, record]
  refine ⟨fun f earlier => by rw [earlier]; rfl, fun fresh => ?_⟩
  rw [fresh, ← st.isProgrammingError_iff, Option.ne_none_iff_exists']
  simp only [recordFault_none_eq_some_iff]
  exact ⟨fun f ⟨_, same⟩ => congrArg _ same, fun ⟨_, error, _⟩ => error, fun error => ⟨st, error, rfl⟩⟩

/-! ### An IDLE engine (60_exceptions.md rule R155) -/

theorem engineTurn_idle {s : State} (idle : s.phase = .idle) : engineTurn s = .next s := by
  rw [engineTurn, idle]

/-- Settles O11: the engine's turn while IDLE. -/
theorem idleEngineHoldsItsResponse : Obligations.IdleEngineHoldsItsResponse :=
  fun _ ok idle next => (step_engine ok next).trans (engineTurn_idle idle)

/-! ### Zero sizes (60_exceptions.md rule R145) -/

theorem execWrbits_zero (s : State) : execWrbits 0 s = .next (s.finished 0 0) := by
  rw [execWrbits, if_neg (Nat.not_lt_zero 8), if_pos rfl, State.respond_ok]
  rfl

theorem byteRun_zero {s : State} (zero : s.count = 0) (valued : Bool) (m x : BitMemory) :
    byteRun valued m x s = .next (s.finished 0 0) := by
  rw [byteRun, if_pos zero, State.respond_ok]
  rfl

/-- Settles O25: a zero size is found before the bounds check. -/
theorem zeroSizesCompleteOk : Obligations.ZeroSizesCompleteOk := by
  intro s
  refine ⟨execWrbits_zero s, fun c mem => ?_, fun zero => ⟨?_, ?_⟩⟩
  · rw [(wideCommands_spec mem).2.2]
    exact wideWrite_zero
  · exact (execRdbytes_eq_byteRun s).trans (byteRun_zero zero _ _ _)
  · exact (execWrbytes_eq_byteRun s).trans (byteRun_zero zero _ _ _)

end Sys2Proof.Machine
end

section
/-! PROOFS of the family 70_reset_and_hazards.md: reset (rules R160 to R162), bits without a value (rule R163), and the host's
accesses while a command runs (rule R165). -/

namespace Sys2Proof.Machine

/-! ### Reset in IDLE (70_reset_and_hazards.md rules R160 and R162) -/

theorem resetEvent_idle {s : State} (idle : s.phase = .idle) : resetEvent s = .next s.resetInterface := by
  rw [resetEvent, idle]

/-- Settles O13: reset in IDLE is `State.resetInterface`, which touches neither memory. -/
theorem resetInIdle : Obligations.ResetInIdle := by
  intro s rest ok next idle
  exact ⟨_, (step_cons ok next).trans (resetEvent_idle idle), rfl, rfl, rfl, rfl, rfl, rfl, rfl, rfl⟩

/-! ### Reset while BUSY (70_reset_and_hazards.md rule R161) -/

theorem resetEvent_busy {s : State} (busy : s.phase = .busy) :
    resetEvent s =
      if Config.freeCommitted s.draws then resetCommitted s (complete s) else .next s.resetInterface := by
  rw [resetEvent, busy]

/-- The first scheduled entry has no part in what COMPLETE comes to: the same memories, or the same fault. -/
theorem complete_taken (s : State) (rest : List Event) :
    (∀ u, complete s = .next u → ∃ u', complete { s with schedule := rest } = .next u' ∧ u'.b = u.b ∧ u'.x = u.x) ∧
      ∀ f, complete s = .fault f → complete { s with schedule := rest } = .fault f := by
  obtain ⟨next, fault⟩ :=
    outcomeDependsOnRequestAndMemoriesOnly s { s with schedule := rest } rfl rfl rfl rfl
  refine ⟨fun u hu => ?_, fault⟩
  obtain ⟨u', hu', -, b, x, -⟩ := next u hu
  exact ⟨u', hu', b, x⟩

/-- COMPLETE answers a next state or faults for want of a value: it is never refused. -/
theorem complete_next_or_fault (s : State) :
    (∃ u, complete s = .next u) ∨ complete s = .fault .readWithoutValue ∨ complete s = .fault .copyWithoutValue := by
  have ends := complete_ends s
  generalize complete s = o at ends ⊢
  cases ends with
  | failed st _ => exact .inl ⟨_, rfl⟩
  | done m x r n => exact .inl ⟨_, rfl⟩
  | fault f exists_ =>
    cases f with
    | readWithoutValue => exact .inr (.inl rfl)
    | copyWithoutValue => exact .inr (.inr rfl)
    | noSuchByte => exact absurd rfl exists_

/-- Settles O14: the draw picks `resetCommitted` of the command's outcome, or the memories as they were. -/
theorem resetWhileBusy : Obligations.ResetWhileBusy := by
  intro s rest ok next busy
  obtain ⟨taken, takenFault⟩ := complete_taken s rest
  have now : step s = _ := (step_cons ok next).trans (resetEvent_busy (s := { s with schedule := rest }) busy)
  rw [now]
  refine ⟨fun u hu => ?_, fun hf => ?_, fun hf => ?_, complete_next_or_fault s⟩
  · obtain ⟨u', hu', b, x⟩ := taken u hu
    rw [hu', ← b, ← x]
    cases Config.freeCommitted s.draws <;> exact ⟨_, rfl, rfl⟩
  · rw [takenFault _ hf]
    cases Config.freeCommitted s.draws <;> exact ⟨_, rfl, rfl⟩
  · rw [takenFault _ hf]
    cases Config.freeCommitted s.draws with
    | false => exact ⟨_, rfl, rfl⟩
    | true => rfl

/-! ### The configuration (70_reset_and_hazards.md rule R162) -/

/-- COMPLETE does not write the configuration. -/
theorem complete_cfg {s t : State} (h : complete s = .next t) : t.cfg = s.cfg := by
  rcases (complete_ends s).next_cases h with ⟨st, _, rfl⟩ | ⟨m, x, r, n, rfl⟩ <;> rfl

/-- Settles O40: none of the updates of `step_moved` writes the configuration. -/
theorem configurationNeverChanges : Obligations.ConfigurationNeverChanges := by
  intro s t h
  obtain ⟨-, moved⟩ := step_moved h
  cases moved with
  | rests _ _ same => exact same ▸ rfl
  | completes _ _ done =>
    have kept := complete_cfg done
    exact kept
  | reads _ _ _ _ same => exact same ▸ rfl
  | presents _ _ _ now => exact now ▸ rfl
  | starts _ _ _ now => exact now ▸ rfl
  | writesB _ _ _ _ _ now => exact now ▸ rfl
  | writesX _ _ _ _ _ now => exact now ▸ rfl
  | resets _ _ now => exact now ▸ rfl
  | resetsCommitted _ _ _ _ _ now => exact now ▸ rfl

/-! ### Host accesses while a command runs (70_reset_and_hazards.md rule R165) -/

theorem accessEvent_inside {len a : Nat} (inside : a < len) (races : Bool) (t : State) :
    accessEvent len a races t = if races then .refused .race else .next t :=
  if_neg (Nat.not_le.mpr inside)

theorem racesWriteB_iff (s : State) (a : Nat) :
    racesWriteB s a = true ↔
      s.phase = .busy ∧ ((latchedTouch s).readB.has a = true ∨ (latchedTouch s).writeB.has a = true) := by
  rw [racesWriteB, Bool.and_eq_true, decide_eq_true_iff, Bool.or_eq_true]

theorem racesWriteX_iff (s : State) (a : Nat) :
    racesWriteX s a = true ↔
      s.phase = .busy ∧ ((latchedTouch s).readX.has a = true ∨ (latchedTouch s).writeX.has a = true) := by
  rw [racesWriteX, Bool.and_eq_true, decide_eq_true_iff, Bool.or_eq_true]

theorem racesReadB_iff (s : State) (a : Nat) :
    racesReadB s a = true ↔ s.phase = .busy ∧ (latchedTouch s).writeB.has a = true := by
  rw [racesReadB, Bool.and_eq_true, decide_eq_true_iff]

theorem racesReadX_iff (s : State) (a : Nat) :
    racesReadX s a = true ↔ s.phase = .busy ∧ (latchedTouch s).writeX.has a = true := by
  rw [racesReadX, Bool.and_eq_true, decide_eq_true_iff]

/-- Settles O12: inside its memory an access is refused exactly when it races. -/
theorem racingAccessesAreRefused : Obligations.RacingAccessesAreRefused := by
  intro s rest a v ok
  refine ⟨fun next inside => ?_, fun next inside => ?_, fun next inside => ?_, fun next inside => ?_⟩ <;>
    refine (step_cons ok next).trans ((accessEvent_inside inside _ _).trans ?_)
  · exact if_congr (racesWriteB_iff s a) rfl rfl
  · exact if_congr (racesWriteX_iff s a) rfl rfl
  · exact if_congr (racesReadB_iff s a) rfl rfl
  · exact if_congr (racesReadX_iff s a) rfl rfl

/-! ### Memories that differ in bits without a value only (70_reset_and_hazards.md rule R163) -/

section
variable {m n : BitMemory} (same : m.SameWhereValued n)
include same

theorem BitMemory.SameWhereValued.hasValue_eq (i : Nat) : n.hasValue i = m.hasValue i := (same i).1.symm

theorem BitMemory.SameWhereValued.bit_eq {i : Nat} (valued : m.hasValue i = true) : n.bit i = m.bit i :=
  ((same i).2 valued).symm

/-- A bit is known to be `v` in both memories or in neither. -/
theorem BitMemory.SameWhereValued.known_bit_iff (i : Nat) (v : Bool) :
    n.hasValue i = true ∧ n.bit i = v ↔ m.hasValue i = true ∧ m.bit i = v := by
  rw [same.hasValue_eq]
  exact and_congr_right fun valued => by rw [same.bit_eq valued]

theorem BitMemory.SameWhereValued.allValued_eq (off w : Nat) : n.allValued off w = m.allValued off w := by
  rw [Bool.eq_iff_iff, BitMemory.allValued_iff, BitMemory.allValued_iff]
  simp only [same.hasValue_eq]

theorem BitMemory.SameWhereValued.getBits_eq {off w : Nat} (valued : ∀ k, k < w → m.hasValue (off + k) = true) :
    n.getBits off w = m.getBits off w :=
  BitMemory.getBits_congr n m off off w fun k hk => same.bit_eq (valued k hk)

theorem BitMemory.SameWhereValued.setBits (off w v : Nat) :
    (m.setBits off w v).SameWhereValued (n.setBits off w v) := by
  intro i
  simp only [BitMemory.hasValue_setBits, BitMemory.bit_setBits]
  split_ifs
  · exact ⟨rfl, fun _ => rfl⟩
  · exact same i

/-- Bytes that are made equal, or left as they were, keep two memories alike. -/
theorem BitMemory.SameWhereValued.of_bytes {m' n' : BitMemory}
    (bytes : ∀ a, n'.byte a = m'.byte a ∨ (m'.byte a = m.byte a ∧ n'.byte a = n.byte a)) :
    m'.SameWhereValued n' := by
  intro i
  rcases bytes (i / 8) with equal | ⟨left, right⟩
  · exact ⟨(BitMemory.hasValue_eq_of_byte equal).symm, fun _ => (BitMemory.bit_eq_of_byte equal).symm⟩
  · rw [BitMemory.hasValue_eq_of_byte left, BitMemory.hasValue_eq_of_byte right, BitMemory.bit_eq_of_byte left,
      BitMemory.bit_eq_of_byte right]
    exact same i

theorem BitMemory.SameWhereValued.writeBytes (o : Nat) (l : List Byte) :
    (writeBytes m o l).SameWhereValued (writeBytes n o l) := by
  refine same.of_bytes fun a => ?_
  rw [byte_writeBytes, byte_writeBytes]
  split_ifs
  · exact .inl rfl
  · exact .inr ⟨rfl, rfl⟩

/-- A run out of two such buffers, every bit of it with a value. -/
theorem BitMemory.SameWhereValued.copyOut {o k : Nat} (valued : m.allValued o (8 * k) = true) (x : Nat)
    {dst dst' : BitMemory} (dest : dst.SameWhereValued dst') :
    (copyOut m o x k dst).SameWhereValued (copyOut n o x k dst') := by
  refine dest.of_bytes fun a => ?_
  rw [byte_copyOut, byte_copyOut]
  split_ifs with inside
  · refine .inl (congrArg (fun v => (BitVec.ofNat 8 v, 0xFF)) (same.getBits_eq fun j hj => ?_))
    rw [Nat.add_assoc]
    exact (m.allValued_iff o _).mp valued _ (by omega)
  · exact .inr ⟨rfl, rfl⟩

/-- A run out of two such partner memories, every bit of it with a value. -/
theorem BitMemory.SameWhereValued.copyIn {x k : Nat} (valued : m.allValued (8 * x) (8 * k) = true) (o : Nat)
    {dst dst' : BitMemory} (dest : dst.SameWhereValued dst') :
    (copyIn m o x k dst).SameWhereValued (copyIn n o x k dst') := by
  intro i
  simp only [hasValue_copyIn, bit_copyIn]
  split_ifs with inside
  · exact ⟨rfl, fun _ => (same.bit_eq ((m.allValued_iff _ _).mp valued _ (by omega))).symm⟩
  · exact dest i

/-! ### RDVAR's decoding loop over such memories -/

theorem BitMemory.SameWhereValued.known_read (a : Nat) : n.known.read a = m.known.read a :=
  BitVec.eq_of_getLsbD_eq fun k hk => by rw [known_bit n a k hk, known_bit m a k hk, same.hasValue_eq]

theorem continues_of_sameWhereValued {c : Config} {o i : Nat} (h : continues c m o i) : continues c n o i := by
  rw [continues_iff] at h ⊢
  exact ⟨h.1, (same.known_bit_iff _ true).mpr h.2⟩

theorem rejectsFifth_iff_of_sameWhereValued (c : Config) (o i : Nat) : rejectsFifth c n o i ↔ rejectsFifth c m o i := by
  simp only [rejectsFifth_iff, same.known_bit_iff]

theorem fifthUnvalued_iff_of_sameWhereValued (c : Config) (o i : Nat) : fifthUnvalued c n o i ↔ fifthUnvalued c m o i := by
  simp only [fifthUnvalued_iff, same.hasValue_eq]

theorem varValued_eq_of_sameWhereValued (o i : Nat) : varValued n o i = varValued m o i := by
  induction i with
  | zero => rfl
  | succ i ih => rw [varValued, varValued, ih, same.known_read]

/-- The continuation bit of a byte, where it has a value. -/
theorem value_top_of_sameWhereValued {a : Nat} {v : Bool} (known : byteBit (m.known.read a) 7 = true)
    (top : byteBit (m.value.read a) 7 = v) : byteBit (n.value.read a) 7 = v := by
  rw [byteBit, value_bit _ _ _ (by decide)] at top ⊢
  rw [byteBit, known_bit _ _ _ (by decide)] at known
  rw [same.bit_eq known, top]

/-- The value so far, where every payload bit that reached it has one. -/
theorem varPayload_eq_of_sameWhereValued {o i : Nat} (hi : i ≤ 5) (valued : varValued m o i = true) :
    varPayload n o i = varPayload m o i := by
  refine Nat.eq_of_testBit_eq fun k => ?_
  rw [testBit_varPayload, testBit_varPayload]
  by_cases reaches : k < 32 ∧ k < 7 * i
  · rw [same.bit_eq ((varValued_iff m o i hi).mp valued k reaches.1 reaches.2)]
  · rw [← Bool.decide_and, decide_eq_false reaches, Bool.false_and, Bool.false_and]

/-- Decoding ends in the same way: each of its checks looks at bits with a value only. -/
theorem varEnds_of_sameWhereValued {c : Config} {o k : Nat} {r : VarResult} (hk : k ≤ 4) (ends : VarEnds c m o k r) :
    VarEnds c n o k r := by
  have rejects := rejectsFifth_iff_of_sameWhereValued same c o k
  have unvalued := fifthUnvalued_iff_of_sameWhereValued same c o k
  have known := same.known_read (o + k)
  have payload := varValued_eq_of_sameWhereValued same o (k + 1)
  cases ends with
  | bounds past => exact .bounds past
  | rejected inside h => exact .rejected inside (rejects.mpr h)
  | endless h last => exact .endless (continues_of_sameWhereValued same h) last
  | unknownEnd inside h unknown => exact .unknownEnd inside (rejects.not.mpr h) (known ▸ unknown)
  | unknownReject inside h valued top unknown =>
    exact .unknownReject inside (rejects.not.mpr h) (known ▸ valued) (value_top_of_sameWhereValued same valued top)
      (unvalued.mpr unknown)
  | unknownPayload inside h valued top fifth unknown =>
    exact .unknownPayload inside (rejects.not.mpr h) (known ▸ valued) (value_top_of_sameWhereValued same valued top)
      (unvalued.not.mpr fifth) (payload.trans unknown)
  | done inside h valued top fifth all =>
    rw [← varPayload_eq_of_sameWhereValued same (by omega) all]
    exact .done inside (rejects.not.mpr h) (known ▸ valued) (value_top_of_sameWhereValued same valued top)
      (unvalued.not.mpr fifth) (payload.trans all)

theorem readVarint_eq_of_sameWhereValued (c : Config) (o : Nat) :
    readVarint c n o 5 0 0 true = readVarint c m o 5 0 0 true := by
  obtain ⟨k, hk, before, ends⟩ := readVarint_ends c m o
  exact readVarint_eq hk (fun j hj => continues_of_sameWhereValued same (before j hj))
    (varEnds_of_sameWhereValued same hk ends)

end

/-! ### No outcome depends on what a bit without a value holds -/

/-- Two outcomes of one command that differ in bits without a value only. -/
inductive AgreeWhereValued : Host.Outcome State Fault Refusal → Host.Outcome State Fault Refusal → Prop
  | next {t t' : State} (resp : t'.resp = t.resp) (b : t.b.SameWhereValued t'.b) (x : t.x.SameWhereValued t'.x) :
      AgreeWhereValued (.next t) (.next t')
  | fault (f : Fault) : AgreeWhereValued (.fault f) (.fault f)

section
variable {s s' : State} (cfg : s'.cfg = s.cfg) (req : s'.req = s.req) (b : s.b.SameWhereValued s'.b)
  (x : s.x.SameWhereValued s'.x)
include cfg req b x

theorem fieldRead_agreeWhereValued (limit w : Nat) (result : Nat → Nat) :
    AgreeWhereValued (fieldRead limit w result s) (fieldRead limit w result s') := by
  unfold fieldRead
  rw [fieldPastEnd_of_req cfg req, offset_of_req req, b.allValued_eq]
  split_ifs with _ _ valued
  · exact .next rfl b x
  · exact .next rfl b x
  · rw [b.getBits_eq ((s.b.allValued_iff _ _).mp valued)]
    exact .next rfl b x
  · exact .fault _

theorem fieldWrite_agreeWhereValued (limit w v next : Nat) :
    AgreeWhereValued (fieldWrite limit w v next s) (fieldWrite limit w v next s') := by
  unfold fieldWrite
  rw [fieldPastEnd_of_req cfg req, offset_of_req req]
  split_ifs
  · exact .next rfl b x
  · exact .next rfl b x
  · exact .next rfl b x
  · exact .next rfl (b.setBits _ _ _) x

theorem byteRun_agreeWhereValued {valued : Bool} {m m' n n' : BitMemory} (sameB : valued = true → m.SameWhereValued m')
    (sameX : valued = true → n.SameWhereValued n') :
    AgreeWhereValued (byteRun valued m n s) (byteRun valued m' n' s') := by
  unfold byteRun
  rw [count_of_req req, runPastEnd_of_req cfg req]
  split_ifs with _ _ all
  · exact .next rfl b x
  · exact .next rfl b x
  · exact .next rfl (sameB all) (sameX all)
  · exact .fault _

theorem wideRead_agreeWhereValued (bits w : Nat) : AgreeWhereValued (wideRead bits w s) (wideRead bits w s') := by
  rw [wideRead_eq_fieldRead, wideRead_eq_fieldRead, cfg]
  exact fieldRead_agreeWhereValued cfg req b x _ _ _

theorem wideWrite_agreeWhereValued (bits w : Nat) : AgreeWhereValued (wideWrite bits w s) (wideWrite bits w s') := by
  rw [wideWrite_eq_fieldWrite, wideWrite_eq_fieldWrite, cfg, data_of_req req, offset_of_req req]
  exact fieldWrite_agreeWhereValued cfg req b x _ _ _ _

theorem execWrbits_agreeWhereValued (w : Nat) : AgreeWhereValued (execWrbits w s) (execWrbits w s') := by
  rw [execWrbits_eq_fieldWrite, execWrbits_eq_fieldWrite, data_of_req req]
  exact fieldWrite_agreeWhereValued cfg req b x _ _ _ _

theorem execRdbytes_agreeWhereValued : AgreeWhereValued (execRdbytes s) (execRdbytes s') := by
  rw [execRdbytes_eq_byteRun, execRdbytes_eq_byteRun, offset_of_req req, count_of_req req, xoff_of_req req,
    b.allValued_eq]
  exact byteRun_agreeWhereValued cfg req b x (fun _ => b) fun valued => b.copyOut valued _ x

theorem execWrbytes_agreeWhereValued : AgreeWhereValued (execWrbytes s) (execWrbytes s') := by
  rw [execWrbytes_eq_byteRun, execWrbytes_eq_byteRun, offset_of_req req, count_of_req req, xoff_of_req req,
    x.allValued_eq]
  exact byteRun_agreeWhereValued cfg req b x (fun valued => x.copyIn valued _ b) fun _ => x

theorem execWrvar_agreeWhereValued : AgreeWhereValued (execWrvar s) (execWrvar s') := by
  unfold execWrvar
  rw [cfg, data_of_req req, offset_of_req req]
  split_ifs
  · exact .next rfl b x
  · exact .next rfl (b.writeBytes _ _) x

theorem execRdvar_agreeWhereValued : AgreeWhereValued (execRdvar s) (execRdvar s') := by
  unfold execRdvar
  rw [cfg, offset_of_req req, readVarint_eq_of_sameWhereValued b]
  cases readVarint s.cfg s.b s.offset 5 0 0 true with
  | done v n => exact .next rfl b x
  | malformed => exact .next rfl b x
  | bounds => exact .next rfl b x
  | noValue => exact .fault _

/-- No command tells such memories apart. -/
theorem exec_agreeWhereValued (i : Instr) : AgreeWhereValued (exec i s) (exec i s') := by
  cases i with
  | rdbits w => exact fieldRead_agreeWhereValued cfg req b x 8 w id
  | wrbits w => exact execWrbits_agreeWhereValued cfg req b x w
  | rdbytes => exact execRdbytes_agreeWhereValued cfg req b x
  | wrbytes => exact execWrbytes_agreeWhereValued cfg req b x
  | rdu16 w => exact wideRead_agreeWhereValued cfg req b x 16 w
  | rdu32 w => exact wideRead_agreeWhereValued cfg req b x 32 w
  | rdu64 w => exact wideRead_agreeWhereValued cfg req b x 64 w
  | wru16 w => exact wideWrite_agreeWhereValued cfg req b x 16 w
  | wru32 w => exact wideWrite_agreeWhereValued cfg req b x 32 w
  | wru64 w => exact wideWrite_agreeWhereValued cfg req b x 64 w
  | wrvar => exact execWrvar_agreeWhereValued cfg req b x
  | rdvar => exact execRdvar_agreeWhereValued cfg req b x

end

/-- Settles O37: `exec_agreeWhereValued`, read off for a next state and for a fault. -/
theorem bitsWithoutValueNeverMatter : Obligations.BitsWithoutValueNeverMatter := by
  intro i s s' cfg req b x
  have alike := exec_agreeWhereValued cfg req b x i
  generalize exec i s = o at alike ⊢
  generalize exec i s' = o' at alike ⊢
  cases alike with
  | next resp b x =>
    refine ⟨fun t h => ?_, nofun⟩
    cases h
    exact ⟨_, rfl, resp, b, x⟩
  | fault f => exact ⟨nofun, fun _ h => h⟩

/-! ### The faults of rule R163 are raised only where something depends on a missing value -/

/-- The memory with bit `v` in each of the first `len` bits that has no value. -/
def BitMemory.fill (v : Bool) (m : BitMemory) : (len : Nat) → BitMemory
  | 0 => m
  | k + 1 => (m.fill v k).setBit k (if m.hasValue k then m.bit k else v)

theorem BitMemory.hasValue_fill (v : Bool) (m : BitMemory) (len i : Nat) :
    (m.fill v len).hasValue i = (decide (i < len) || m.hasValue i) := by
  induction len with
  | zero => rfl
  | succ k ih =>
    rw [BitMemory.fill, BitMemory.hasValue_setBit, ih]
    by_cases last : i = k
    · simp [last]
    · simp [last, show i < k + 1 ↔ i < k by omega]

theorem BitMemory.bit_fill (v : Bool) (m : BitMemory) (len i : Nat) :
    (m.fill v len).bit i = if i < len ∧ m.hasValue i = false then v else m.bit i := by
  induction len with
  | zero => rw [if_neg (by omega)]; rfl
  | succ k ih =>
    rw [BitMemory.fill, BitMemory.bit_setBit, ih]
    by_cases last : i = k
    · subst last
      cases valued : m.hasValue i <;> simp
    · simp [last, show i < k + 1 ↔ i < k by omega]

section
variable {m : BitMemory} {i len : Nat} (v : Bool)

theorem BitMemory.hasValue_fill_of_lt (inside : i < len) : (m.fill v len).hasValue i = true := by
  rw [BitMemory.hasValue_fill, decide_eq_true inside, Bool.true_or]

theorem BitMemory.bit_fill_of_valued (valued : m.hasValue i = true) : (m.fill v len).bit i = m.bit i := by
  rw [BitMemory.bit_fill, if_neg (by simp [valued])]

theorem BitMemory.bit_fill_of_missing (inside : i < len) (missing : m.hasValue i = false) :
    (m.fill v len).bit i = v := by
  rw [BitMemory.bit_fill, if_pos ⟨inside, missing⟩]

end

theorem BitMemory.filledBy_fill (v : Bool) (m : BitMemory) (len : Nat) : m.FilledBy len (m.fill v (8 * len)) :=
  ⟨fun _ => BitMemory.hasValue_fill_of_lt v, fun _ => BitMemory.bit_fill_of_valued v⟩

theorem BitMemory.not_lacksValue_fill (v : Bool) (m : BitMemory) (len : Nat) :
    ¬ (m.fill v (8 * len)).LacksValue len := by
  rintro ⟨j, inside, missing⟩
  cases missing.symm.trans (BitMemory.hasValue_fill_of_lt v inside)

theorem BitMemory.allValued_fill (v : Bool) (m : BitMemory) {off w len : Nat} (inside : off + w ≤ 8 * len) :
    (m.fill v (8 * len)).allValued off w = true :=
  (BitMemory.allValued_iff _ _ _).mpr fun _ _ => BitMemory.hasValue_fill_of_lt v (by omega)

/-- Two ways of giving every bit of `B` a value lead `run` to different responses. -/
def ResponseDepends (run : State → Host.Outcome State Fault Refusal) (s : State) : Prop :=
  ∃ (m n : BitMemory) (t u : State), s.b.FilledBy s.cfg.bufLen m ∧ s.b.FilledBy s.cfg.bufLen n ∧
    run { s with b := m } = .next t ∧ run { s with b := n } = .next u ∧ t.resp ≠ u.resp

/-! ### The fixed-width reads -/

/-- A field that misses a value is another number with the missing bits set than with them clear. -/
theorem BitMemory.getBits_fill_ne {m : BitMemory} {off w len : Nat} (inside : off + w ≤ 8 * len)
    (missing : m.allValued off w = false) :
    (m.fill false (8 * len)).getBits off w ≠ (m.fill true (8 * len)).getBits off w := by
  obtain ⟨k, hk, unvalued⟩ := (m.allValued_eq_false_iff off w).mp missing
  intro equal
  have bits := congrArg (fun v => v.testBit k) equal
  simp only [BitMemory.testBit_getBits, decide_eq_true hk, Bool.true_and] at bits
  rw [BitMemory.bit_fill_of_missing _ (by omega) unvalued, BitMemory.bit_fill_of_missing _ (by omega) unvalued] at bits
  cases bits

/-- A fixed-width read faults only past its checks, over a missing value. -/
theorem fieldRead_fault {limit w : Nat} {result : Nat → Nat} {s : State} {f : Fault}
    (h : fieldRead limit w result s = .fault f) :
    f = .readWithoutValue ∧ (1 ≤ w ∧ w ≤ limit) ∧ s.offset + w ≤ 8 * s.cfg.bufLen ∧
      s.b.allValued s.offset w = false := by
  unfold fieldRead at h
  split_ifs at h with width past valued <;> cases h
  rw [State.fieldPastEnd_iff] at past
  exact ⟨rfl, by omega, by omega, (Bool.not_eq_true _).mp valued⟩

theorem fieldRead_completes_of_valued {limit w : Nat} {s : State} (result : Nat → Nat) (width : 1 ≤ w ∧ w ≤ limit)
    (inside : s.offset + w ≤ 8 * s.cfg.bufLen) (valued : s.b.allValued s.offset w = true) :
    fieldRead limit w result s = .next (s.respond .ok (result (s.b.getBits s.offset w)) 0) := by
  have legal : ¬ (w < 1 ∨ limit < w) := by omega
  have fits : ¬ s.fieldPastEnd w = true := by
    rw [State.fieldPastEnd_iff]
    omega
  rw [fieldRead, if_neg legal, if_neg fits, if_pos valued]

/-- A fixed-width read whose RESULT tells the numbers of its field apart faults only where its response depends on a missing
value. -/
theorem responseDepends_of_fieldRead {run : State → Host.Outcome State Fault Refusal} {limit w : Nat} {result : Nat → Nat}
    {s : State} (isRead : ∀ m, run (s.withB m) = fieldRead limit w result (s.withB m))
    (distinct : Set.InjOn (fun v => BitVec.ofNat 64 (result v)) (Set.Iio (2 ^ limit))) {f : Fault}
    (h : run s = .fault f) : f = .readWithoutValue ∧ ResponseDepends run s := by
  obtain ⟨rfl, width, inside, missing⟩ := fieldRead_fault ((isRead s.b).symm.trans h)
  have completes (v : Bool) := (isRead _).trans (fieldRead_completes_of_valued (s := s.withB (s.b.fill v (8 * s.cfg.bufLen)))
    result width inside (s.b.allValued_fill v inside))
  have small (v : Bool) : (s.b.fill v (8 * s.cfg.bufLen)).getBits s.offset w ∈ Set.Iio (2 ^ limit) :=
    (BitMemory.getBits_lt _ _ _).trans_le (Nat.pow_le_pow_right (by decide) width.2)
  refine ⟨rfl, _, _, _, _, s.b.filledBy_fill false _, s.b.filledBy_fill true _, completes false, completes true,
    fun equal => ?_⟩
  exact BitMemory.getBits_fill_ne inside missing (distinct (small false) (small true) (congrArg Response.result equal))

theorem ofNat_injOn {n w : Nat} (fits : w ≤ n) : Set.InjOn (BitVec.ofNat n) (Set.Iio (2 ^ w)) := by
  intro u hu v hv equal
  have le : 2 ^ w ≤ 2 ^ n := Nat.pow_le_pow_right (by decide) fits
  have numbers := congrArg BitVec.toNat equal
  rwa [BitVec.toNat_ofNat, BitVec.toNat_ofNat, Nat.mod_eq_of_lt (hu.trans_le le), Nat.mod_eq_of_lt (hv.trans_le le)]
    at numbers

/-- Reordering the bytes of a number of the type width is undone by doing it again. -/
theorem reorder_injOn {bits : Nat} (type : isTypeWidth bits) (e : Endian) :
    Set.InjOn (reorder e bits) (Set.Iio (2 ^ bits)) := by
  intro u hu v hv equal
  have back := reorder_mod_reorder (e := e) type (.inr rfl)
  have twice := congrArg (fun z => reorder e bits (z % 2 ^ bits)) equal
  simp only [back] at twice
  rwa [Nat.mod_eq_of_lt hu, Nat.mod_eq_of_lt hv] at twice

theorem wideRead_responseDepends {bits w : Nat} {s : State} {f : Fault} (type : isTypeWidth bits)
    (h : wideRead bits w s = .fault f) : f = .readWithoutValue ∧ ResponseDepends (wideRead bits w) s :=
  responseDepends_of_fieldRead (fun m => wideRead_eq_fieldRead bits w (s.withB m))
    ((ofNat_injOn type.le).comp (reorder_injOn type s.cfg.endian) fun v hv => reorder_lt type s.cfg.endian v hv) h

theorem execRdbits_responseDepends {w : Nat} {s : State} {f : Fault} (h : execRdbits w s = .fault f) :
    f = .readWithoutValue ∧ ResponseDepends (execRdbits w) s :=
  responseDepends_of_fieldRead (fun m => execRdbits_eq_fieldRead w (s.withB m)) (ofNat_injOn (by decide)) h

/-! ### RDVAR -/

section
variable {c : Config} {m : BitMemory} {o n : Nat}

/-- Continuation bytes have their bit 7, so any filling keeps them. -/
theorem continues_fill {j : Nat} (v : Bool) (len : Nat) (h : continues c m o j) : continues c (m.fill v len) o j := by
  rw [continues_iff] at h ⊢
  obtain ⟨inside, known, top⟩ := h
  exact ⟨inside, by rw [BitMemory.hasValue_fill, known, Bool.or_true], by rw [BitMemory.bit_fill_of_valued v known, top]⟩

/-- A filling with clear bits rejects no fifth byte that was not certain to be rejected. -/
theorem not_rejectsFifth_fill (len : Nat) (accepted : ¬ rejectsFifth c m o n) :
    ¬ rejectsFifth c (m.fill false len) o n := by
  rw [rejectsFifth_iff] at accepted ⊢
  rintro ⟨fifth, reject, k, lo, hi, valued, one⟩
  cases before : m.hasValue (8 * (o + n) + k) with
  | true => exact accepted ⟨fifth, reject, k, lo, hi, before, (BitMemory.bit_fill_of_valued false before).symm.trans one⟩
  | false =>
    rw [BitMemory.hasValue_fill, before, Bool.or_false, decide_eq_true_iff] at valued
    cases one.symm.trans (BitMemory.bit_fill_of_missing false valued before)

/-- With clear bits for the missing ones, a stream whose last byte may end it and is not certain to be rejected is decoded. -/
theorem readVarint_fill_clear (hn : n ≤ 4) (inside : o + n < c.bufLen) (before : ∀ j, j < n → continues c m o j)
    (accepted : ¬ rejectsFifth c m o n) (ended : m.hasValue (8 * (o + n) + 7) = true → m.bit (8 * (o + n) + 7) = false) :
    readVarint c (m.fill false (8 * c.bufLen)) o 5 0 0 true =
      .done (varPayload (m.fill false (8 * c.bufLen)) o (n + 1)) (n + 1) := by
  have clear : (m.fill false (8 * c.bufLen)).bit (8 * (o + n) + 7) = false := by
    cases valued : m.hasValue (8 * (o + n) + 7) with
    | true => exact (BitMemory.bit_fill_of_valued false valued).trans (ended valued)
    | false => exact BitMemory.bit_fill_of_missing false (by omega) valued
  refine readVarint_eq hn (fun j hj => continues_fill false _ (before j hj)) (varEnds_done (by omega) inside clear ?_ ?_)
  · exact fun k hk _ => BitMemory.hasValue_fill_of_lt false (by omega)
  · exact not_rejectsFifth_fill _ accepted

/-- A decoded stream has at most five bytes, ends with a clear bit 7, is not rejected, and its value is that of its payload. -/
theorem readVarint_done {v k : Nat} (h : readVarint c m o 5 0 0 true = .done v k) :
    ∃ n, n ≤ 4 ∧ k = n + 1 ∧ v = varPayload m o (n + 1) ∧ m.bit (8 * (o + n) + 7) = false ∧ ¬ rejectsFifth c m o n := by
  obtain ⟨n, hn, -, ends⟩ := readVarint_ends c m o
  rw [h] at ends
  cases ends with
  | done _ accepted _ clear => exact ⟨n, hn, rfl, rfl, (value_bit m _ 7 (by decide)).symm.trans clear, accepted⟩

/-- A payload that misses a value is another number with the missing bits set than with them clear. -/
theorem varPayload_fill_ne (hn : n ≤ 4) (inside : o + n < c.bufLen) (missing : varValued m o (n + 1) = false) :
    varPayload (m.fill false (8 * c.bufLen)) o (n + 1) ≠ varPayload (m.fill true (8 * c.bufLen)) o (n + 1) := by
  intro equal
  have valued := (varValued_iff m o (n + 1) (by omega)).mpr fun k value here => by
    have bits := congrArg (fun v => v.testBit k) equal
    simp only [testBit_varPayload, decide_eq_true value, decide_eq_true here, Bool.true_and] at bits
    by_contra unvalued
    rw [Bool.not_eq_true] at unvalued
    rw [BitMemory.bit_fill_of_missing _ (by omega) unvalued, BitMemory.bit_fill_of_missing _ (by omega) unvalued] at bits
    cases bits
  cases missing.symm.trans valued

/-- A decoding loop that misses a value ends otherwise with the missing bits set than with them clear: clear bits end the stream
at the byte where it missed the value, and set bits continue it, reject it or change the value. -/
theorem readVarint_fill_ne (missing : readVarint c m o 5 0 0 true = .noValue) :
    readVarint c (m.fill false (8 * c.bufLen)) o 5 0 0 true ≠ readVarint c (m.fill true (8 * c.bufLen)) o 5 0 0 true := by
  obtain ⟨n, hn, before, ends⟩ := readVarint_ends c m o
  rw [missing] at ends
  intro equal
  have decoded (inside : o + n < c.bufLen) (accepted : ¬ rejectsFifth c m o n)
      (ended : m.hasValue (8 * (o + n) + 7) = true → m.bit (8 * (o + n) + 7) = false) :
      varPayload (m.fill false (8 * c.bufLen)) o (n + 1) = varPayload (m.fill true (8 * c.bufLen)) o (n + 1) ∧
        (m.fill true (8 * c.bufLen)).bit (8 * (o + n) + 7) = false ∧ ¬ rejectsFifth c (m.fill true (8 * c.bufLen)) o n := by
    obtain ⟨k, -, last, value, clear, accepted⟩ :=
      readVarint_done (equal.symm.trans (readVarint_fill_clear hn inside before accepted ended))
    obtain rfl : n = k := Nat.succ.inj last
    exact ⟨value, clear, accepted⟩
  cases ends with
  | unknownEnd inside accepted unknown =>
    have unvalued : m.hasValue (8 * (o + n) + 7) = false := (known_bit m _ 7 (by decide)).symm.trans unknown
    obtain ⟨-, clear, -⟩ := decoded inside accepted fun valued => by cases unvalued.symm.trans valued
    cases clear.symm.trans (BitMemory.bit_fill_of_missing true (by omega) unvalued)
  | unknownReject inside accepted _ clear unknown =>
    obtain ⟨-, -, stillAccepted⟩ := decoded inside accepted fun _ => (value_bit m _ 7 (by decide)).symm.trans clear
    obtain ⟨fifth, reject, k, lo, hi, unvalued⟩ := (fifthUnvalued_iff c m o n).mp unknown
    exact stillAccepted ((rejectsFifth_iff c _ o n).mpr ⟨fifth, reject, k, lo, hi,
      BitMemory.hasValue_fill_of_lt true (by omega), BitMemory.bit_fill_of_missing true (by omega) unvalued⟩)
  | unknownPayload inside accepted _ clear _ unknown =>
    obtain ⟨value, -, -⟩ := decoded inside accepted fun _ => (value_bit m _ 7 (by decide)).symm.trans clear
    exact varPayload_fill_ne hn inside unknown value

end

/-- The response RDVAR at byte offset `o` gives for what decoding comes to; none, so not a valid one, where a value is missing. -/
def VarResult.response (o : Nat) : VarResult → Response
  | .done v consumed =>
    { valid := true, status := 0, result := BitVec.ofNat 64 v, next := BitVec.ofNat 32 (o + consumed) }
  | .malformed => { valid := true, status := 4, result := 0, next := 0 }
  | .bounds => { valid := true, status := 3, result := 0, next := 0 }
  | .noValue => Response.reset

/-- RDVAR completes with that response unless a value is missing. -/
theorem execRdvar_completes {s : State} (valued : readVarint s.cfg s.b s.offset 5 0 0 true ≠ .noValue) :
    ∃ t, execRdvar s = .next t ∧ t.resp = (readVarint s.cfg s.b s.offset 5 0 0 true).response s.offset := by
  rcases execRdvar_cases s with ⟨v, n, ends, e⟩ | ⟨ends, e⟩ | ⟨ends, e⟩ | ⟨ends, _⟩
  · exact ⟨_, e, by rw [ends]; rfl⟩
  · exact ⟨_, e, by rw [ends]; rfl⟩
  · exact ⟨_, e, by rw [ends]; rfl⟩
  · exact absurd ends valued

/-- A decoded value is a 32-bit number in at most five bytes. -/
def VarResult.Small : VarResult → Prop
  | .done v consumed => v < 2 ^ 32 ∧ consumed ≤ 5
  | _ => True

theorem readVarint_small (c : Config) (m : BitMemory) (o : Nat) : (readVarint c m o 5 0 0 true).Small := by
  cases h : readVarint c m o 5 0 0 true with
  | done v k =>
    obtain ⟨n, hn, rfl, rfl, -⟩ := readVarint_done h
    exact ⟨varPayload_lt _ _ _, by omega⟩
  | malformed => trivial
  | bounds => trivial
  | noValue => trivial

/-- The response says what decoding came to: the status how it ended, RESULT the value, NEXT the bytes it took. -/
theorem VarResult.response_inj {o : Nat} {r q : VarResult} (hr : r.Small) (hq : q.Small)
    (equal : r.response o = q.response o) : r = q := by
  have status := congrArg Response.status equal
  have valid := congrArg Response.valid equal
  cases r with
  | done v k =>
    cases q with
    | done v' k' =>
      have value := congrArg Response.result equal
      have next := congrArg (fun p => p.next.toNat) equal
      simp only [VarResult.response, BitVec.toNat_ofNat] at value next
      obtain ⟨hv, hk⟩ := hr
      obtain ⟨hv', hk'⟩ := hq
      rw [ofNat_injOn (w := 32) (by decide) hv hv' value, show k = k' by omega]
    | malformed => cases status
    | bounds => cases status
    | noValue => cases valid
  | malformed =>
    cases q with
    | done => cases status
    | malformed => rfl
    | bounds => cases status
    | noValue => cases valid
  | bounds =>
    cases q with
    | done => cases status
    | malformed => cases status
    | bounds => rfl
    | noValue => cases valid
  | noValue =>
    cases q with
    | done => cases valid
    | malformed => cases valid
    | bounds => cases valid
    | noValue => rfl

theorem execRdvar_responseDepends {s : State} {f : Fault} (h : execRdvar s = .fault f) :
    f = .readWithoutValue ∧ ResponseDepends execRdvar s := by
  rcases execRdvar_cases s with ⟨_, _, _, e⟩ | ⟨_, e⟩ | ⟨_, e⟩ | ⟨missing, e⟩ <;> cases e.symm.trans h
  have completes (v : Bool) := execRdvar_completes (s := s.withB (s.b.fill v (8 * s.cfg.bufLen))) fun lacks =>
    s.b.not_lacksValue_fill v s.cfg.bufLen (readVarint_lacksValue lacks)
  obtain ⟨t, ht, respT⟩ := completes false
  obtain ⟨u, hu, respU⟩ := completes true
  refine ⟨rfl, _, _, t, u, s.b.filledBy_fill false _, s.b.filledBy_fill true _, ht, hu, fun equal => ?_⟩
  exact readVarint_fill_ne missing
    (VarResult.response_inj (readVarint_small _ _ _) (readVarint_small _ _ _) (respT.symm.trans (equal.trans respU)))

/-! ### The byte runs -/

theorem exec_rdbytes_fault {s : State} {f : Fault} (h : exec .rdbytes s = .fault f) :
    f = .copyWithoutValue ∧ s.offset + 8 * s.count ≤ 8 * s.cfg.bufLen ∧ s.xoff + s.count ≤ s.cfg.xferLen ∧
      s.b.allValued s.offset (8 * s.count) = false := by
  rcases execRdbytes_cases s with ⟨_, e⟩ | ⟨_, _, e⟩ | ⟨_, _, _, _, e⟩ | ⟨_, inB, inX, missing, e⟩ <;>
    cases e.symm.trans h
  exact ⟨rfl, inB, inX, missing⟩

theorem exec_wrbytes_fault {s : State} {f : Fault} (h : exec .wrbytes s = .fault f) :
    f = .copyWithoutValue ∧ s.offset + 8 * s.count ≤ 8 * s.cfg.bufLen ∧ s.xoff + s.count ≤ s.cfg.xferLen ∧
      s.x.allValued (8 * s.xoff) (8 * s.count) = false := by
  rcases execWrbytes_cases s with ⟨_, e⟩ | ⟨_, _, e⟩ | ⟨_, _, _, _, e⟩ | ⟨_, inB, inX, missing, e⟩ <;>
    cases e.symm.trans h
  exact ⟨rfl, inB, inX, missing⟩

/-- An RDBYTES that faults would copy a bit that is set with one filling of `B` and clear with another. -/
theorem exec_rdbytes_dependsOnMissing {s : State} {f : Fault} (h : exec .rdbytes s = .fault f) :
    ∃ (m n : BitMemory) (t u : State), s.b.FilledBy s.cfg.bufLen m ∧ s.b.FilledBy s.cfg.bufLen n ∧
      exec .rdbytes { s with b := m } = .next t ∧ exec .rdbytes { s with b := n } = .next u ∧
      ∃ j, t.x.bit j ≠ u.x.bit j := by
  obtain ⟨-, inB, inX, missing⟩ := exec_rdbytes_fault h
  obtain ⟨k, hk, unvalued⟩ := (s.b.allValued_eq_false_iff _ _).mp missing
  have completes (v : Bool) := (exec_rdbytes_inside (s := s.withB (s.b.fill v (8 * s.cfg.bufLen))) inB inX).trans
    (if_pos (s.b.allValued_fill v inB))
  have copied (v : Bool) : (copyOut (s.b.fill v (8 * s.cfg.bufLen)) s.offset s.xoff s.count s.x).bit
      (8 * (s.xoff + k / 8) + k % 8) = v := by
    rw [bit_copyOut (by omega) (by omega), show s.offset + 8 * (k / 8) + k % 8 = s.offset + k by omega]
    exact BitMemory.bit_fill_of_missing v (by omega) unvalued
  refine ⟨_, _, _, _, s.b.filledBy_fill false _, s.b.filledBy_fill true _, completes false, completes true,
    8 * (s.xoff + k / 8) + k % 8, fun equal => ?_⟩
  cases (copied false).symm.trans (equal.trans (copied true))

/-- A WRBYTES that faults would copy a bit that is set with one filling of `X` and clear with another. -/
theorem exec_wrbytes_dependsOnMissing {s : State} {f : Fault} (h : exec .wrbytes s = .fault f) :
    ∃ (m n : BitMemory) (t u : State), s.x.FilledBy s.cfg.xferLen m ∧ s.x.FilledBy s.cfg.xferLen n ∧
      exec .wrbytes { s with x := m } = .next t ∧ exec .wrbytes { s with x := n } = .next u ∧
      ∃ j, t.b.bit j ≠ u.b.bit j := by
  obtain ⟨-, inB, inX, missing⟩ := exec_wrbytes_fault h
  have field : 8 * s.xoff + 8 * s.count ≤ 8 * s.cfg.xferLen := by omega
  obtain ⟨k, hk, unvalued⟩ := (s.x.allValued_eq_false_iff _ _).mp missing
  have completes (v : Bool) := (exec_wrbytes_inside (s := s.withX (s.x.fill v (8 * s.cfg.xferLen))) inB inX).trans
    (if_pos (s.x.allValued_fill v field))
  have copied (v : Bool) : (copyIn (s.x.fill v (8 * s.cfg.xferLen)) s.offset s.xoff s.count s.b).bit
      (s.offset + 8 * (k / 8) + k % 8) = v := by
    rw [bit_copyIn_run (by omega) (by omega), show 8 * (s.xoff + k / 8) + k % 8 = 8 * s.xoff + k by omega]
    exact BitMemory.bit_fill_of_missing v (by omega) unvalued
  refine ⟨_, _, _, _, s.x.filledBy_fill false _, s.x.filledBy_fill true _, completes false, completes true,
    s.offset + 8 * (k / 8) + k % 8, fun equal => ?_⟩
  cases (copied false).symm.trans (equal.trans (copied true))

/-! ### Which command raises which fault -/

/-- The reads fault over a response that depends on a missing value, the byte runs over a bit they would copy, and no other
command faults. -/
theorem exec_fault {i : Instr} {s : State} {f : Fault} (h : exec i s = .fault f) :
    (f = .readWithoutValue ∧ ResponseDepends (exec i) s) ∨
      (f = .copyWithoutValue ∧ (i = .rdbytes ∨ i = .wrbytes)) := by
  cases i with
  | rdbits w => exact .inl (execRdbits_responseDepends h)
  | rdu16 w => exact .inl (wideRead_responseDepends (.inl rfl) h)
  | rdu32 w => exact .inl (wideRead_responseDepends (.inr (.inl rfl)) h)
  | rdu64 w => exact .inl (wideRead_responseDepends (.inr (.inr rfl)) h)
  | rdvar => exact .inl (execRdvar_responseDepends h)
  | rdbytes => exact .inr ⟨(exec_rdbytes_fault h).1, .inl rfl⟩
  | wrbytes => exact .inr ⟨(exec_wrbytes_fault h).1, .inr rfl⟩
  | wrbits w => rcases execWrbits_cases w s with ⟨_, e⟩ | ⟨_, e⟩ | ⟨_, _, _, e⟩ | ⟨_, _, _, e⟩ <;> cases e.symm.trans h
  | wru16 w => exact absurd h wideWrite_no_fault
  | wru32 w => exact absurd h wideWrite_no_fault
  | wru64 w => exact absurd h wideWrite_no_fault
  | wrvar => rcases execWrvar_cases s with ⟨_, e⟩ | ⟨_, e⟩ <;> cases e.symm.trans h

/-- Settles O38: the two fillings set, and clear, every bit without a value. -/
theorem faultsOnlyWhereAValueIsMissing : Obligations.FaultsOnlyWhereAValueIsMissing := by
  intro i s
  refine ⟨fun h => ?_, fun h => ?_⟩
  · rcases exec_fault h with ⟨-, depends⟩ | ⟨other, -⟩
    · exact depends
    · cases other
  · rcases exec_fault h with ⟨other, -⟩ | ⟨-, rfl | rfl⟩
    · cases other
    · exact .inl ⟨rfl, exec_rdbytes_dependsOnMissing h⟩
    · exact .inr ⟨rfl, exec_wrbytes_dependsOnMissing h⟩

end Sys2Proof.Machine
end
